-- ==== Sys2Proof/Word.lean ====
section
/-! DEFINITION. The words of the LZW codec block (00_scope.md R8 to R10): stream bytes, 12-bit codes,
20-bit command words, byte sequences, and the four code widths. -/

namespace Sys2Proof

/-- One byte of a stream (00_scope.md R7 `BYTE_BITS`, R9: bit 7 is the top bit). -/
abbrev Byte := BitVec 8

/-- A code: 12 bits hold every code of every width (00_scope.md R8). -/
abbrev Code := BitVec 12

/-- A command word: 20 bits (30_encoding.md R81). -/
abbrev CommandWord := BitVec 20

/-- A byte sequence (00_scope.md R10). -/
abbrev ByteSeq := List Byte

/-- A code width, `9..12` (10_state.md R31; the formats `W9` to `W12` of 30_encoding.md R71). -/
inductive CodeWidth where
  | w9
  | w10
  | w11
  | w12
deriving DecidableEq, Repr

/-- The number of bits of a code width. -/
def CodeWidth.toNat : CodeWidth → Nat
  | .w9 => 9
  | .w10 => 10
  | .w11 => 11
  | .w12 => 12

end Sys2Proof
end

