-- ==== Sys2Proof/Config.lean ====
section
/-! DEFINITION. The implementation parameters of 00_scope.md R7 (the reference configuration, the only one
the spec describes) and the free values: constants without a body, so no proof can see their value. -/

namespace Sys2Proof.Config

/-- `MIN_WIDTH` (R7). -/
abbrev minWidth : Nat := 9

/-- `MAX_WIDTH` (R7): "fixed at build time". -/
abbrev maxWidth : Nat := 12

/-- `CAPACITY` (R7): `2^MAX_WIDTH`, literals included. -/
abbrev capacity : Nat := 2 ^ maxWidth

/-- `FIRST_CODE` (R7): the first code assigned to a multi-byte entry. -/
abbrev firstCode : Nat := 256

/-- `N_LITERALS` (R7): codes `0..255` are "permanently reserved for single raw bytes". -/
abbrev nLiterals : Nat := 256

/-- `THRESHOLDS` (R7): "values of the encoder's `next_code` at which the width grows by one". -/
abbrev thresholds : List Nat := [512, 1024, 2048]

/-- The sequence a decoder dictionary would give for a code it does not hold. FREE VALUE: 93_implementation_defined.md
U8, "if a model's lookup function is total, its value there is `any value`". No reachable state reads it (log 8). -/
opaque absentEntry : Code → ByteSeq

/-- The code an encoder dictionary would give for a sequence that is no key. FREE VALUE (U8, log 8). -/
opaque absentCode : ByteSeq → Code

/-- The first byte of an empty sequence, read in no reachable state. FREE VALUE (U8, log 8). -/
opaque absentByte : Byte

end Sys2Proof.Config
end

