-- ==== Sys2Proof/Syntax.lean ====
section
/-! DEFINITION. The instructions: one constructor for each row of spec/opcode_table.json. The thirteen operations
of 30_encoding.md R80, the three reserved operation numbers (R80, R88), and the eight code-word rows of R71. -/

namespace Sys2Proof

/-- An instruction of the block: an operation written as a command word (30_encoding.md R81), or a code word of the
compressed stream (R71), which the decoder fetches with `UP.READ(DEC.width)`. -/
inductive Instr where
  /-- `PK.START` (40_bit_packer.md R100). -/
  | pkStart
  /-- `PK.WRITE code, width` (R101). -/
  | pkWrite (code : BitVec 12) (width : BitVec 4)
  /-- `PK.FLUSH` (R102). -/
  | pkFlush
  /-- `UP.START` (41_bit_unpacker.md R110). -/
  | upStart
  /-- `UP.READ width` (R111). -/
  | upRead (width : BitVec 4)
  /-- `ENC.START` (42_lzw_encoder.md R121). -/
  | encStart
  /-- `ENC.BYTE b` (R122, R123). -/
  | encByte (b : BitVec 8)
  /-- `ENC.END` (R125). -/
  | encEnd
  /-- `ENC.ABORT` (R126). -/
  | encAbort
  /-- `DEC.START` (43_lzw_decoder.md R141). -/
  | decStart
  /-- `DEC.STEP` (R142, R143). -/
  | decStep
  /-- `COMPRESS` (42_lzw_encoder.md R127). -/
  | compress
  /-- `DECOMPRESS` (43_lzw_decoder.md R148). -/
  | decompress
  /-- Reserved operation number `0xD`, with any low bits (30_encoding.md R88 (a)). -/
  | reservedD (payload : BitVec 16)
  /-- Reserved operation number `0xE` (R88 (a)). -/
  | reservedE (payload : BitVec 16)
  /-- Reserved operation number `0xF` (R88 (a)). -/
  | reservedF (payload : BitVec 16)
  /-- Code word of format `W9` naming a literal (R71). -/
  | w9Lit (b : BitVec 8)
  /-- Code word of format `W9` naming a learned entry, code 256 or more (R71). -/
  | w9Dict (code : BitVec 9)
  /-- Code word of format `W10` naming a literal (R71). -/
  | w10Lit (b : BitVec 8)
  /-- Code word of format `W10` naming a learned entry (R71). -/
  | w10Dict (code : BitVec 10)
  /-- Code word of format `W11` naming a literal (R71). -/
  | w11Lit (b : BitVec 8)
  /-- Code word of format `W11` naming a learned entry (R71). -/
  | w11Dict (code : BitVec 11)
  /-- Code word of format `W12` naming a literal (R71). -/
  | w12Lit (b : BitVec 8)
  /-- Code word of format `W12` naming a learned entry (R71). -/
  | w12Dict (code : BitVec 12)
deriving DecidableEq, Repr

/-- An instruction as bits: a command word, or a code word of one of the four formats. -/
inductive Encoded where
  /-- A 20-bit command word (30_encoding.md R81). -/
  | command (w : CommandWord)
  /-- A code word of format `W9` (R71). -/
  | code9 (w : BitVec 9)
  /-- A code word of format `W10`. -/
  | code10 (w : BitVec 10)
  /-- A code word of format `W11`. -/
  | code11 (w : BitVec 11)
  /-- A code word of format `W12`. -/
  | code12 (w : BitVec 12)
deriving DecidableEq, Repr

/-- The code words of the wire format, as opposed to the operations. -/
def Instr.isCodeWord : Instr → Bool
  | .w9Lit _ | .w9Dict _ | .w10Lit _ | .w10Dict _ | .w11Lit _ | .w11Dict _ | .w12Lit _ | .w12Dict _ => true
  | .pkStart | .pkWrite _ _ | .pkFlush | .upStart | .upRead _ | .encStart | .encByte _ | .encEnd | .encAbort
  | .decStart | .decStep | .compress | .decompress | .reservedD _ | .reservedE _ | .reservedF _ => false

end Sys2Proof
end

