-- ==== Sys2Proof/WellFormed.lean ====
section
/-! DEFINITION. Well-formed instructions: the operand ranges of 30_encoding.md R87 (`width` in `1..12`) and the
constraint of the DICT rows of R71 (a learned entry's code is 256 or more). -/

namespace Sys2Proof

/-- The legal widths of the bit-channel operations: "the legal range is `1..MAX_WIDTH`" (30_encoding.md R87). -/
def legalWidth (width : BitVec 4) : Bool :=
  decide (1 ≤ width.toNat ∧ width.toNat ≤ Config.maxWidth)

/-- The check of R87 and of the last column of R71's table. -/
def Instr.wellFormed : Instr → Bool
  | .pkWrite _ width => legalWidth width
  | .upRead width => legalWidth width
  | .w9Dict c => decide (Config.firstCode ≤ c.toNat)
  | .w10Dict c => decide (Config.firstCode ≤ c.toNat)
  | .w11Dict c => decide (Config.firstCode ≤ c.toNat)
  | .w12Dict c => decide (Config.firstCode ≤ c.toNat)
  | .pkStart | .pkFlush | .upStart | .encStart | .encByte _ | .encEnd | .encAbort | .decStart | .decStep
  | .compress | .decompress | .reservedD _ | .reservedE _ | .reservedF _
  | .w9Lit _ | .w10Lit _ | .w11Lit _ | .w12Lit _ => true

end Sys2Proof
end

