-- ==== Sys2Proof/Decode.lean ====
section
/-! DEFINITION. The decoder, total, rejecting by name, and after it the encoder (30_encoding.md R71, R80, R81, R88).
A command word is `op[19:16] width[15:12] code[11:0]`, with the byte of `ENC.BYTE` in bits 7:0. A code word is one
field, `code`; which format a code word has is known from the reader's state (R72), so the format is given with it. -/

namespace Sys2Proof

/-- Why a word is no instruction. -/
inductive DecodeReject where
  /-- A field the operation does not use is non-zero (30_encoding.md R81, R88 (b)). -/
  | unusedFieldNotZero (op : BitVec 4)
deriving DecidableEq, Repr

/-- An operation without operands: bits 15:0 must be 0 (R81). -/
def noOperands (i : Instr) (w : CommandWord) : Except DecodeReject Instr :=
  if w.extractLsb' 0 16 = 0#16 then .ok i else .error (.unusedFieldNotZero (w.extractLsb' 16 4))

/-- The decoding of a command word (R80, R81, R88 (a), (b)). Operation numbers `0xD..0xF` are decoded as the reserved
rows, whose meaning is the refusal of R88 (a). -/
def decodeCommand (w : CommandWord) : Except DecodeReject Instr :=
  match (w.extractLsb' 16 4).toNat with
  | 0x0 => noOperands .pkStart w
  | 0x1 => .ok (.pkWrite (w.extractLsb' 0 12) (w.extractLsb' 12 4))
  | 0x2 => noOperands .pkFlush w
  | 0x3 => noOperands .upStart w
  | 0x4 =>
    if w.extractLsb' 0 12 = 0#12 then .ok (.upRead (w.extractLsb' 12 4))
    else .error (.unusedFieldNotZero (w.extractLsb' 16 4))
  | 0x5 => noOperands .encStart w
  | 0x6 =>
    if w.extractLsb' 8 8 = 0#8 then .ok (.encByte (w.extractLsb' 0 8))
    else .error (.unusedFieldNotZero (w.extractLsb' 16 4))
  | 0x7 => noOperands .encEnd w
  | 0x8 => noOperands .encAbort w
  | 0x9 => noOperands .decStart w
  | 0xA => noOperands .decStep w
  | 0xB => noOperands .compress w
  | 0xC => noOperands .decompress w
  | 0xD => .ok (.reservedD (w.extractLsb' 0 16))
  | 0xE => .ok (.reservedE (w.extractLsb' 0 16))
  | _ => .ok (.reservedF (w.extractLsb' 0 16))

/-- Format `W9` (R71): bit 8 tells a literal from a learned entry. -/
def decodeCode9 (w : BitVec 9) : Instr :=
  if w.extractLsb' 8 1 = 0#1 then .w9Lit (w.extractLsb' 0 8) else .w9Dict w

/-- Format `W10` (R71): bits 9:8. -/
def decodeCode10 (w : BitVec 10) : Instr :=
  if w.extractLsb' 8 2 = 0#2 then .w10Lit (w.extractLsb' 0 8) else .w10Dict w

/-- Format `W11` (R71): bits 10:8. -/
def decodeCode11 (w : BitVec 11) : Instr :=
  if w.extractLsb' 8 3 = 0#3 then .w11Lit (w.extractLsb' 0 8) else .w11Dict w

/-- Format `W12` (R71): bits 11:8. -/
def decodeCode12 (w : BitVec 12) : Instr :=
  if w.extractLsb' 8 4 = 0#4 then .w12Lit (w.extractLsb' 0 8) else .w12Dict w

/-- The decoder. "Every value of every width is a code" (R85), so a code word is never rejected here. -/
def decode : Encoded → Except DecodeReject Instr
  | .command w => decodeCommand w
  | .code9 w => .ok (decodeCode9 w)
  | .code10 w => .ok (decodeCode10 w)
  | .code11 w => .ok (decodeCode11 w)
  | .code12 w => .ok (decodeCode12 w)

/-- A command word from its three fields (R81). -/
def commandWord (op width : BitVec 4) (code : BitVec 12) : CommandWord := op ++ width ++ code

/-- The encoder (R71, R81), written from the tables of the spec and not from the decoder. -/
def encode : Instr → Encoded
  | .pkStart => .command (commandWord 0x0 0 0)
  | .pkWrite code width => .command (commandWord 0x1 width code)
  | .pkFlush => .command (commandWord 0x2 0 0)
  | .upStart => .command (commandWord 0x3 0 0)
  | .upRead width => .command (commandWord 0x4 width 0)
  | .encStart => .command (commandWord 0x5 0 0)
  | .encByte b => .command (commandWord 0x6 0 (0#4 ++ b))
  | .encEnd => .command (commandWord 0x7 0 0)
  | .encAbort => .command (commandWord 0x8 0 0)
  | .decStart => .command (commandWord 0x9 0 0)
  | .decStep => .command (commandWord 0xA 0 0)
  | .compress => .command (commandWord 0xB 0 0)
  | .decompress => .command (commandWord 0xC 0 0)
  | .reservedD payload => .command (0xD#4 ++ payload)
  | .reservedE payload => .command (0xE#4 ++ payload)
  | .reservedF payload => .command (0xF#4 ++ payload)
  | .w9Lit b => .code9 (0#1 ++ b)
  | .w9Dict c => .code9 c
  | .w10Lit b => .code10 (0#2 ++ b)
  | .w10Dict c => .code10 c
  | .w11Lit b => .code11 (0#3 ++ b)
  | .w11Dict c => .code11 c
  | .w12Lit b => .code12 (0#4 ++ b)
  | .w12Dict c => .code12 c

/-- The code word of a width that carries a code: its low bits (R71). -/
def encodedOfCode (width : CodeWidth) (c : Code) : Encoded :=
  match width with
  | .w9 => .code9 (c.setWidth 9)
  | .w10 => .code10 (c.setWidth 10)
  | .w11 => .code11 (c.setWidth 11)
  | .w12 => .code12 c

/-- The code-word instruction of a width that a code stands for, as `UP.READ` gives it to the decoder. -/
def instrOfCode (width : CodeWidth) (c : Code) : Instr :=
  match width with
  | .w9 => decodeCode9 (c.setWidth 9)
  | .w10 => decodeCode10 (c.setWidth 10)
  | .w11 => decodeCode11 (c.setWidth 11)
  | .w12 => decodeCode12 c

/-- The word of `nbits` bits whose value is `w`, numbered as spec/opcode_table.json numbers them. A command word has
20 bits, 24 in whole bytes. A code word has 9 to 12 bits; in whole bytes that is 16 bits for each of the four
formats, and nothing in a code word says how wide it is (R71), so a 16-bit word is read in the narrowest format that
holds it (log 6). -/
def tableWord (nbits w : Nat) : Option Encoded :=
  if nbits = 20 ∨ nbits = 24 then
    if w < 2 ^ 20 then some (.command (BitVec.ofNat 20 w)) else none
  else if (nbits = 9 ∨ nbits = 16) ∧ w < 2 ^ 9 then some (.code9 (BitVec.ofNat 9 w))
  else if (nbits = 10 ∨ nbits = 16) ∧ w < 2 ^ 10 then some (.code10 (BitVec.ofNat 10 w))
  else if (nbits = 11 ∨ nbits = 16) ∧ w < 2 ^ 11 then some (.code11 (BitVec.ofNat 11 w))
  else if (nbits = 12 ∨ nbits = 16) ∧ w < 2 ^ 12 then some (.code12 (BitVec.ofNat 12 w))
  else none

/-- The instruction the decoder reads from the table word `w` of `nbits` bits; none where it refuses. -/
def decodeTableWord (nbits w : Nat) : Option Instr :=
  match tableWord nbits w with
  | none => none
  | some e =>
    match decode e with
    | .ok i => some i
    | .error _ => none

end Sys2Proof
end

