-- ==== Sys2Proof/Machine/State.lean ====
section
/-! DEFINITION. The state of the block (10_state.md R20): the four units, with their streams, and the host's side:
the result of the last operation and the host's pending acts. Plain data throughout. -/

namespace Sys2Proof.Machine

/-- A source stream (20_memory.md R50): `S.data` and `S.pos`. -/
structure Source where
  data : ByteSeq
  pos : Nat
deriving DecidableEq, Repr

/-- A sink stream (20_memory.md R51): `K.data`. `taken` counts the bytes of it that have been transferred through the
output port (R66 `c_done`, `d_done`), and `backlog` holds the bytes of earlier streams that still wait for their transfer,
since "no byte is dropped" (R67 (b)); log 10. They serve the output port alone. -/
structure Sink where
  data : ByteSeq
  taken : Nat
  backlog : ByteSeq
deriving DecidableEq, Repr

/-- The learned entries of a dictionary, (code, sequence) pairs in the order they were added. The 256 literals are
"permanently reserved" (00_scope.md R7) and computed, not listed (log 14). -/
abbrev Dict := List (Code × ByteSeq)

/-- The bit packer (10_state.md R24, R25) with its sink `PK.out`. -/
structure Pk where
  acc : Byte
  cnt : Nat
  out : Sink
deriving DecidableEq, Repr

/-- The bit unpacker (10_state.md R27 to R29) with its source `UP.src`. `fed` tells whether that source is the sequence
of bytes transferred on `d_in` (20_memory.md R67 (a)) or one the host attached; log 11. -/
structure Up where
  buf : Byte
  left : Nat
  eos : Bool
  src : Source
  fed : Bool
deriving DecidableEq, Repr

/-- `ENC.phase` (10_state.md R22). -/
inductive EncPhase where
  | run
  | done
deriving DecidableEq, Repr

/-- `DEC.phase` (10_state.md R22). -/
inductive DecPhase where
  | run
  | done
  | error
deriving DecidableEq, Repr

/-- `DEC.status` (10_state.md R42): `ST_RUN`, `ST_DONE`, `ST_ERR_INVALID_CODE`. "A model may represent the status as
a three-valued type and has no fourth case" (93_implementation_defined.md U6; log 16). -/
inductive DecStatus where
  | run
  | done
  | invalidCode
deriving DecidableEq, Repr

/-- The encoder (10_state.md R30 to R34) with its source `ENC.src`. `curMatch` is `ENC.match`. -/
structure Enc where
  dict : Dict
  nextCode : Nat
  width : CodeWidth
  curMatch : ByteSeq
  phase : EncPhase
  src : Source
deriving DecidableEq, Repr

/-- The decoder (10_state.md R30, R31, R37 to R42) with its sink `DEC.out`. `prev` is `none` for `UNDEF` (R39, U1). -/
structure Dec where
  dict : Dict
  nextCode : Nat
  width : CodeWidth
  prev : Option ByteSeq
  phase : DecPhase
  status : DecStatus
  badcode : BitVec 12
  out : Sink
deriving DecidableEq, Repr

/-- What an operation returned (30_encoding.md R80, column "result"). -/
inductive OpResult where
  | none
  | code (c : Code)
  | eos
  | continue
  | done
  | error
deriving DecidableEq, Repr

/-- A transfer or a pulse of the optional port binding (20_memory.md R66). A transfer stands for a cycle in which
`valid` and `ready` are both 1 (log 11). -/
inductive PortEvent where
  /-- `c_start`. -/
  | cStart
  /-- A raw byte is transferred on `c_in`. -/
  | cIn (b : Byte)
  /-- `c_in_end`. -/
  | cInEnd
  /-- `c_abort`. -/
  | cAbort
  /-- `c_out_ready` in a cycle: a compressed byte is transferred if `c_out_valid`. -/
  | cOut
  /-- `d_start`. -/
  | dStart
  /-- `d_in_valid` with a compressed byte. -/
  | dIn (b : Byte)
  /-- `d_in_end` in a cycle. -/
  | dInEnd
  /-- `d_out_ready` in a cycle: a raw byte is transferred if `d_out_valid`. -/
  | dOut
deriving DecidableEq, Repr

/-- An act of the host (00_scope.md R17; log 1). -/
inductive HostEvent where
  /-- Issue an operation (30_encoding.md R80, R81). -/
  | command (w : CommandWord)
  /-- Apply reset (70_reset_and_hazards.md R190, R191). -/
  | reset
  /-- Attach a raw source stream to the encoder (R192 (2); log 9). -/
  | attachRaw (data : ByteSeq)
  /-- Attach a compressed source stream to the unpacker (R192 (2), 41_bit_unpacker.md R110; log 9). -/
  | attachCompressed (data : ByteSeq)
  /-- A port event. -/
  | port (e : PortEvent)
deriving DecidableEq, Repr

/-- The state of the machine. -/
structure State where
  pk : Pk
  up : Up
  enc : Enc
  dec : Dec
  result : OpResult
  events : List HostEvent
deriving DecidableEq, Repr

/-- Why the machine stops. -/
inductive Fault where
  /-- Raised by `DECOMPRESS` if its loop ran past the bound of its source's bits. Never raised: each `CONTINUE` consumes
  at least 9 bits (43_lzw_decoder.md R148). Safe: the machine stops where the hardware would go on (log 17). -/
  | loopBound
deriving DecidableEq, Repr

/-- Why an operation is refused. All safe: "refusal is the conservative outcome" (30_encoding.md R88; log 3). -/
inductive Refusal where
  /-- An instruction that has no meaning yet. Safe. -/
  | notModelled (mnemonic : String)
  /-- R88 (a): raised by the operation numbers `0xD..0xF`. Safe. -/
  | reservedOperation
  /-- R88 (b): raised by a command word with a non-zero unused field. Safe. -/
  | unusedFieldNotZero
  /-- R88 (c): raised by `PK.WRITE` and `UP.READ` with a width outside `1..12`. Safe. -/
  | widthOutOfRange
  /-- R88 (d): raised by `ENC.BYTE`, `ENC.END`, `ENC.ABORT` while `ENC.phase == DONE`. Safe. -/
  | encPhaseDone
  /-- R88 (d): raised by `DEC.STEP`, and by a code word, while `DEC.phase` is `DONE` or `ERROR`. Safe. -/
  | decPhaseNotRun
  /-- R88 (e): raised by a host's `PK.*` while the encoder has a stream in progress. Safe. -/
  | encStreamInProgress
  /-- R88 (e): raised by a host's `UP.*` while the decoder has a stream in progress. Safe. -/
  | decStreamInProgress
  /-- Raised by a code word of a format the decoder is not reading: the length of the next code word is known "from its
  own state, `DEC.width`, never from the stream" (30_encoding.md R72). Safe (log 5). -/
  | codeWordWidth
deriving DecidableEq, Repr

/-- The state after reset (70_reset_and_hazards.md R190). The sources are empty and attached by the host, nothing is
taken from a sink, no byte waits at an output port, no result is held and no act of the host is pending (logs 1, 2, 9,
10, 11). -/
def State.reset : State where
  pk := { acc := 0#8, cnt := 0, out := { data := [], taken := 0, backlog := [] } }
  up := { buf := 0#8, left := 0, eos := false, src := { data := [], pos := 0 }, fed := false }
  enc :=
    { dict := []
      nextCode := 256
      width := .w9
      curMatch := []
      phase := .run
      src := { data := [], pos := 0 } }
  dec :=
    { dict := []
      nextCode := 256
      width := .w9
      prev := none
      phase := .run
      status := .run
      badcode := 0#12
      out := { data := [], taken := 0, backlog := [] } }
  result := .none
  events := []

/-! Updates of one field. Every meaning changes the state through these; their laws are in Laws/State.lean. -/

/-- Write the packer. -/
def State.setPk (s : State) (p : Pk) : State := { s with pk := p }
/-- Write the unpacker. -/
def State.setUp (s : State) (u : Up) : State := { s with up := u }
/-- Write the encoder. -/
def State.setEnc (s : State) (e : Enc) : State := { s with enc := e }
/-- Write the decoder. -/
def State.setDec (s : State) (d : Dec) : State := { s with dec := d }
/-- Write the result of the operation. -/
def State.setResult (s : State) (r : OpResult) : State := { s with result := r }
/-- Write the host's pending acts. -/
def State.setEvents (s : State) (es : List HostEvent) : State := { s with events := es }

end Sys2Proof.Machine
end

