-- ==== Sys2Proof/Machine/Operands.lean ====
section
/-! DEFINITION. Operand forms: widths and their promotion (00_scope.md R12, R13), the code and byte operands
(30_encoding.md R87, R76), the dictionaries as maps (10_state.md R32, R37), and bits as lists. -/

namespace Sys2Proof.Machine

/-- The next larger code width. -/
def wider : CodeWidth → CodeWidth
  | .w9 => .w10
  | .w10 => .w11
  | .w11 => .w12
  | .w12 => .w12

/-- `NextWidth(w, n, maxw)` (00_scope.md R12). -/
def nextWidth (w : CodeWidth) (n maxw : Nat) : CodeWidth :=
  if n = 2 ^ w.toNat ∧ w.toNat < maxw then wider w else w

/-- `WidthFor(n)` (00_scope.md R13), for `256 <= n <= 4097`. -/
def widthFor (n : Nat) : CodeWidth :=
  if n ≤ 511 then .w9 else if n ≤ 1023 then .w10 else if n ≤ 2047 then .w11 else .w12

/-- A byte as a code: the literal's code "is the byte value itself" (30_encoding.md R71, 10_state.md R32). -/
def literalCode (b : Byte) : Code := b.setWidth 12

/-- A count as a code, for a count below `CAPACITY` (10_state.md R30). -/
def codeOfCount (n : Nat) : Code := BitVec.ofNat 12 n

/-- The first byte of a sequence, `s[0]` (00_scope.md R10). -/
def firstByte (s : ByteSeq) : Byte := s.headD Config.absentByte

/-- The sequence a code names, if the dictionary holds it: a literal, or a learned entry (10_state.md R37). -/
def Dict.seqOf? (d : Dict) (c : Code) : Option ByteSeq :=
  if c.toNat < Config.nLiterals then some [c.setWidth 8]
  else (d.find? (fun e => e.1 == c)).map (·.2)

/-- The code of a sequence, if it is a key (10_state.md R32). -/
def Dict.codeOf? (d : Dict) (k : ByteSeq) : Option Code :=
  match k with
  | [b] => some (literalCode b)
  | _ => (d.find? (fun e => e.2 == k)).map (·.1)

/-- "`cand` is a key of `ENC.dict`" (42_lzw_encoder.md R123). -/
def Dict.isKey (d : Dict) (k : ByteSeq) : Bool := (d.codeOf? k).isSome

/-- `DEC.dict[c]` (43_lzw_decoder.md R142, R143), total: a free value outside the domain (log 8). -/
def Dict.seqOf (d : Dict) (c : Code) : ByteSeq := (d.seqOf? c).getD (Config.absentEntry c)

/-- `ENC.dict[k]` (42_lzw_encoder.md R123), total: a free value outside the domain (log 8). -/
def Dict.codeOf (d : Dict) (k : ByteSeq) : Code := (d.codeOf? k).getD (Config.absentCode k)

/-- `dict[k] <- c`: one new pair is appended (10_state.md R33, R38). -/
def Dict.insert (d : Dict) (c : Code) (k : ByteSeq) : Dict := d ++ [(c, k)]

/-- The canonical form of a dictionary: its learned codes are 256, 257, ... "in increasing order with no gaps"
(20_memory.md R55), and all fit in `CAPACITY`. -/
def Dict.wf (d : Dict) : Bool :=
  d.map (·.1) == (List.range d.length).map (fun i => codeOfCount (Config.firstCode + i))
    && decide (Config.firstCode + d.length ≤ Config.capacity)

/-- The low `width` bits of a code, most significant first: the order of the wire (20_memory.md R57, R87). -/
def codeBits (c : Code) : Nat → List Bool
  | 0 => []
  | w + 1 => c.getLsbD w :: codeBits c w

/-- The number a list of bits stands for, earliest bit most significant: `sum of s_i * 2^(w-1-i)` (30_encoding.md R76). -/
def bitsValue (bits : List Bool) : Nat := bits.foldl (fun r b => 2 * r + b.toNat) 0

/-- The bits of a stream byte in the order of the stream: bit 7 first (20_memory.md R57). -/
def byteBits (b : Byte) : List Bool := codeBits (b.setWidth 12) 8

/-- The bits of a byte sequence in the order of the stream (20_memory.md R57). -/
def streamBits (s : ByteSeq) : List Bool := s.flatMap byteBits

end Sys2Proof.Machine
end

