-- ==== Sys2Proof/Machine/Flags.lean ====
section
/-! DEFINITION. The status flags (10_state.md R23): what the phases accept (R22, 30_encoding.md R88), the encoding of
`DEC.status` (R42), and the class of a received code (30_encoding.md R73). -/

namespace Sys2Proof.Machine

/-- The 2-bit reading of `DEC.status` (10_state.md R42). -/
def statusBits : DecStatus → BitVec 2
  | .run => 0
  | .done => 1
  | .invalidCode => 2

/-- The status that stands beside a phase (10_state.md R42, last column). -/
def statusOfPhase : DecPhase → DecStatus
  | .run => .run
  | .done => .done
  | .error => .invalidCode

/-- R88 (e): `ENC.phase == RUN` and `ENC.match != []`. -/
def State.encInProgress (s : State) : Bool := s.enc.phase == .run && s.enc.curMatch != []

/-- R88 (e): `DEC.phase == RUN` and `DEC.prev != UNDEF`. -/
def State.decInProgress (s : State) : Bool := s.dec.phase == .run && s.dec.prev != none

/-- The class of a received code (30_encoding.md R73). -/
inductive CodeClass where
  | lit
  | ref
  | kwkwk
  | invalid
deriving DecidableEq, Repr

/-- R73's table: `c` the code read, `n = DEC.next_code`, `defined` whether `DEC.prev` is defined. -/
def classOf (c : Code) (n : Nat) (defined : Bool) : CodeClass :=
  if c.toNat < Config.nLiterals then .lit
  else if !defined then .invalid
  else if c.toNat < n then .ref
  else if c.toNat = n then .kwkwk
  else .invalid

/-- The class of a code at a decoder. -/
def Dec.classOf (d : Dec) (c : Code) : CodeClass := Machine.classOf c d.nextCode d.prev.isSome

end Sys2Proof.Machine
end

