-- ==== Sys2Proof/Machine/Ops.lean ====
section
/-! DEFINITION. The named operations shared by the meanings: the streams (20_memory.md R50, R51), the packer's and the
unpacker's bits (40_bit_packer.md R101, R102; 41_bit_unpacker.md R111), the `START` of each unit and reset
(70_reset_and_hazards.md R190), and taking the one exception (60_exceptions.md R176). There is no return from it
(R177): only `DEC.START` or reset leaves phase `ERROR`. -/

namespace Sys2Proof.Machine

/-- `SrcNext(S)` (20_memory.md R50): the next byte, or `none` for `EXHAUSTED`. -/
def srcNext (src : Source) : Option Byte × Source :=
  match src.data[src.pos]? with
  | some b => (some b, { src with pos := src.pos + 1 })
  | none => (none, src)

/-- `SinkAppend(K, b)` (20_memory.md R51). -/
def sinkAppend (k : Sink) (b : Byte) : Sink := { k with data := k.data ++ [b] }

/-- "For each byte x of e in order: SinkAppend" (43_lzw_decoder.md R143 step 4, R144). -/
def sinkAppendAll (k : Sink) (e : ByteSeq) : Sink := e.foldl sinkAppend k

/-- The bytes of a sink, and of the streams before it, that have not been transferred through the output port, in
order. -/
def sinkOwed (k : Sink) : ByteSeq := k.backlog ++ k.data.drop k.taken

/-- A fresh, empty sink (40_bit_packer.md R100). The bytes the old one still owes its output port stay owed: "no byte is
dropped" (20_memory.md R67 (b); log 10). -/
def freshSink (k : Sink) : Sink := { data := [], taken := 0, backlog := sinkOwed k }

/-- A source attached at its beginning (20_memory.md R50: position "initially 0"). -/
def attachedSource (data : ByteSeq) : Source := { data := data, pos := 0 }

/-- `PK.START` (40_bit_packer.md R100). -/
def freshPk (p : Pk) : Pk := { acc := 0#8, cnt := 0, out := freshSink p.out }

/-- One turn of the loop of `PK.WRITE` (40_bit_packer.md R101). -/
def pkPutBit (p : Pk) (b : Bool) : Pk :=
  let acc := (p.acc <<< 1) ||| (BitVec.ofBool b).setWidth 8
  let cnt := p.cnt + 1
  if cnt = 8 then { acc := 0#8, cnt := 0, out := sinkAppend p.out acc }
  else { p with acc := acc, cnt := cnt }

/-- The loop of `PK.WRITE` "for i from width-1 down to 0" (40_bit_packer.md R101). Bits of `code` at or above position
`width` are ignored (30_encoding.md R87; log 13). -/
def pkPutCode (p : Pk) (code : Code) : Nat → Pk
  | 0 => p
  | i + 1 => pkPutCode (pkPutBit p (code.getLsbD i)) code i

/-- `PK.FLUSH` (40_bit_packer.md R102): the pending bits go to the top of the final byte. -/
def pkFlushed (p : Pk) : Pk :=
  if 0 < p.cnt then { acc := 0#8, cnt := 0, out := sinkAppend p.out (p.acc <<< (8 - p.cnt)) } else p

/-- `UP.START` (41_bit_unpacker.md R110): reading begins at the first byte of the source. A source the host attached
keeps its content (log 9). Of a source fed through `d_in` each byte answers one `SrcNext` (20_memory.md R66) and none can
be read twice (R50), so the source that begins here holds the bytes transferred from now on (R67 (a); log 11). -/
def restartedUp (u : Up) : Up :=
  { buf := 0#8, left := 0, eos := false, src := attachedSource (if u.fed then [] else u.src.data), fed := u.fed }

/-- Make sure that a bit is there: pull a byte when the buffer is empty (41_bit_unpacker.md R111). The flag tells
whether a bit is there; without one the unpacker is at end-of-stream. -/
def upFill (u : Up) : Bool × Up :=
  if u.left = 0 then
    match srcNext u.src with
    | (some b, src) => (true, { u with buf := b, left := 8, src := src })
    | (none, src) => (false, { u with eos := true, src := src })
  else (true, u)

/-- Consume the top bit (41_bit_unpacker.md R111). -/
def upTakeBit (u : Up) : Bool × Up := (u.buf.getLsbD 7, { u with buf := u.buf <<< 1, left := u.left - 1 })

/-- The loop of `UP.READ` "repeat width times" (41_bit_unpacker.md R111), with `r` the bits gathered so far; `none` is
`EOS`, and then the bits gathered are dropped. -/
def upGather : Nat → Code → Up → Option Code × Up
  | 0, r, u => (some r, u)
  | n + 1, r, u =>
    match upFill u with
    | (false, u') => (none, u')
    | (true, u') =>
      let (bit, u'') := upTakeBit u'
      upGather n ((r <<< 1) ||| (BitVec.ofBool bit).setWidth 12) u''

/-- `UP.READ width` (41_bit_unpacker.md R111) for a legal width; `none` is `EOS`. -/
def upRead (u : Up) (width : Nat) : Option Code × Up :=
  if u.eos then (none, u) else upGather width 0#12 u

/-- The bits the unpacker can still deliver: those left in its buffer and those of the bytes not yet pulled. -/
def upBitsAvailable (u : Up) : Nat := u.left + 8 * (u.src.data.length - u.src.pos)

/-- `ENC.START` on the encoder's own registers (42_lzw_encoder.md R121); its source is the host's and stays. -/
def restartedEnc (e : Enc) : Enc :=
  { dict := [], nextCode := Config.firstCode, width := .w9, curMatch := [], phase := .run, src := e.src }

/-- `DEC.START` on the decoder's own registers (43_lzw_decoder.md R141). -/
def freshDec (d : Dec) : Dec :=
  { dict := [], nextCode := Config.firstCode, width := .w9, prev := none, phase := .run, status := .run,
    badcode := 0#12, out := freshSink d.out }

/-- `ENC.START`, which includes `PK.START` (42_lzw_encoder.md R121). -/
def startEnc (s : State) : State := ((s.setEnc (restartedEnc s.enc)).setPk (freshPk s.pk)).setResult .none

/-- `DEC.START`, which includes `UP.START` (43_lzw_decoder.md R141). -/
def startDec (s : State) : State := ((s.setDec (freshDec s.dec)).setUp (restartedUp s.up)).setResult .none

/-- Reset (70_reset_and_hazards.md R190): "the state reached by `ENC.START` ... and `DEC.START`". -/
def resetBlock (s : State) : State := startDec (startEnc s)

/-- Trap entry, `raise DecodeError(c)` (60_exceptions.md R176): "exactly this and nothing else". -/
def raiseDecodeError (c : Code) (s : State) : State :=
  (s.setDec { s.dec with badcode := c, status := .invalidCode, phase := .error }).setResult .error

end Sys2Proof.Machine
end

