-- ==== Sys2Proof/Machine/Decoder.lean ====
section
/-! DEFINITION. The decoder's operations (43_lzw_decoder.md). `DEC.STEP` reads a code word of `DEC.width` bits from the
unpacker and then does what the code asks; the second half, `decReceive`, is also the meaning of the code words. -/

namespace Sys2Proof.Machine

/-- The sequence a later code names (R143 step 3, tests in the spec's order): present, KWKWK, or `none` for the decode
error. -/
def decResolve (d : Dec) (p : ByteSeq) (c : Code) : Option ByteSeq :=
  if c.toNat < d.nextCode then some (d.dict.seqOf c)
  else if c.toNat = d.nextCode then some (p ++ [firstByte p])
  else none

/-- R143 steps 4 to 7: emit, insert below capacity (R145), promote on `next_code + 1` (R146), remember. -/
def decLearn (d : Dec) (p e : ByteSeq) : Dec :=
  let grown :=
    if d.nextCode < Config.capacity then
      { d with dict := d.dict.insert (codeOfCount d.nextCode) (p ++ [firstByte e]), nextCode := d.nextCode + 1 }
    else d
  { grown with
    out := sinkAppendAll d.out e
    width := nextWidth d.width (grown.nextCode + 1) Config.maxWidth
    prev := some e }

/-- What `DEC.STEP` does with the code it has read: R142 for the first code of a stream, R143 for a later one. -/
def decReceive (c : Code) (s : State) : State :=
  match s.dec.prev with
  | none =>
    if Config.firstCode ≤ c.toNat then raiseDecodeError c s
    else
      (s.setDec { s.dec with out := sinkAppendAll s.dec.out (s.dec.dict.seqOf c), prev := some (s.dec.dict.seqOf c) }).setResult
        .continue
  | some p =>
    match decResolve s.dec p c with
    | none => raiseDecodeError c s
    | some e => (s.setDec (decLearn s.dec p e)).setResult .continue

/-- `DEC.STEP` in phase `RUN` (R142, R143). -/
def decStepRun (s : State) : State :=
  let t := s.setUp (upRead s.up s.dec.width.toNat).2
  match (upRead s.up s.dec.width.toNat).1 with
  | none => (t.setDec { t.dec with phase := .done, status := .done }).setResult .done
  | some c => decReceive c t

/-- The loop of `DECOMPRESS` (R148), at most `n` steps (log 17). -/
def decompressLoop : Nat → State → Host.Outcome State Fault Refusal
  | 0, _ => .fault .loopBound
  | n + 1, s =>
    let t := decStepRun s
    if t.result = .continue then decompressLoop n t else .next t

/-- `DEC.START` (R141), accepted in every phase. -/
def execDecStart (s : State) : Host.Outcome State Fault Refusal := .next (startDec s)

/-- An operation that only phase `RUN` of the decoder accepts (10_state.md R22, 30_encoding.md R88 (d)). -/
def requireDecRun (s t : State) : Host.Outcome State Fault Refusal :=
  if s.dec.phase = .run then .next t else .refused .decPhaseNotRun

/-- `DEC.STEP` (R142, R143). -/
def execDecStep (s : State) : Host.Outcome State Fault Refusal := requireDecRun s (decStepRun s)

/-- `DECOMPRESS` (R148): `DEC.START`, then `DEC.STEP` until its result is not `CONTINUE`. Each step that continues takes
bits of the source, so one more step than there are bits is enough. -/
def execDecompress (s : State) : Host.Outcome State Fault Refusal :=
  let t := startDec s
  decompressLoop (upBitsAvailable t.up + 1) t

end Sys2Proof.Machine
end

