-- ==== Sys2Proof/Machine/CodeWord.lean ====
section
/-! DEFINITION. The code words of the compressed stream (30_encoding.md R71, R73): the decoder receives one of the
format it is reading (R72) and does what R142 or R143 says of its code (log 5). -/

namespace Sys2Proof.Machine

/-- The decoder receives the code word of width `w` that carries code `c`. -/
def receiveCodeWord (w : CodeWidth) (c : Code) (s : State) : Host.Outcome State Fault Refusal :=
  if s.dec.width = w then requireDecRun s (decReceive c s) else .refused .codeWordWidth

/-- `W9.LIT`. -/
def execW9Lit (b : BitVec 8) (s : State) : Host.Outcome State Fault Refusal := receiveCodeWord .w9 (literalCode b) s

/-- `W9.DICT`. -/
def execW9Dict (c : BitVec 9) (s : State) : Host.Outcome State Fault Refusal := receiveCodeWord .w9 (c.setWidth 12) s

/-- `W10.LIT`. -/
def execW10Lit (b : BitVec 8) (s : State) : Host.Outcome State Fault Refusal := receiveCodeWord .w10 (literalCode b) s

/-- `W10.DICT`. -/
def execW10Dict (c : BitVec 10) (s : State) : Host.Outcome State Fault Refusal := receiveCodeWord .w10 (c.setWidth 12) s

/-- `W11.LIT`. -/
def execW11Lit (b : BitVec 8) (s : State) : Host.Outcome State Fault Refusal := receiveCodeWord .w11 (literalCode b) s

/-- `W11.DICT`. -/
def execW11Dict (c : BitVec 11) (s : State) : Host.Outcome State Fault Refusal := receiveCodeWord .w11 (c.setWidth 12) s

/-- `W12.LIT`. -/
def execW12Lit (b : BitVec 8) (s : State) : Host.Outcome State Fault Refusal := receiveCodeWord .w12 (literalCode b) s

/-- `W12.DICT`. -/
def execW12Dict (c : BitVec 12) (s : State) : Host.Outcome State Fault Refusal := receiveCodeWord .w12 c s

end Sys2Proof.Machine
end

