-- ==== Sys2Proof/Machine/Encoder.lean ====
section
/-! DEFINITION. The encoder's operations (42_lzw_encoder.md). -/

namespace Sys2Proof.Machine

/-- What the encoder writes now: the code of the current match, at the current width (R123 (i), R125). -/
def encEmitted (e : Enc) : Code × CodeWidth := (e.dict.codeOf e.curMatch, e.width)

/-- R123 (ii), (iii): insert the candidate and promote the width on the incremented `next_code`, below capacity. -/
def encLearn (e : Enc) (cand : ByteSeq) : Enc :=
  if e.nextCode < Config.capacity then
    { e with
      dict := e.dict.insert (codeOfCount e.nextCode) cand
      nextCode := e.nextCode + 1
      width := nextWidth e.width (e.nextCode + 1) Config.maxWidth }
  else e

/-- `ENC.BYTE b` on the encoder's registers (R122, R123): the encoder after it, and what it writes to the packer, taken
before any promotion. -/
def encAccept (e : Enc) (b : Byte) : Enc × Option (Code × CodeWidth) :=
  if e.curMatch = [] then ({ e with curMatch := [b] }, none)
  else
    let cand := e.curMatch ++ [b]
    if e.dict.isKey cand then ({ e with curMatch := cand }, none)
    else ({ encLearn e cand with curMatch := [b] }, some (encEmitted e))

/-- `PK.WRITE` of what the encoder writes, if anything. -/
def pkPutEmitted (p : Pk) : Option (Code × CodeWidth) → Pk
  | none => p
  | some (c, w) => pkPutCode p c w.toNat

/-- `ENC.BYTE b` in phase `RUN` (R122, R123). -/
def encByteRun (b : Byte) (s : State) : State :=
  (s.setEnc (encAccept s.enc b).1).setPk (pkPutEmitted s.pk (encAccept s.enc b).2)

/-- `ENC.END` in phase `RUN` (R125). -/
def encEndRun (s : State) : State :=
  let p := if s.enc.curMatch = [] then s.pk else pkPutEmitted s.pk (some (encEmitted s.enc))
  (s.setPk (pkFlushed p)).setEnc { s.enc with phase := .done }

/-- The loop of `COMPRESS` (R127): `SrcNext(ENC.src)` and `ENC.BYTE` until exhausted, at most `n` times. -/
def compressLoop : Nat → State → State
  | 0, s => s
  | n + 1, s =>
    match srcNext s.enc.src with
    | (none, _) => s
    | (some b, src) => compressLoop n (encByteRun b (s.setEnc { s.enc with src := src }))

/-- An operation that phase `DONE` of the encoder refuses (10_state.md R22, 30_encoding.md R88 (d)). -/
def requireEncRun (s t : State) : Host.Outcome State Fault Refusal :=
  match s.enc.phase with
  | .run => .next (t.setResult .none)
  | .done => .refused .encPhaseDone

/-- `ENC.START` (R121), accepted in every phase. -/
def execEncStart (s : State) : Host.Outcome State Fault Refusal := .next (startEnc s)

/-- `ENC.BYTE b` (R122, R123). -/
def execEncByte (b : BitVec 8) (s : State) : Host.Outcome State Fault Refusal := requireEncRun s (encByteRun b s)

/-- `ENC.END` (R125). -/
def execEncEnd (s : State) : Host.Outcome State Fault Refusal := requireEncRun s (encEndRun s)

/-- `ENC.ABORT` (R126): the pending match is not written. -/
def execEncAbort (s : State) : Host.Outcome State Fault Refusal :=
  requireEncRun s ((s.setPk (pkFlushed s.pk)).setEnc { s.enc with phase := .done })

/-- `COMPRESS` (R127): `ENC.START`, `ENC.BYTE` for each byte of `ENC.src` from its position on, `ENC.END`. -/
def execCompress (s : State) : Host.Outcome State Fault Refusal :=
  let t := startEnc s
  .next ((encEndRun (compressLoop (t.enc.src.data.length - t.enc.src.pos) t)).setResult .none)

end Sys2Proof.Machine
end

