-- ==== Sys2Proof/Machine/Packer.lean ====
section
/-! DEFINITION. The bit packer's operations issued by a host (40_bit_packer.md). The coder's own use of the packer goes
to the shared operations directly. -/

namespace Sys2Proof.Machine

/-- A host's `PK.*` is refused while the encoder has a stream in progress (30_encoding.md R88 (e)). -/
def hostPk (s : State) (p : Pk) : Host.Outcome State Fault Refusal :=
  if s.encInProgress then .refused .encStreamInProgress else .next ((s.setPk p).setResult .none)

/-- `PK.START` (R100). -/
def execPkStart (s : State) : Host.Outcome State Fault Refusal := hostPk s (freshPk s.pk)

/-- `PK.WRITE code, width` (R101; `require 1 <= width <= 12`, R88 (c)). -/
def execPkWrite (code : BitVec 12) (width : BitVec 4) (s : State) : Host.Outcome State Fault Refusal :=
  if legalWidth width then hostPk s (pkPutCode s.pk code width.toNat) else .refused .widthOutOfRange

/-- `PK.FLUSH` (R102). -/
def execPkFlush (s : State) : Host.Outcome State Fault Refusal := hostPk s (pkFlushed s.pk)

end Sys2Proof.Machine
end

