-- ==== Sys2Proof/Machine/Reserved.lean ====
section
/-! DEFINITION. The reserved operation numbers `0xD`, `0xE`, `0xF`: refused (30_encoding.md R88 (a); log 3). -/

namespace Sys2Proof.Machine

/-- Operation number `0xD`. -/
def execReservedD (_payload : BitVec 16) (_s : State) : Host.Outcome State Fault Refusal := .refused .reservedOperation

/-- Operation number `0xE`. -/
def execReservedE (_payload : BitVec 16) (_s : State) : Host.Outcome State Fault Refusal := .refused .reservedOperation

/-- Operation number `0xF`. -/
def execReservedF (_payload : BitVec 16) (_s : State) : Host.Outcome State Fault Refusal := .refused .reservedOperation

end Sys2Proof.Machine
end

