-- ==== Sys2Proof/Machine/Unpacker.lean ====
section
/-! DEFINITION. The bit unpacker's operations issued by a host (41_bit_unpacker.md). -/

namespace Sys2Proof.Machine

/-- The result of `UP.READ` (30_encoding.md R80): `code(c)` or `EOS`. -/
def readResult : Option Code → OpResult
  | some c => .code c
  | none => .eos

/-- A host's `UP.*` is refused while the decoder has a stream in progress (30_encoding.md R88 (e)). -/
def hostUp (s : State) (u : Up) (r : OpResult) : Host.Outcome State Fault Refusal :=
  if s.decInProgress then .refused .decStreamInProgress else .next ((s.setUp u).setResult r)

/-- `UP.START` (R110). -/
def execUpStart (s : State) : Host.Outcome State Fault Refusal := hostUp s (restartedUp s.up) .none

/-- `UP.READ width` (R111; `require 1 <= width <= 12`, R88 (c)). -/
def execUpRead (width : BitVec 4) (s : State) : Host.Outcome State Fault Refusal :=
  if legalWidth width then
    hostUp s (upRead s.up width.toNat).2 (readResult (upRead s.up width.toNat).1)
  else .refused .widthOutOfRange

end Sys2Proof.Machine
end

