-- ==== Sys2Proof/Machine/Dispatch.lean ====
section
/-! DEFINITION. The meaning of each instruction, one arm per constructor. -/

namespace Sys2Proof.Machine

def exec (i : Instr) (s : State) : Host.Outcome State Fault Refusal :=
  match i with
  | .pkStart => Sys2Proof.Machine.execPkStart s
  | .pkWrite code width => Sys2Proof.Machine.execPkWrite code width s
  | .pkFlush => Sys2Proof.Machine.execPkFlush s
  | .upStart => Sys2Proof.Machine.execUpStart s
  | .upRead width => Sys2Proof.Machine.execUpRead width s
  | .encStart => Sys2Proof.Machine.execEncStart s
  | .encByte b => Sys2Proof.Machine.execEncByte b s
  | .encEnd => Sys2Proof.Machine.execEncEnd s
  | .encAbort => Sys2Proof.Machine.execEncAbort s
  | .decStart => Sys2Proof.Machine.execDecStart s
  | .decStep => Sys2Proof.Machine.execDecStep s
  | .compress => Sys2Proof.Machine.execCompress s
  | .decompress => Sys2Proof.Machine.execDecompress s
  | .reservedD payload => Sys2Proof.Machine.execReservedD payload s
  | .reservedE payload => Sys2Proof.Machine.execReservedE payload s
  | .reservedF payload => Sys2Proof.Machine.execReservedF payload s
  | .w9Lit b => Sys2Proof.Machine.execW9Lit b s
  | .w9Dict c => Sys2Proof.Machine.execW9Dict c s
  | .w10Lit b => Sys2Proof.Machine.execW10Lit b s
  | .w10Dict c => Sys2Proof.Machine.execW10Dict c s
  | .w11Lit b => Sys2Proof.Machine.execW11Lit b s
  | .w11Dict c => Sys2Proof.Machine.execW11Dict c s
  | .w12Lit b => Sys2Proof.Machine.execW12Lit b s
  | .w12Dict c => Sys2Proof.Machine.execW12Dict c s

end Sys2Proof.Machine
end

