-- ==== Sys2Proof/Machine/Ports.lean ====
section
/-! DEFINITION. The optional port binding (20_memory.md R66, R67): "it adds no behaviour, only a way to carry the same
byte sequences". An event is a pulse or a transfer; no event depends on time (logs 11, 12). -/

namespace Sys2Proof.Machine

/-- A pulse performs an operation, and is ignored when the operation is refused (R67 (d)). -/
def portPulse (i : Instr) (s : State) : Host.Outcome State Fault Refusal :=
  match exec i s with
  | .next t => .next t
  | .fault r => .fault r
  | .refused _ => .next s

/-- One byte of a sink is transferred through its output port, if there is one (R66): the oldest that waits, those of
earlier streams first. -/
def sinkTake (k : Sink) : Sink :=
  match k.backlog with
  | _ :: rest => { k with backlog := rest }
  | [] => if k.taken < k.data.length then { k with taken := k.taken + 1 } else k

/-- The unpacker with `d_in` as its source. The first byte or end indication on `d_in` replaces a source that the host
attached before (log 11). -/
def portFed (u : Up) : Up := if u.fed then u else { u with src := attachedSource [], fed := true }

/-- A self-issued `DEC.STEP` can finish without waiting for its source: the bits are there, or end-of-stream has already
been signalled. -/
def decStepReady (s : State) : Bool :=
  s.dec.phase == .run && (s.up.eos || decide (s.dec.width.toNat ≤ upBitsAvailable s.up))

/-- "The decompressor issues `DEC.STEP` to itself repeatedly while `DEC.phase == RUN`" (R66), here as long as the step
need not wait for its source (log 12); at most `n` times. -/
def selfSteps : Nat → State → State
  | 0, s => s
  | n + 1, s => if decStepReady s then selfSteps n (decStepRun s) else s

/-- The self-issued steps that can finish now. -/
def selfStepped (s : State) : State := selfSteps (upBitsAvailable s.up + 1) s

/-- `d_start`: `DEC.START` on a new source stream, whose bytes are the ones transferred from now on (R67 (a)). -/
def portDStart (s : State) : Host.Outcome State Fault Refusal :=
  portPulse .decStart (s.setUp { s.up with src := attachedSource [], fed := true })

/-- A compressed byte arrives: it is appended to the content of `UP.src`. -/
def State.arrive (s : State) (b : Byte) : State :=
  s.setUp { s.up with src := { s.up.src with data := s.up.src.data ++ [b] } }

/-- A compressed byte is offered on `d_in`. It is transferred if the decompressor is in `RUN` and waits for one: it is
then the answer to one `SrcNext(UP.src)` (R66). DESIGN CHOICE (log 20): the spec does not say how command words mix with a
port-fed stream. A host's `UP.READ`, `DEC.STEP` or `DECOMPRESS` that asks for more bytes than have been transferred,
before `d_in_end`, does not wait here: its `SrcNext` is answered `EXHAUSTED`, and an `UP.eos` that it sets ends the
stream at the next event of `d_in`. -/
def portDIn (b : Byte) (s : State) : Host.Outcome State Fault Refusal :=
  if s.dec.phase = .run then
    let t := selfStepped (s.setUp (portFed s.up))
    if t.dec.phase = .run then .next (selfStepped (t.arrive b)) else .next t
  else .next s

/-- `d_in_end`: "a pending `SrcNext(UP.src)` is answered `EXHAUSTED`" (R66), so the self-issued steps run to the end. -/
def portDInEnd (s : State) : Host.Outcome State Fault Refusal :=
  if s.dec.phase = .run then decompressLoop (upBitsAvailable (portFed s.up) + 1) (s.setUp (portFed s.up)) else .next s

/-- A port event. DESIGN CHOICE (log 21): the spec does not say what `ENC.src` holds while `c_in` drives the compressor. A
byte on `c_in` goes to `ENC.BYTE` directly and leaves `ENC.src` alone, so a `COMPRESS` issued as a command word reads the
source the host attached and never the bytes of `c_in`. -/
def portEvent (e : PortEvent) (s : State) : Host.Outcome State Fault Refusal :=
  match e with
  | .cStart => portPulse .encStart s
  | .cIn b => portPulse (.encByte b) s
  | .cInEnd => portPulse .encEnd s
  | .cAbort => portPulse .encAbort s
  | .cOut => .next (s.setPk { s.pk with out := sinkTake s.pk.out })
  | .dStart => portDStart s
  | .dIn b => portDIn b s
  | .dInEnd => portDInEnd s
  | .dOut => .next (s.setDec { s.dec with out := sinkTake s.dec.out })

/-! The output ports (R66), as functions of the state. -/

/-- `c_out_valid` and `c_out_data`: the next compressed byte not yet transferred, if there is one. -/
def cOutData (s : State) : Option Byte := (sinkOwed s.pk.out).head?

/-- `c_done`. -/
def cDone (s : State) : Bool := s.enc.phase == .done && decide (s.pk.out.data.length ≤ s.pk.out.taken)

/-- `d_out_valid` and `d_out_data`: the next raw byte not yet transferred, if there is one. -/
def dOutData (s : State) : Option Byte := (sinkOwed s.dec.out).head?

/-- `d_done`. -/
def dDone (s : State) : Bool := s.dec.phase == .done && decide (s.dec.out.data.length ≤ s.dec.out.taken)

/-- `d_error`. -/
def dError (s : State) : Bool := s.dec.phase == .error && decide (s.dec.out.data.length ≤ s.dec.out.taken)

/-- `d_status`. -/
def dStatus (s : State) : BitVec 2 := statusBits s.dec.status

/-- `d_badcode`. -/
def dBadcode (s : State) : BitVec 12 := s.dec.badcode

end Sys2Proof.Machine
end

