-- ==== Sys2Proof/Machine/Events.lean ====
section
/-! DEFINITION. What one act of the host does (00_scope.md R17; log 1), and how a table word is placed so that the next
step runs it (log 7). The block fetches no instructions (10_state.md R22): a command word comes from the host, a code
word from the compressed source. -/

namespace Sys2Proof.Machine

/-- A command word is decoded and its operation performed; one with a non-zero unused field is refused (R88 (b)). -/
def runCommand (w : CommandWord) (s : State) : Host.Outcome State Fault Refusal :=
  match decodeCommand w with
  | .ok i => exec i s
  | .error (.unusedFieldNotZero _) => .refused .unusedFieldNotZero

/-- One act of the host. -/
def runEvent (e : HostEvent) (s : State) : Host.Outcome State Fault Refusal :=
  match e with
  | .command w => runCommand w s
  | .reset => .next (resetBlock s)
  | .attachRaw data => .next (s.setEnc { s.enc with src := attachedSource data })
  | .attachCompressed data => .next (s.setUp { s.up with src := attachedSource data, fed := false })
  | .port p => portEvent p s

/-- The host issues a command word next. -/
def placeCommand (s : State) (w : CommandWord) : State := s.setEvents (.command w :: s.events)

/-- A code word stands next in the compressed source, at the width the decoder reads, and `DEC.STEP` is issued next. -/
def placeCodeWord (s : State) (width : CodeWidth) (c : Code) : State :=
  let bytes := (pkFlushed (pkPutCode (freshPk s.pk) c width.toNat)).out.data
  placeCommand
    ((s.setUp { buf := 0#8, left := 0, eos := false, src := attachedSource bytes, fed := false }).setDec
      { s.dec with width := width })
    (commandWord 0xA 0 0)

/-- A table word placed where the next step takes it from. -/
def placeWord (s : State) : Encoded → State
  | .command w => placeCommand s w
  | .code9 w => placeCodeWord s .w9 (w.setWidth 12)
  | .code10 w => placeCodeWord s .w10 (w.setWidth 12)
  | .code11 w => placeCodeWord s .w11 (w.setWidth 12)
  | .code12 w => placeCodeWord s .w12 w

end Sys2Proof.Machine
end

