-- ==== Sys2Proof/Machine/Step.lean ====
section
/-! DEFINITION. One step: the host's oldest pending act. With none pending the block keeps its state: "a unit that is
given no operation keeps its state unchanged indefinitely" (60_exceptions.md R185; log 4). -/

namespace Sys2Proof.Machine

/-- One step of the machine. -/
def step (s : State) : Host.Outcome State Fault Refusal :=
  match s.events with
  | [] => .next s
  | e :: es => runEvent e (s.setEvents es)

/-- The state with the table word `w` of `nbits` bits placed so that the next step runs it (log 7). -/
def State.withFetchWord (s : State) (nbits w : Nat) : State :=
  match tableWord nbits w with
  | none => s
  | some e => placeWord s e

end Sys2Proof.Machine
end

