-- ==== Sys2Proof/Machine/Compact.lean ====
section
/-! DEFINITION. The compact form of the two coders (10_state.md R35, R40, R41; 42_lzw_encoder.md R124): a learned entry
is a pair (prefix code, byte), and the match and the previous string are codes. The spec lets a model use either form;
the machine uses the byte-sequence form, and this file says what the compact form is so that the two can be compared. -/

namespace Sys2Proof.Machine

/-- The links of the learned entries: `(pfx[256 + i], sfx[256 + i])` at place `i` (R35, R40). -/
abbrev Links := List (Code × Byte)

/-- The byte sequence of a code, by "following `pfx` links down to a literal and reversing" (R40); a walk "ends at a
literal in at most `c - 255` steps" (R41), the first argument bounds it. A link that is not there gives a free value
(log 8). -/
def walkLinks (l : Links) : Nat → Code → ByteSeq
  | 0, c => [c.setWidth 8]
  | n + 1, c =>
    if c.toNat < Config.nLiterals then [c.setWidth 8]
    else
      match l[c.toNat - Config.firstCode]? with
      | some (p, b) => walkLinks l n p ++ [b]
      | none => Config.absentEntry c

/-- The sequence a code names in the compact form. -/
def Links.seqOf (l : Links) (c : Code) : ByteSeq := walkLinks l (c.toNat - 255) c

/-- The dictionary that links stand for. -/
def Links.toDict (l : Links) : Dict :=
  (List.range l.length).map fun i => (codeOfCount (Config.firstCode + i), l.seqOf (codeOfCount (Config.firstCode + i)))

/-- The encoder in compact form (R35): `cur` is `ENC.cur`, `none` while the match is empty. -/
structure CompactEnc where
  links : Links
  nextCode : Nat
  width : CodeWidth
  cur : Option Code
deriving DecidableEq, Repr

/-- `ENC.BYTE b` in compact form (R122 last sentence, R124). -/
def compactAccept (e : CompactEnc) (b : Byte) : CompactEnc × Option (Code × CodeWidth) :=
  match e.cur with
  | none => ({ e with cur := some (literalCode b) }, none)
  | some cur =>
    match e.links.findIdx? (fun l => l.1 == cur && l.2 == b) with
    | some i => ({ e with cur := some (codeOfCount (Config.firstCode + i)) }, none)
    | none =>
      let grown :=
        if e.nextCode < Config.capacity then
          { e with
            links := e.links ++ [(cur, b)]
            nextCode := e.nextCode + 1
            width := nextWidth e.width (e.nextCode + 1) Config.maxWidth }
        else e
      ({ grown with cur := some (literalCode b) }, some (cur, e.width))

/-- The encoder that a compact encoder stands for. -/
def CompactEnc.toEnc (e : CompactEnc) (phase : EncPhase) (src : Source) : Enc :=
  { dict := e.links.toDict
    nextCode := e.nextCode
    width := e.width
    curMatch := match e.cur with | none => [] | some c => e.links.seqOf c
    phase := phase
    src := src }

/-- The decoder in compact form (R40): `prevcode` is `DEC.prevcode`, `none` while `DEC.prev` is `UNDEF`. -/
structure CompactDec where
  links : Links
  nextCode : Nat
  width : CodeWidth
  prevcode : Option Code
deriving DecidableEq, Repr

/-- What `DEC.STEP` does with a code in compact form (R142, R143, R145 last sentence): the decoder after it and the bytes
emitted, or `none` for the decode error. -/
def compactReceive (d : CompactDec) (c : Code) : Option (CompactDec × ByteSeq) :=
  match d.prevcode with
  | none => if Config.firstCode ≤ c.toNat then none else some ({ d with prevcode := some c }, d.links.seqOf c)
  | some pc =>
    let p := d.links.seqOf pc
    if d.nextCode < c.toNat then none
    else
      let e := if c.toNat = d.nextCode then p ++ [firstByte p] else d.links.seqOf c
      let grown :=
        if d.nextCode < Config.capacity then
          { d with links := d.links ++ [(pc, firstByte e)], nextCode := d.nextCode + 1 }
        else d
      some ({ grown with width := nextWidth d.width (grown.nextCode + 1) Config.maxWidth, prevcode := some c }, e)

/-- The decoder registers that a compact decoder stands for, the other registers taken from `d`. -/
def CompactDec.toDec (k : CompactDec) (d : Dec) : Dec :=
  { d with
    dict := k.links.toDict
    nextCode := k.nextCode
    width := k.width
    prev := k.prevcode.map k.links.seqOf }

/-- Links of a good coder: as many as `next_code` says, each pointing to an earlier code (R41). -/
structure LinksInv (l : Links) (next : Nat) : Prop where
  next_eq : next = Config.firstCode + l.length
  next_le : next ≤ Config.capacity
  earlier : ∀ (i : Nat) (x : Code × Byte), l[i]? = some x → x.1.toNat < Config.firstCode + i

/-- A good compact encoder: "which has at most one answer because keys are unique" (R35). -/
structure CompactEncInv (e : CompactEnc) : Prop where
  links : LinksInv e.links e.nextCode
  nodup : e.links.Nodup
  width_eq : e.width = widthFor e.nextCode
  cur_lt : ∀ c, e.cur = some c → c.toNat < e.nextCode

/-- A good compact decoder: "`DEC.prevcode` is again a present code" (R40). -/
structure CompactDecInv (d : CompactDec) : Prop where
  links : LinksInv d.links d.nextCode
  prev_lt : ∀ c, d.prevcode = some c → c.toNat < d.nextCode

end Sys2Proof.Machine
end

