-- ==== Sys2Proof/Safety.lean ====
section
/-! DEFINITION. What a good state is: the facts 10_state.md and the unit files state of every operation boundary. -/

namespace Sys2Proof.Machine

/-- The packer (10_state.md R24, R25): `0 <= PK.cnt <= 7`, and the bits of `PK.acc` above the pending ones are 0. -/
structure PkInv (p : Pk) : Prop where
  cnt_le : p.cnt ≤ 7
  acc_lt : p.acc.toNat < 2 ^ p.cnt
  taken_le : p.out.taken ≤ p.out.data.length

/-- The unpacker (10_state.md R27 to R29): `0 <= UP.left <= 7`, the low `8 - UP.left` bits of `UP.buf` are 0, nothing is
left after end-of-stream, and the position lies in the source. -/
structure UpInv (u : Up) : Prop where
  left_le : u.left ≤ 7
  buf_low : 2 ^ (8 - u.left) ∣ u.buf.toNat
  eos_left : u.eos = true → u.left = 0
  pos_le : u.src.pos ≤ u.src.data.length

/-- Each learned entry is an earlier entry with one byte appended (10_state.md R35, R40, R41). -/
def Dict.Extends (d : Dict) : Prop :=
  ∀ i : Nat, ∀ e : Code × ByteSeq, d[i]? = some e →
    ∃ (c : Code) (k : ByteSeq) (b : Byte), Dict.seqOf? (d.take i) c = some k ∧ e.2 = k ++ [b]

/-- The encoder (10_state.md R30 to R34, 42_lzw_encoder.md R130): the dictionary is in canonical form with
`ENC.next_code` entries, its keys are distinct and prefix-closed, the width belongs to `ENC.next_code`, and the match is
empty or a key. -/
structure EncInv (e : Enc) : Prop where
  dict_wf : e.dict.wf = true
  next_eq : e.nextCode = Config.firstCode + e.dict.length
  keys_nodup : (e.dict.map (·.2)).Nodup
  ext : e.dict.Extends
  width_eq : e.width = widthFor e.nextCode
  match_key : e.curMatch = [] ∨ e.dict.isKey e.curMatch = true
  pos_le : e.src.pos ≤ e.src.data.length

/-- The decoder (10_state.md R30, R31, R37 to R42, 43_lzw_decoder.md R152): the dictionary is in canonical form with
`DEC.next_code` entries, nothing is learned before the first code, the width belongs to `DEC.next_code + 1` from the
first code on, the previous string is an entry, and status and bad code agree with the phase. -/
structure DecInv (d : Dec) : Prop where
  dict_wf : d.dict.wf = true
  next_eq : d.nextCode = Config.firstCode + d.dict.length
  ext : d.dict.Extends
  undef_fresh : d.prev = none → d.dict = [] ∧ d.width = .w9
  width_eq : d.prev ≠ none → d.width = widthFor (d.nextCode + 1)
  prev_entry : ∀ p, d.prev = some p → ∃ c, d.dict.seqOf? c = some p
  status_eq : d.status = statusOfPhase d.phase
  badcode_zero : d.phase ≠ .error → d.badcode = 0#12
  taken_le : d.out.taken ≤ d.out.data.length

/-- The invariant of the block. -/
structure State.Inv (s : State) : Prop where
  pk : PkInv s.pk
  up : UpInv s.up
  enc : EncInv s.enc
  dec : DecInv s.dec

/-- A safe run of the decoder has raised no `DecodeError` (60_exceptions.md R172). -/
def State.noDecodeError (s : State) : Prop := s.dec.phase ≠ .error

/-! The views in which claims are stated: the bit string a packer has accepted and the one an unpacker can deliver. -/

/-- The pending bits of the packer, oldest first (10_state.md R24). -/
def pkPending (p : Pk) : List Bool := codeBits (p.acc.setWidth 12) p.cnt

/-- Every bit the packer has accepted into its present sink, in the order of the stream (20_memory.md R57). -/
def pkBits (p : Pk) : List Bool := streamBits p.out.data ++ pkPending p

/-- The unconsumed bits of the unpacker's buffer: its top `UP.left` bits (10_state.md R27, R28). -/
def upPending (u : Up) : List Bool := (byteBits u.buf).take u.left

/-- The bytes of a source not yet read (20_memory.md R50). -/
def sourceRest (src : Source) : ByteSeq := src.data.drop src.pos

/-- Every bit the unpacker can still deliver, in the order of the stream. -/
def upBits (u : Up) : List Bool := upPending u ++ streamBits (sourceRest u.src)

/-- The bits of a list of code words, each written with its own width (20_memory.md R57). -/
def codeWordsBits (cs : List (Code × CodeWidth)) : List Bool := cs.flatMap (fun cw => codeBits cw.1 cw.2.toNat)

/-- The encoder after some `ENC.BYTE`s, and the code words it wrote on the way (42_lzw_encoder.md R122, R123). -/
def encAcceptAll : Enc → ByteSeq → Enc × List (Code × CodeWidth)
  | e, [] => (e, [])
  | e, b :: bs =>
    ((encAcceptAll (encAccept e b).1 bs).1, (encAccept e b).2.toList ++ (encAcceptAll (encAccept e b).1 bs).2)

/-- The code words of a whole stream from an encoder on: those written by the
bytes, and the one `ENC.END` writes (42_lzw_encoder.md R125). -/
def encStreamCodes (e : Enc) (bs : ByteSeq) : List (Code × CodeWidth) :=
  (encAcceptAll e bs).2 ++
    (if (encAcceptAll e bs).1.curMatch = [] then [] else [encEmitted (encAcceptAll e bs).1])

/-! Runs: a host that issues operations one after the other, and a host that reads codes one after the other. -/

/-- The operations issued in order; the run stops at the first fault or refusal. -/
def execAll : List Instr → State → Host.Outcome State Fault Refusal
  | [], s => .next s
  | i :: is, s =>
    match exec i s with
    | .next t => execAll is t
    | .fault r => .fault r
    | .refused r => .refused r

/-- The acts of the host in order. -/
def runEvents : List HostEvent → State → Host.Outcome State Fault Refusal
  | [], s => .next s
  | e :: es, s =>
    match runEvent e s with
    | .next t => runEvents es t
    | .fault r => .fault r
    | .refused r => .refused r

/-- The instructions of the compressor (00_scope.md R2): those of `ENC` and `PK`. -/
def ofCompressor : Instr → Bool
  | .pkStart | .pkWrite _ _ | .pkFlush | .encStart | .encByte _ | .encEnd | .encAbort | .compress => true
  | .upStart | .upRead _ | .decStart | .decStep | .decompress | .reservedD _ | .reservedE _ | .reservedF _
  | .w9Lit _ | .w9Dict _ | .w10Lit _ | .w10Dict _ | .w11Lit _ | .w11Dict _ | .w12Lit _ | .w12Dict _ => false

/-- The instructions of the decompressor (00_scope.md R2): those of `DEC` and `UP`, and the code words `DEC` receives. -/
def ofDecompressor : Instr → Bool
  | .upStart | .upRead _ | .decStart | .decStep | .decompress
  | .w9Lit _ | .w9Dict _ | .w10Lit _ | .w10Dict _ | .w11Lit _ | .w11Dict _ | .w12Lit _ | .w12Dict _ => true
  | .pkStart | .pkWrite _ _ | .pkFlush | .encStart | .encByte _ | .encEnd | .encAbort | .compress
  | .reservedD _ | .reservedE _ | .reservedF _ => false

end Sys2Proof.Machine
end

