-- ==== Sys2Proof/Certificates/Slice0/Obligations.lean ====
section
/-! DEFINITION. The statements for the provers. Where a statement gives the next state as an equation, the equation is
its frame too: every field it does not change is that of the state before. -/

open Sys2Proof Sys2Proof.Machine

/-! ## Encoding -/

/-- Words written out from the spec's encodings: a command word of each of the thirteen operations and of a reserved
number (30_encoding.md R80, R81, programs P1 to P5 of 95_test_vectors.md), a literal and a learned code word of each of
the four formats (R71). -/
def Obligations.SpecWordsDecodeAsListed : Prop :=
  decode (.command 0x50000) = .ok .encStart ∧ decode (.command 0x60041) = .ok (.encByte 0x41) ∧
  decode (.command 0x70000) = .ok .encEnd ∧ decode (.command 0x90000) = .ok .decStart ∧
  decode (.command 0xA0000) = .ok .decStep ∧ decode (.command 0x00000) = .ok .pkStart ∧
  decode (.command 0x19005) = .ok (.pkWrite 5 9) ∧ decode (.command 0x1912C) = .ok (.pkWrite 300 9) ∧
  decode (.command 0x20000) = .ok .pkFlush ∧ decode (.command 0x30000) = .ok .upStart ∧
  decode (.command 0x49000) = .ok (.upRead 9) ∧ decode (.command 0x80000) = .ok .encAbort ∧
  decode (.command 0xB0000) = .ok .compress ∧ decode (.command 0xC0000) = .ok .decompress ∧
  decode (.command 0xD1234) = .ok (.reservedD 0x1234) ∧
  decode (.code9 0b001000001) = .ok (.w9Lit 0x41) ∧ decode (.code9 0b100000000) = .ok (.w9Dict 256) ∧
  decode (.code10 0b0001000001) = .ok (.w10Lit 0x41) ∧ decode (.code10 0b0100000000) = .ok (.w10Dict 256) ∧
  decode (.code11 0b00011111110) = .ok (.w11Lit 0xFE) ∧ decode (.code11 0b10000000001) = .ok (.w11Dict 1025) ∧
  decode (.code12 0b000011111111) = .ok (.w12Lit 0xFF) ∧ decode (.code12 0b100000000000) = .ok (.w12Dict 2048)

/-- Decoding the encoding of a well-formed instruction gives it back, with every operand (R71, R81). -/
def Obligations.DecodeOfEncodeIsIdentity : Prop :=
  ∀ i : Instr, i.wellFormed = true → decode (encode i) = .ok i

/-- A word that decodes is the encoding of what it decodes to: no two words mean the same. -/
def Obligations.EncodeOfDecodeIsIdentity : Prop :=
  ∀ (e : Encoded) (i : Instr), decode e = .ok i → encode i = e

/-- 30_encoding.md R81, R88 (b): a command word is rejected exactly when a field its operation does not use is non-zero,
and issuing such a word is refused. -/
def Obligations.UnusedFieldsAreRefused : Prop :=
  ∀ (w : CommandWord) (s : State),
    ((∃ r, decodeCommand w = .error r) ↔
      ((w.extractLsb' 16 4).toNat ∈ [0x0, 0x2, 0x3, 0x5, 0x7, 0x8, 0x9, 0xA, 0xB, 0xC] ∧ w.extractLsb' 0 16 ≠ 0#16) ∨
      ((w.extractLsb' 16 4).toNat = 0x4 ∧ w.extractLsb' 0 12 ≠ 0#12) ∨
      ((w.extractLsb' 16 4).toNat = 0x6 ∧ w.extractLsb' 8 8 ≠ 0#8)) ∧
    ((∃ r, decodeCommand w = .error r) → runEvent (.command w) s = .refused .unusedFieldNotZero)

/-- 30_encoding.md R71: the code word of a width for a code of that width is a literal exactly when the code is below
256, and its operand is then the byte; either way its encoding is the code's word. -/
def Obligations.CodeWordsSplitIntoLiteralsAndEntries : Prop :=
  ∀ (w : CodeWidth) (c : Code), c.toNat < 2 ^ w.toNat →
    encode (instrOfCode w c) = encodedOfCode w c ∧ (instrOfCode w c).wellFormed = true ∧
    (instrOfCode w c).isCodeWord = true ∧
    (c.toNat < 256 ↔ instrOfCode w c ∈
      [.w9Lit (c.setWidth 8), .w10Lit (c.setWidth 8), .w11Lit (c.setWidth 8), .w12Lit (c.setWidth 8)])

/-! ## The step -/

/-- A step runs the instruction that the oldest pending command word decodes to (the model's choice: the host's acts are
a list in State, log 1). -/
def Obligations.StepRunsTheIssuedInstruction : Prop :=
  ∀ (s : State) (w : CommandWord) (es : List HostEvent) (i : Instr),
    s.events = .command w :: es → decode (.command w) = .ok i → step s = exec i (s.setEvents es)

/-- With nothing pending the state stays (the model's reading of "A unit that is given no operation keeps its state
unchanged indefinitely", log 4). -/
def Obligations.StepWithNothingPendingKeepsTheState : Prop :=
  ∀ s : State, s.events = [] → step s = .next s

/-- The model's choice (logs 6, 7): a table word placed by withFetchWord is what the next step runs: an operation on the
state itself, a code word on the state in which `DEC.STEP` has just read it (two bytes pulled, the rest of the second
byte left). -/
def Obligations.StepRunsThePlacedWord : Prop :=
  ∀ (s : State) (nbits w : Nat) (i : Instr), decodeTableWord nbits w = some i →
    (i.isCodeWord = false → step (s.withFetchWord nbits w) = exec i s) ∧
    (i.isCodeWord = true → s.dec.phase = .run →
      ∃ (u : Up) (width : CodeWidth), u.left = 16 - width.toNat ∧ u.eos = false ∧ u.src.pos = 2 ∧
        step (s.withFetchWord nbits w) = exec i ((s.setUp u).setDec { s.dec with width := width }))

/-- 43_lzw_decoder.md R142, R143: `DEC.STEP` fetches a code word of `DEC.width` bits with `UP.READ` and runs it (the
model's choice of code words as instructions, log 5); at end-of-stream it ends the stream. Of a source fed through `d_in`
whose end is not indicated, that the read gives `EOS` and does not wait is the model's choice (log 20). -/
def Obligations.DecStepFetchesAndRunsACodeWord : Prop :=
  ∀ s : State, s.dec.phase = .run →
    (∀ (c : Code) (u : Up), upRead s.up s.dec.width.toNat = (some c, u) → UpInv s.up →
      c.toNat < 2 ^ s.dec.width.toNat ∧ exec .decStep s = exec (instrOfCode s.dec.width c) (s.setUp u)) ∧
    (∀ u : Up, upRead s.up s.dec.width.toNat = (none, u) →
      exec .decStep s =
        .next (((s.setUp u).setDec { s.dec with phase := .done, status := .done }).setResult .done))

/-! ## Reset and the invariant -/

/-- 70_reset_and_hazards.md R190: what reset leaves, from every state, and that it is what the two `START` operations
leave. What becomes of the sources is the model's choice: the content of the raw source and its position stay, and so does
the content of a compressed source the host attached (log 9); one fed through `d_in` begins empty (log 11). -/
def Obligations.ResetGivesTheListedValues : Prop :=
  ∀ (s : State) (es : List HostEvent), s.events = .reset :: es →
    ∃ t, step s = .next t ∧ execAll [.encStart, .decStart] (s.setEvents es) = .next t ∧
      t.pk.acc = 0#8 ∧ t.pk.cnt = 0 ∧ t.pk.out.data = [] ∧
      t.up.buf = 0#8 ∧ t.up.left = 0 ∧ t.up.eos = false ∧ t.up.src.pos = 0 ∧
      t.up.src.data = (if s.up.fed then [] else s.up.src.data) ∧ t.up.fed = s.up.fed ∧
      (∀ c : Code, t.enc.dict.seqOf? c = if c.toNat < 256 then some [c.setWidth 8] else none) ∧
      t.enc.nextCode = 256 ∧ t.enc.width = .w9 ∧ t.enc.curMatch = [] ∧ t.enc.phase = .run ∧ t.enc.src = s.enc.src ∧
      (∀ c : Code, t.dec.dict.seqOf? c = if c.toNat < 256 then some [c.setWidth 8] else none) ∧
      t.dec.nextCode = 256 ∧ t.dec.width = .w9 ∧ t.dec.prev = none ∧ t.dec.phase = .run ∧
      statusBits t.dec.status = 0#2 ∧ t.dec.badcode = 0#12 ∧ t.dec.out.data = []

/-- The reset state is good (10_state.md R24 to R42 at reset). -/
def Obligations.InvariantHoldsAtReset : Prop := State.reset.Inv

/-- Every step keeps the invariant: the ranges of the counters, the zero bits of the two buffers, canonical and
prefix-closed dictionaries of `next_code` entries, the widths of the spec's own inferences "Width invariant" in
42_lzw_encoder.md and "Width invariant of the decoder" in 43_lzw_decoder.md, the match a key, the previous string an
entry, status in step with phase. -/
def Obligations.StepKeepsTheInvariant : Prop :=
  ∀ s t : State, s.Inv → step s = .next t → t.Inv

/-! ## The packer -/

/-- 40_bit_packer.md R100, with its encoding. -/
def Obligations.PkStartGivesAnEmptyPacker : Prop :=
  decode (.command 0x00000) = .ok .pkStart ∧ ∀ s : State, s.encInProgress = false →
    ∃ t, exec .pkStart s = .next t ∧ t.pk.acc = 0#8 ∧ t.pk.cnt = 0 ∧ t.pk.out.data = [] ∧
      t = (s.setPk t.pk).setResult .none

/-- 40_bit_packer.md R101: the low `width` bits of the code are accepted, most significant first; the closed form of the
counters; bytes already out stay; nothing but the packer changes. -/
def Obligations.PkWriteAcceptsTheLowBits : Prop :=
  ∀ (s : State) (code : Code) (width : BitVec 4), PkInv s.pk → s.encInProgress = false →
    1 ≤ width.toNat → width.toNat ≤ 12 →
    ∃ t, exec (.pkWrite code width) s = .next t ∧
      pkBits t.pk = pkBits s.pk ++ codeBits code width.toNat ∧
      t.pk.cnt = (s.pk.cnt + width.toNat) % 8 ∧ t.pk.acc.toNat < 2 ^ t.pk.cnt ∧
      t.pk.out.data.length = s.pk.out.data.length + (s.pk.cnt + width.toNat) / 8 ∧
      s.pk.out.data <+: t.pk.out.data ∧ t.pk.out.taken = s.pk.out.taken ∧ t.pk.out.backlog = s.pk.out.backlog ∧
      t = (s.setPk t.pk).setResult .none

/-- 30_encoding.md R87: bits of `code` at or above position `width` are ignored. -/
def Obligations.PkWriteIgnoresHighBits : Prop :=
  ∀ (s : State) (code code' : Code) (width : BitVec 4),
    (∀ i, i < width.toNat → code.getLsbD i = code'.getLsbD i) →
    exec (.pkWrite code width) s = exec (.pkWrite code' width) s

/-- 40_bit_packer.md R102, with its encoding: the flush completes the last byte with zeros in its low bits, only if a
bit is pending. -/
def Obligations.PkFlushPadsTheLastByte : Prop :=
  decode (.command 0x20000) = .ok .pkFlush ∧ ∀ s : State, PkInv s.pk → s.encInProgress = false →
    ∃ t, exec .pkFlush s = .next t ∧
      streamBits t.pk.out.data = pkBits s.pk ++ List.replicate ((8 - s.pk.cnt) % 8) false ∧
      t.pk.cnt = 0 ∧ t.pk.acc = 0#8 ∧ t.pk.out.taken = s.pk.out.taken ∧ t.pk.out.backlog = s.pk.out.backlog ∧
      (s.pk.cnt = 0 → t.pk = s.pk) ∧ t = (s.setPk t.pk).setResult .none

/-- The total output of a packer run, the spec's own inference "Total output of a packer run" in 40_bit_packer.md:
`ceil(T / 8)` bytes, the code words one after the other, then `(8 - T mod 8) mod 8` zero bits. -/
def Obligations.PackerRunGivesTheConcatenatedCodes : Prop :=
  ∀ (s : State) (ws : List (Code × BitVec 4)), s.encInProgress = false →
    (∀ cw ∈ ws, 1 ≤ cw.2.toNat ∧ cw.2.toNat ≤ 12) →
    ∃ t, execAll (.pkStart :: ws.map (fun cw => .pkWrite cw.1 cw.2) ++ [.pkFlush]) s = .next t ∧
      streamBits t.pk.out.data =
        ws.flatMap (fun cw => codeBits cw.1 cw.2.toNat) ++
          List.replicate ((8 - (ws.map (fun cw => cw.2.toNat)).sum % 8) % 8) false ∧
      t.pk.out.data.length = ((ws.map (fun cw => cw.2.toNat)).sum + 7) / 8 ∧
      t = (s.setPk t.pk).setResult .none

/-! ## The unpacker -/

/-- 41_bit_unpacker.md R110, with its encoding. That a source the host attached keeps its content is log 9, that one fed
through `d_in` begins empty is log 11: the model's choices. -/
def Obligations.UpStartBeginsAtTheFirstByte : Prop :=
  decode (.command 0x30000) = .ok .upStart ∧ ∀ s : State, s.decInProgress = false →
    ∃ t, exec .upStart s = .next t ∧ t.up.buf = 0#8 ∧ t.up.left = 0 ∧ t.up.eos = false ∧ t.up.src.pos = 0 ∧
      t.up.src.data = (if s.up.fed then [] else s.up.src.data) ∧ t.up.fed = s.up.fed ∧
      t = (s.setUp t.up).setResult .none

/-- 41_bit_unpacker.md R111: with enough bits, `UP.READ` returns the next `width` of them as a number and consumes
exactly those, pulling no byte of which it uses no bit; with too few, it returns `EOS`, consumes them all and sets
`UP.eos`. Of a source fed through `d_in` whose end is not indicated, that the read with too few bits returns `EOS` and does
not wait is the model's choice (log 20). -/
def Obligations.UpReadReturnsTheNextBits : Prop :=
  ∀ (s : State) (width : BitVec 4), UpInv s.up → s.up.eos = false → s.decInProgress = false →
    1 ≤ width.toNat → width.toNat ≤ 12 →
    ∃ t, exec (.upRead width) s = .next t ∧ t = (s.setUp t.up).setResult t.result ∧
      t.up.src.data = s.up.src.data ∧ t.up.fed = s.up.fed ∧ UpInv t.up ∧
      (width.toNat ≤ (upBits s.up).length →
        (∃ c, t.result = .code c ∧ c.toNat = bitsValue ((upBits s.up).take width.toNat)) ∧
        upBits t.up = (upBits s.up).drop width.toNat ∧ t.up.eos = false ∧
        t.up.src.pos = s.up.src.pos + (width.toNat - s.up.left + 7) / 8) ∧
      ((upBits s.up).length < width.toNat →
        t.result = .eos ∧ t.up.eos = true ∧ t.up.left = 0 ∧ upBits t.up = [] ∧
        t.up.src.pos = s.up.src.data.length)

/-- 10_state.md R29: after end-of-stream every read returns `EOS` at once, without touching the source. -/
def Obligations.UpReadAfterEndOfStreamChangesNothing : Prop :=
  ∀ (s : State) (width : BitVec 4), s.up.eos = true → s.decInProgress = false →
    1 ≤ width.toNat → width.toNat ≤ 12 → exec (.upRead width) s = .next (s.setResult .eos)

/-- The spec's own inference "Round trip of the bit channel" in 41_bit_unpacker.md: what a packer run wrote, the reads
of the same widths return; one more read of `w` bits gives `EOS` when `w` exceeds the number of pad bits, and `code(0)`
otherwise. -/
def Obligations.BitChannelRoundTrip : Prop :=
  ∀ (s t : State) (ws : List (Code × BitVec 4)) (w : BitVec 4), s.encInProgress = false → s.decInProgress = false →
    (∀ cw ∈ ws, 1 ≤ cw.2.toNat ∧ cw.2.toNat ≤ 12 ∧ cw.1.toNat < 2 ^ cw.2.toNat) →
    1 ≤ w.toNat → w.toNat ≤ 12 →
    execAll (.pkStart :: ws.map (fun cw => .pkWrite cw.1 cw.2) ++ [.pkFlush]) s = .next t →
    (∀ (as bs : List (Code × BitVec 4)) (c : Code) (v : BitVec 4), ws = as ++ (c, v) :: bs →
      ∃ r, runEvents [.attachCompressed t.pk.out.data] t = .next r ∧
        ∃ q, execAll (.upStart :: as.map (fun cw => .upRead cw.2) ++ [.upRead v]) r = .next q ∧ q.result = .code c) ∧
    ∃ r, runEvents [.attachCompressed t.pk.out.data] t = .next r ∧
      ∃ q, execAll (.upStart :: ws.map (fun cw => .upRead cw.2) ++ [.upRead w]) r = .next q ∧
        q.result =
          if (8 - (ws.map (fun cw => cw.2.toNat)).sum % 8) % 8 < w.toNat then .eos else .code 0#12

/-! ## Refusals -/

/-- 30_encoding.md R87, R88 (c): a width of 0 or above 12 is refused. -/
def Obligations.IllegalWidthsAreRefused : Prop :=
  ∀ (s : State) (code : Code) (width : BitVec 4), width.toNat = 0 ∨ 12 < width.toNat →
    exec (.pkWrite code width) s = .refused .widthOutOfRange ∧ exec (.upRead width) s = .refused .widthOutOfRange

/-- 30_encoding.md R88 (e): a host's direct use of a bit channel is refused exactly while the owning coder has a stream
in progress. That an accepted `UP.READ` does not wait for bytes of `d_in` is the model's choice (log 20). -/
def Obligations.DirectChannelUseIsRefusedInAStream : Prop :=
  ∀ (s : State) (code : Code) (width : BitVec 4), 1 ≤ width.toNat → width.toNat ≤ 12 →
    (∀ i ∈ [Instr.pkStart, .pkWrite code width, .pkFlush],
      (exec i s = .refused .encStreamInProgress ↔ s.enc.phase = .run ∧ s.enc.curMatch ≠ []) ∧
      (¬ (s.enc.phase = .run ∧ s.enc.curMatch ≠ []) → ∃ t, exec i s = .next t)) ∧
    (∀ i ∈ [Instr.upStart, .upRead width],
      (exec i s = .refused .decStreamInProgress ↔ s.dec.phase = .run ∧ s.dec.prev ≠ none) ∧
      (¬ (s.dec.phase = .run ∧ s.dec.prev ≠ none) → ∃ t, exec i s = .next t))

/-- 10_state.md R22: what each phase accepts. That an accepted `DEC.STEP` does not wait for bytes of `d_in` is the model's
choice (log 20). -/
def Obligations.PhasesDecideWhatIsAccepted : Prop :=
  ∀ s : State,
    (∃ t, exec .encStart s = .next t) ∧ (∃ t, exec .decStart s = .next t) ∧
    (∀ (b : Byte), ∀ i ∈ [Instr.encByte b, .encEnd, .encAbort],
      (s.enc.phase = .run → ∃ t, exec i s = .next t) ∧ (s.enc.phase = .done → exec i s = .refused .encPhaseDone)) ∧
    (s.dec.phase = .run → ∃ t, exec .decStep s = .next t) ∧
    (s.dec.phase ≠ .run → exec .decStep s = .refused .decPhaseNotRun)

/-- 30_encoding.md R88 (a): the reserved operation numbers are refused, in every state and with every low bits. -/
def Obligations.ReservedOperationsAreRefused : Prop :=
  ∀ (s : State) (payload : BitVec 16),
    exec (.reservedD payload) s = .refused .reservedOperation ∧
    exec (.reservedE payload) s = .refused .reservedOperation ∧
    exec (.reservedF payload) s = .refused .reservedOperation

/-! ## The encoder -/

/-- 42_lzw_encoder.md R121, with its encoding; accepted in every phase. That the raw source keeps its content and position
is the model's reading (log 9). -/
def Obligations.EncStartBeginsAFreshStream : Prop :=
  decode (.command 0x50000) = .ok .encStart ∧ ∀ s : State, ∃ t, exec .encStart s = .next t ∧
    (∀ v : Byte, t.enc.dict.codeOf? [v] = some (v.setWidth 12)) ∧
    (∀ k : ByteSeq, k.length ≠ 1 → t.enc.dict.codeOf? k = none) ∧ t.enc.nextCode = 256 ∧ t.enc.width = .w9 ∧
    t.enc.curMatch = [] ∧ t.enc.phase = .run ∧ t.enc.src = s.enc.src ∧
    t.pk.acc = 0#8 ∧ t.pk.cnt = 0 ∧ t.pk.out.data = [] ∧
    t = ((s.setEnc t.enc).setPk t.pk).setResult .none

/-- 42_lzw_encoder.md R122, with its encoding: the first byte of a stream seeds the match and does nothing else. -/
def Obligations.EncByteSeedsTheMatch : Prop :=
  (∀ b : Byte, decode (.command (commandWord 0x6 0 (0#4 ++ b))) = .ok (.encByte b)) ∧
  ∀ (s : State) (b : Byte), s.enc.phase = .run → s.enc.curMatch = [] →
    exec (.encByte b) s = .next ((s.setEnc { s.enc with curMatch := [b] }).setResult .none)

/-- 42_lzw_encoder.md R123: a later byte either extends the match, when the candidate is a key, or (i) writes the
match's code at the width held before, (ii) inserts the candidate below capacity, (iii) promotes on the incremented
count, (iv) restarts the match. -/
def Obligations.EncByteExtendsOrEmits : Prop :=
  ∀ (s : State) (b : Byte), PkInv s.pk → EncInv s.enc → s.enc.phase = .run → s.enc.curMatch ≠ [] →
    (s.enc.dict.isKey (s.enc.curMatch ++ [b]) = true →
      exec (.encByte b) s = .next ((s.setEnc { s.enc with curMatch := s.enc.curMatch ++ [b] }).setResult .none)) ∧
    (s.enc.dict.isKey (s.enc.curMatch ++ [b]) = false →
      ∃ (t : State) (c : Code), exec (.encByte b) s = .next t ∧ s.enc.dict.codeOf? s.enc.curMatch = some c ∧
        pkBits t.pk = pkBits s.pk ++ codeBits c s.enc.width.toNat ∧ PkInv t.pk ∧
        t.pk.out.taken = s.pk.out.taken ∧ t.pk.out.backlog = s.pk.out.backlog ∧
        (s.enc.nextCode < 4096 →
          t.enc.dict = s.enc.dict ++ [(codeOfCount s.enc.nextCode, s.enc.curMatch ++ [b])] ∧
          t.enc.nextCode = s.enc.nextCode + 1 ∧ t.enc.width = nextWidth s.enc.width (s.enc.nextCode + 1) 12) ∧
        (s.enc.nextCode = 4096 →
          t.enc.dict = s.enc.dict ∧ t.enc.nextCode = s.enc.nextCode ∧ t.enc.width = s.enc.width) ∧
        t.enc.curMatch = [b] ∧ t.enc.phase = s.enc.phase ∧ t.enc.src = s.enc.src ∧
        t = ((s.setEnc t.enc).setPk t.pk).setResult .none)

/-- 42_lzw_encoder.md R125, with its encoding: the last code at the current width, then the flush; no insertion, no
promotion. -/
def Obligations.EncEndWritesTheLastCodeAndFlushes : Prop :=
  decode (.command 0x70000) = .ok .encEnd ∧ ∀ s : State, PkInv s.pk → EncInv s.enc → s.enc.phase = .run →
    ∃ (t : State) (last : List Bool), exec .encEnd s = .next t ∧
      (s.enc.curMatch = [] → last = []) ∧
      (s.enc.curMatch ≠ [] →
        ∃ c, s.enc.dict.codeOf? s.enc.curMatch = some c ∧ last = codeBits c s.enc.width.toNat) ∧
      streamBits t.pk.out.data =
        pkBits s.pk ++ last ++ List.replicate ((8 - (s.pk.cnt + last.length) % 8) % 8) false ∧
      t.pk.cnt = 0 ∧ t.pk.acc = 0#8 ∧ t.pk.out.taken = s.pk.out.taken ∧ t.pk.out.backlog = s.pk.out.backlog ∧
      t = ((s.setEnc { s.enc with phase := .done }).setPk t.pk).setResult .none

/-- 42_lzw_encoder.md R126, with its encoding: abort flushes what was written, the pending match is not written. -/
def Obligations.EncAbortFlushesAndDropsTheMatch : Prop :=
  decode (.command 0x80000) = .ok .encAbort ∧ ∀ s : State, PkInv s.pk → s.enc.phase = .run →
    ∃ t, exec .encAbort s = .next t ∧
      streamBits t.pk.out.data = pkBits s.pk ++ List.replicate ((8 - s.pk.cnt) % 8) false ∧
      t.pk.cnt = 0 ∧ t.pk.acc = 0#8 ∧ t.pk.out.taken = s.pk.out.taken ∧ t.pk.out.backlog = s.pk.out.backlog ∧
      t = ((s.setEnc { s.enc with phase := .done }).setPk t.pk).setResult .none

/-- Every code the encoder writes is below `next_code` and fits its width, and at 9 to 11 bits it is at most `2^w - 2`:
the spec's own inference in 42_lzw_encoder.md, "Every code the encoder writes fits its width". -/
def Obligations.EncoderCodesFitTheirWidth : Prop :=
  ∀ e : Enc, EncInv e → e.curMatch ≠ [] →
    (encEmitted e).1.toNat < e.nextCode ∧ e.nextCode ≤ 2 ^ (encEmitted e).2.toNat ∧
    (encEmitted e).1.toNat ≤ 2 ^ (encEmitted e).2.toNat - 1 ∧
    ((encEmitted e).2 ≠ .w12 → (encEmitted e).1.toNat ≤ 2 ^ (encEmitted e).2.toNat - 2)

/-- The spec's own inference "Greedy matching" in 42_lzw_encoder.md: the match is the longest key that is a prefix of
the input not yet coded: when it is emitted, no key of the dictionary begins with the candidate, whatever bytes may
follow. -/
def Obligations.EncoderMatchIsGreedy : Prop :=
  ∀ (e e' : Enc) (b : Byte) (out : Code × CodeWidth), EncInv e → encAccept e b = (e', some out) →
    e.dict.isKey e.curMatch = true ∧ ∀ k : ByteSeq, e.curMatch ++ [b] <+: k → e.dict.isKey k = false

/-- 42_lzw_encoder.md R129: at capacity `ENC.BYTE` inserts nothing and changes neither count nor width. -/
def Obligations.EncoderDictionaryFreezesAtCapacity : Prop :=
  ∀ (s : State) (b : Byte), s.enc.nextCode = 4096 → s.enc.phase = .run →
    ∃ t, exec (.encByte b) s = .next t ∧ t.enc.dict = s.enc.dict ∧ t.enc.nextCode = 4096 ∧ t.enc.width = s.enc.width

/-- 42_lzw_encoder.md R127: `COMPRESS` is `ENC.START`, `ENC.BYTE` for every byte of the source from its position on, and
`ENC.END`; besides that it leaves the source exhausted. That it begins at the current position is the model's choice
(log 9). -/
def Obligations.CompressIsItsFixedSequence : Prop :=
  ∀ s : State,
    ∃ t, execAll (.encStart :: (sourceRest s.enc.src).map .encByte ++ [.encEnd]) s = .next t ∧
      exec .compress s =
        .next (t.setEnc
          { t.enc with src := { s.enc.src with pos := max s.enc.src.pos s.enc.src.data.length } })

/-- 42_lzw_encoder.md R127: `compress` "is a pure function of its input bytes", which are those from the current position
of the source on (the model's choice, log 9). -/
def Obligations.CompressDependsOnItsSourceAlone : Prop :=
  ∀ s s' t t' : State, sourceRest s.enc.src = sourceRest s'.enc.src →
    exec .compress s = .next t → exec .compress s' = .next t' →
    t.pk.out.data = t'.pk.out.data ∧ t.pk.acc = t'.pk.acc ∧ t.pk.cnt = t'.pk.cnt ∧
      t.enc.dict = t'.enc.dict ∧ t.enc.nextCode = t'.enc.nextCode ∧ t.enc.width = t'.enc.width ∧
      t.enc.curMatch = t'.enc.curMatch ∧ t.enc.phase = t'.enc.phase

/-- 20_memory.md R57, R58, and the spec's own inference in 30_encoding.md, "the width is a function of the code's
ordinal alone": with `cs` the code words that the encoder writes for the bytes of the source from its position on (log 9),
in order, the compressed stream is exactly `cs` one after the other and then `(8 - T mod 8) mod 8` zero bits, each code
fits its width, and the width of code #(k+1) is `WidthFor(min(256 + k, 4096))`. -/
def Obligations.CompressedStreamFollowsTheWidthSchedule : Prop :=
  ∀ (s : State) (cs : List (Code × CodeWidth)), cs = encStreamCodes (restartedEnc s.enc) (sourceRest s.enc.src) →
    ∃ t, exec .compress s = .next t ∧
      streamBits t.pk.out.data =
        codeWordsBits cs ++ List.replicate ((8 - (cs.map (fun cw => cw.2.toNat)).sum % 8) % 8) false ∧
      (∀ (k : Nat) (c : Code) (w : CodeWidth), cs[k]? = some (c, w) →
        w = widthFor (min (256 + k) 4096) ∧ c.toNat < 2 ^ w.toNat) ∧
      (cs = [] ↔ sourceRest s.enc.src = [])

/-! ## The decoder -/

/-- 43_lzw_decoder.md R141, with its encoding; accepted in every phase. That a source the host attached keeps its content
is log 9, that one fed through `d_in` begins empty is log 11: the model's choices. -/
def Obligations.DecStartBeginsAFreshStream : Prop :=
  decode (.command 0x90000) = .ok .decStart ∧ ∀ s : State, ∃ t, exec .decStart s = .next t ∧
    (∀ c : Code, t.dec.dict.seqOf? c = if c.toNat < 256 then some [c.setWidth 8] else none) ∧
    t.dec.nextCode = 256 ∧ t.dec.width = .w9 ∧
    t.dec.prev = none ∧ t.dec.phase = .run ∧ statusBits t.dec.status = 0#2 ∧ t.dec.badcode = 0#12 ∧
    t.dec.out.data = [] ∧ t.up.buf = 0#8 ∧ t.up.left = 0 ∧ t.up.eos = false ∧ t.up.src.pos = 0 ∧
    t.up.src.data = (if s.up.fed then [] else s.up.src.data) ∧ t.up.fed = s.up.fed ∧
    t = ((s.setDec t.dec).setUp t.up).setResult .none

/-- 43_lzw_decoder.md R142, the first code of a stream received as a code word (log 5): a literal is emitted and
remembered, without insertion or promotion. -/
def Obligations.FirstCodeWordEmitsItsByte : Prop :=
  ∀ (s : State) (w : CodeWidth) (c : Code), c.toNat < 256 → s.dec.phase = .run → s.dec.width = w → s.dec.prev = none →
    exec (instrOfCode w c) s =
      .next ((s.setDec
        { s.dec with
          out := { s.dec.out with data := s.dec.out.data ++ [c.setWidth 8] }
          prev := some [c.setWidth 8] }).setResult .continue)

/-- 43_lzw_decoder.md R143: a later code, received as a code word (log 5). A present code names its entry, the code
equal to `next_code` names `prev ++ [prev[0]]` (KWKWK); then the entry is emitted, `prev ++ [e[0]]` is inserted below
capacity, the width is promoted on `next_code + 1` (R146), and the entry is remembered. -/
def Obligations.LaterCodeWordEmitsAndLearns : Prop :=
  ∀ (s : State) (w : CodeWidth) (c : Code) (p : ByteSeq), DecInv s.dec → c.toNat < 2 ^ w.toNat →
    s.dec.phase = .run → s.dec.width = w → s.dec.prev = some p → c.toNat ≤ s.dec.nextCode →
    ∃ (t : State) (f x : Byte) (p' e' : ByteSeq), exec (instrOfCode w c) s = .next t ∧ p = f :: p' ∧
      (c.toNat < s.dec.nextCode → s.dec.dict.seqOf? c = some (x :: e')) ∧
      (c.toNat = s.dec.nextCode → x :: e' = p ++ [f]) ∧
      t.result = .continue ∧ t.dec.out.data = s.dec.out.data ++ x :: e' ∧ t.dec.out.taken = s.dec.out.taken ∧
      t.dec.out.backlog = s.dec.out.backlog ∧
      (s.dec.nextCode < 4096 →
        t.dec.dict = s.dec.dict ++ [(codeOfCount s.dec.nextCode, p ++ [x])] ∧ t.dec.nextCode = s.dec.nextCode + 1) ∧
      (s.dec.nextCode = 4096 → t.dec.dict = s.dec.dict ∧ t.dec.nextCode = s.dec.nextCode) ∧
      t.dec.width = nextWidth s.dec.width (t.dec.nextCode + 1) 12 ∧ t.dec.prev = some (x :: e') ∧
      t.dec.phase = s.dec.phase ∧ t.dec.status = s.dec.status ∧ t.dec.badcode = s.dec.badcode ∧
      t = (s.setDec t.dec).setResult .continue

/-- 43_lzw_decoder.md R142, R143: a `DEC.STEP` that reads a code of class LIT, REF or KWKWK (30_encoding.md R73) emits
the sequence the code names and remembers it. -/
def Obligations.DecStepEmitsWhatItsCodeNames : Prop :=
  ∀ (s : State) (c : Code) (u : Up), s.Inv → s.dec.phase = .run → upRead s.up s.dec.width.toNat = (some c, u) →
    s.dec.classOf c ≠ .invalid →
    ∃ (t : State) (e : ByteSeq), exec .decStep s = .next t ∧
      (s.dec.classOf c = .lit → e = [c.setWidth 8]) ∧
      (s.dec.classOf c = .ref → s.dec.dict.seqOf? c = some e) ∧
      (s.dec.classOf c = .kwkwk → ∃ f p', s.dec.prev = some (f :: p') ∧ e = f :: p' ++ [f]) ∧
      t.result = .continue ∧ t.dec.out.data = s.dec.out.data ++ e ∧ t.dec.prev = some e ∧ t.dec.phase = .run ∧
      t.dec.nextCode = (if s.dec.prev = none ∨ s.dec.nextCode = 4096 then s.dec.nextCode else s.dec.nextCode + 1) ∧
      t = ((s.setUp u).setDec t.dec).setResult .continue

/-- 30_encoding.md R71, R73 (code words as instructions are the model's choice, log 5): each code-word row runs to a
next state: a literal at its width emits its byte, in every state of a running decoder; a learned code at its width
emits at least one byte once it is at most `next_code` and a code has been processed. -/
def Obligations.EveryCodeWordRowCompletes : Prop :=
  ∀ s : State, DecInv s.dec → s.dec.phase = .run →
    (∀ (w : CodeWidth) (b : Byte) (i : Instr),
      (w, i) ∈ [(CodeWidth.w9, Instr.w9Lit b), (.w10, .w10Lit b), (.w11, .w11Lit b), (.w12, .w12Lit b)] →
      s.dec.width = w →
      ∃ t, exec i s = .next t ∧ t.result = .continue ∧ t.dec.out.data = s.dec.out.data ++ [b] ∧
        t.dec.prev = some [b]) ∧
    (∀ (w : CodeWidth) (c : Code) (i : Instr),
      (w, i) ∈ [(CodeWidth.w9, Instr.w9Dict (c.setWidth 9)), (.w10, .w10Dict (c.setWidth 10)),
        (.w11, .w11Dict (c.setWidth 11)), (.w12, .w12Dict c)] →
      s.dec.width = w → c.toNat < 2 ^ w.toNat → 256 ≤ c.toNat → c.toNat ≤ s.dec.nextCode → s.dec.prev ≠ none →
      ∃ t b e, exec i s = .next t ∧ t.result = .continue ∧ t.dec.out.data = s.dec.out.data ++ b :: e ∧
        t.dec.prev = some (b :: e))

/-- 60_exceptions.md R176: the exception of an invalid code is precise: bad code, status and phase are written, the
result is `ERROR`, and nothing else changes; taken by `DEC.STEP`, the bits of the code have been consumed. The invalid
codes are those of 30_encoding.md R73. The first clause receives the code as a code word, the model's choice (log 5). -/
def Obligations.InvalidCodeWordRaisesDecodeError : Prop :=
  ∀ (s : State) (w : CodeWidth) (c : Code), c.toNat < 2 ^ w.toNat → s.dec.phase = .run → s.dec.width = w →
    (c.toNat > s.dec.nextCode ∧ s.dec.prev ≠ none) ∨ (256 ≤ c.toNat ∧ s.dec.prev = none) →
    exec (instrOfCode w c) s =
      .next ((s.setDec { s.dec with badcode := c, status := .invalidCode, phase := .error }).setResult .error) ∧
    ∀ u : Up, upRead s.up w.toNat = (some c, u) →
      exec .decStep s =
        .next (((s.setUp u).setDec
          { s.dec with badcode := c, status := .invalidCode, phase := .error }).setResult .error)

/-- A code word of a format the decoder is not reading, or received in another phase than `RUN`, is refused (the model's
reading of 30_encoding.md R72 and R88 (d); log 5). -/
def Obligations.UnexpectedCodeWordsAreRefused : Prop :=
  ∀ (s : State) (w : CodeWidth) (c : Code),
    (s.dec.width ≠ w → exec (instrOfCode w c) s = .refused .codeWordWidth) ∧
    (s.dec.width = w → s.dec.phase ≠ .run → exec (instrOfCode w c) s = .refused .decPhaseNotRun)

/-- 30_encoding.md R73, 60_exceptions.md R172, R175: a `DEC.STEP` raises `DecodeError` exactly when it obtains a whole
code of class `INVALID`. That it does not wait for bytes of `d_in` is the model's choice (log 20). -/
def Obligations.DecodeErrorExactlyOnInvalidCodes : Prop :=
  ∀ s : State, s.Inv → s.dec.phase = .run →
    ∃ t, exec .decStep s = .next t ∧
      (t.result = .error ↔ ∃ c u, upRead s.up s.dec.width.toNat = (some c, u) ∧ s.dec.classOf c = .invalid) ∧
      (t.result = .done ↔ ∃ u, upRead s.up s.dec.width.toNat = (none, u)) ∧
      (t.result = .error ∨ t.result = .done ∨ t.result = .continue)

/-- 60_exceptions.md R171, 41_bit_unpacker.md R114, R111: a `DEC.STEP` with fewer bits left than its width, none or some,
ends the stream normally, with no output: the bits left are consumed, `UP.eos` is set, phase and status are written, and
nothing else changes. Of a source fed through `d_in` whose end is not indicated, that the step ends the stream and does
not wait is the model's choice (log 20). -/
def Obligations.DecStepEndsTheStreamWithoutError : Prop :=
  ∀ s : State, UpInv s.up → s.dec.phase = .run → (upBits s.up).length < s.dec.width.toNat ∨ s.up.eos = true →
    exec .decStep s =
      .next (((s.setUp
        { buf := 0#8
          left := 0
          eos := true
          src := { s.up.src with pos := if s.up.eos then s.up.src.pos else s.up.src.data.length }
          fed := s.up.fed }).setDec { s.dec with phase := .done, status := .done }).setResult .done)

/-- 60_exceptions.md R177: the phases `ERROR` and `DONE` of the decoder are left by `DEC.START`, `DECOMPRESS` and reset
alone: every other instruction leaves the decoder as it is. -/
def Obligations.EndedDecoderStaysUntilStart : Prop :=
  ∀ (i : Instr) (s t : State), s.dec.phase ≠ .run → i ≠ .decStart → i ≠ .decompress → exec i s = .next t → t.dec = s.dec

/-- The spec's own inference in 43_lzw_decoder.md, "Once the dictionary is full no code can be `INVALID`", for a code
received as a code word (the model's choice, log 5). -/
def Obligations.FullDecoderAcceptsEveryCode : Prop :=
  ∀ (s : State) (w : CodeWidth) (c : Code), s.Inv → s.dec.nextCode = 4096 → s.dec.phase = .run → s.dec.width = w →
    c.toNat < 2 ^ w.toNat →
    ∃ t, exec (instrOfCode w c) s = .next t ∧ t.result = .continue ∧ t.dec.phase = .run ∧ t.dec.dict = s.dec.dict

/-- 43_lzw_decoder.md R148: `DECOMPRESS` always ends, with `DONE` or `ERROR`, and is `DEC.START` followed by as many
`DEC.STEP`s as it takes. That a source fed through `d_in` begins empty there (log 11) and that `DECOMPRESS` does not wait
for its bytes but ends at once with `DONE` (log 20) are the model's choices. -/
def Obligations.DecompressEndsAndIsItsFixedSequence : Prop :=
  ∀ s : State, ∃ t, exec .decompress s = .next t ∧
    ((t.result = .done ∧ t.dec.phase = .done) ∨ (t.result = .error ∧ t.dec.phase = .error)) ∧
    ∃ n : Nat, execAll (.decStart :: List.replicate (n + 1) .decStep) s = .next t ∧
      ∀ k r, k < n → execAll (.decStart :: List.replicate (k + 1) .decStep) s = .next r → r.result = .continue

/-! ## Both coders -/

/-- 43_lzw_decoder.md R150, the round trip: "for all finite byte sequences `S` (including empty),
`decompress(compress(S)) == S`", with result `DONE`. -/
def Obligations.DecompressOfCompressIsTheInput : Prop :=
  ∀ (s t u : State) (data : ByteSeq),
    runEvents [.attachRaw data] s = .next u → exec .compress u = .next t →
    ∃ r, runEvents [.attachCompressed t.pk.out.data] t = .next r ∧
      ∃ q, exec .decompress r = .next q ∧ q.result = .done ∧ q.dec.phase = .done ∧ q.dec.out.data = data

/-- The spec's own inference "Prefix property" in 43_lzw_decoder.md: a compressed stream cut after any number of bytes
decodes without error to a prefix of the data. -/
def Obligations.TruncatedStreamDecodesToAPrefix : Prop :=
  ∀ (s t u : State) (data : ByteSeq) (n : Nat),
    runEvents [.attachRaw data] s = .next u → exec .compress u = .next t →
    ∃ r, runEvents [.attachCompressed (t.pk.out.data.take n)] t = .next r ∧
      ∃ q, exec .decompress r = .next q ∧ q.result = .done ∧ q.dec.out.data <+: data

/-- 10_state.md R33, R38, R31: between two starts the dictionaries only grow at their ends and the widths never
decrease. -/
def Obligations.DictionariesOnlyGrow : Prop :=
  ∀ (i : Instr) (s t : State), exec i s = .next t →
    (i ≠ .encStart → i ≠ .compress → s.enc.dict <+: t.enc.dict ∧ s.enc.width.toNat ≤ t.enc.width.toNat) ∧
    (i ≠ .decStart → i ≠ .decompress → s.dec.dict <+: t.dec.dict ∧ s.dec.width.toNat ≤ t.dec.width.toNat)

/-- 20_memory.md R51: a sink is append-only between two starts of its unit. -/
def Obligations.SinksAreAppendOnly : Prop :=
  ∀ (i : Instr) (s t : State), exec i s = .next t →
    (i ≠ .pkStart → i ≠ .encStart → i ≠ .compress → s.pk.out.data <+: t.pk.out.data) ∧
    (i ≠ .decStart → i ≠ .decompress → s.dec.out.data <+: t.dec.out.data)

/-- 00_scope.md R2, R16: the pipelines share no state: an instruction of one leaves the other's units alone. -/
def Obligations.PipelinesShareNoState : Prop :=
  ∀ (i : Instr) (s t : State), exec i s = .next t →
    t.events = s.events ∧ (ofCompressor i = true → t.up = s.up ∧ t.dec = s.dec) ∧
    (ofDecompressor i = true → t.pk = s.pk ∧ t.enc = s.enc)

/-- The spec's own inference in 00_scope.md, "A model may therefore interleave the operations of the two pipelines in
any order": they may be interleaved in any order: the two orders give the same state but for the result register, which
holds the last operation's result. -/
def Obligations.PipelinesCommute : Prop :=
  ∀ (i j : Instr) (s t u : State), ofCompressor i = true → ofDecompressor j = true →
    exec i s = .next t → exec j s = .next u →
    ∃ v w, exec j t = .next v ∧ exec i u = .next w ∧ v.setResult .none = w.setResult .none ∧
      v.result = u.result ∧ w.result = t.result

/-! ## The compact form -/

/-- The spec's own inference "Equivalent compact form of the encoder state" in 10_state.md: one byte in compact form and
in byte-sequence form: the same code written at the same width, and the encoders still stand for each other. -/
def Obligations.CompactEncoderAgrees : Prop :=
  ∀ (k : CompactEnc) (b : Byte) (phase : EncPhase) (src : Source), CompactEncInv k →
    encAccept (k.toEnc phase src) b = ((compactAccept k b).1.toEnc phase src, (compactAccept k b).2) ∧
    CompactEncInv (compactAccept k b).1

/-- The spec's own inference "Equivalent compact form of the decoder state" in 10_state.md: one code in compact form and
in byte-sequence form: the same bytes emitted or the same decode error, and the decoders still stand for each other. -/
def Obligations.CompactDecoderAgrees : Prop :=
  ∀ (k : CompactDec) (s : State) (c : Code), CompactDecInv k → s.dec = k.toDec s.dec →
    (compactReceive k c = none → decReceive c s = raiseDecodeError c s) ∧
    (∀ k' e, compactReceive k c = some (k', e) →
      CompactDecInv k' ∧ (decReceive c s).result = .continue ∧
      (decReceive c s).dec = k'.toDec { s.dec with out := { s.dec.out with data := s.dec.out.data ++ e } })

/-! ## The port binding -/

/-- The port binding as the model's events (logs 3, 11; 20_memory.md R66, R67 (d)): a pulse or a raw byte performs its
operation, and is ignored when the phase refuses it. -/
def Obligations.PortPulsesPerformTheirOperations : Prop :=
  ∀ (s : State) (b : Byte),
    (∀ ei ∈ [(PortEvent.cStart, Instr.encStart), (.cIn b, .encByte b), (.cInEnd, .encEnd), (.cAbort, .encAbort)],
      (∀ t, exec ei.2 s = .next t → runEvent (.port ei.1) s = .next t) ∧
      (∀ r, exec ei.2 s = .refused r → runEvent (.port ei.1) s = .next s)) ∧
    (∃ t, runEvent (.port .dStart) s = .next t ∧
      exec .decStart (s.setUp { s.up with src := attachedSource [], fed := true }) = .next t)

/-- The port binding as the model's events (logs 11, 12; 20_memory.md R67 (a), (b)): from every state, after a `d_start`
pulse, a reset or a `DEC.START`, and whatever the schedule on which the host takes the bytes of the sink, streaming a
compressed stream through the port binding gives the output, the phase, the status and the bad code of `DECOMPRESS`. No
byte transferred before is read again. -/
def Obligations.PortStreamingEqualsDecompress : Prop :=
  ∀ (s r q : State) (start : HostEvent) (data : ByteSeq) (takes : List Nat),
    start ∈ [HostEvent.port .dStart, .reset, .command (commandWord 0x9 0 0)] →
    runEvents [.attachCompressed data] s = .next r → exec .decompress r = .next q →
    ∃ t, runEvents
        (start ::
          (data.zipIdx.flatMap fun bi =>
            .port (.dIn bi.1) :: List.replicate (takes.getD bi.2 0) (.port .dOut)) ++ [.port .dInEnd]) s = .next t ∧
      t.dec.out.data = q.dec.out.data ∧ t.dec.phase = q.dec.phase ∧ dStatus t = statusBits q.dec.status ∧
      dBadcode t = q.dec.badcode ∧ t.dec.dict = q.dec.dict

/-- The output ports as the model's events (logs 10, 11; 20_memory.md R66): `c_out` and `d_out` show the oldest byte that
waits, a transfer takes that byte and changes nothing else, not even the sink's content; the done and error outputs are 1
in their phase once every byte of the sink has been transferred. -/
def Obligations.OutputPortsTransferTheOldestByte : Prop :=
  ∀ s : State,
    (∃ t, runEvent (.port .cOut) s = .next t ∧ t.pk.out.data = s.pk.out.data ∧
      sinkOwed s.pk.out = (cOutData s).toList ++ sinkOwed t.pk.out ∧
      (cOutData s = none ↔ sinkOwed s.pk.out = []) ∧ t = s.setPk { s.pk with out := t.pk.out }) ∧
    (∃ t, runEvent (.port .dOut) s = .next t ∧ t.dec.out.data = s.dec.out.data ∧
      sinkOwed s.dec.out = (dOutData s).toList ++ sinkOwed t.dec.out ∧
      (dOutData s = none ↔ sinkOwed s.dec.out = []) ∧ t = s.setDec { s.dec with out := t.dec.out }) ∧
    (cDone s = true ↔ s.enc.phase = .done ∧ s.pk.out.data.drop s.pk.out.taken = []) ∧
    (dDone s = true ↔ s.dec.phase = .done ∧ s.dec.out.data.drop s.dec.out.taken = []) ∧
    (dError s = true ↔ s.dec.phase = .error ∧ s.dec.out.data.drop s.dec.out.taken = [])

/-- The output ports as the model's events (logs 10, 11; 20_memory.md R67 (b), "no byte is dropped, duplicated or
reordered"): whatever an instruction or an act of the host does, but a transfer on that port, the bytes that wait at an
output port go on waiting, in the same order and before any new byte. -/
def Obligations.NoByteIsDroppedFromAnOutputPort : Prop :=
  (∀ (i : Instr) (s t : State), exec i s = .next t →
    sinkOwed s.pk.out <+: sinkOwed t.pk.out ∧ sinkOwed s.dec.out <+: sinkOwed t.dec.out) ∧
  ∀ (e : HostEvent) (s t : State), runEvent e s = .next t →
    (e ≠ .port .cOut → sinkOwed s.pk.out <+: sinkOwed t.pk.out) ∧
    (e ≠ .port .dOut → sinkOwed s.dec.out <+: sinkOwed t.dec.out)
end

