-- ==== Sys2Proof/Laws/Bits.lean ====
section
/-! SUPPORT. Bits as lists: the bits of a code, the number a list of bits stands for, and the bits of a byte sequence
(20_memory.md R57, 30_encoding.md R76). -/

namespace Sys2Proof.Machine

@[simp] theorem codeBits_length (c : Code) (w : Nat) : (codeBits c w).length = w := by
  induction w with
  | zero => rfl
  | succ w ih => simp [codeBits, ih]

@[simp] theorem codeBits_zero_width (c : Code) : codeBits c 0 = [] := rfl

theorem codeBits_congr {c c' : Code} {w : Nat} (h : ∀ i, i < w → c.getLsbD i = c'.getLsbD i) :
    codeBits c w = codeBits c' w := by
  induction w with
  | zero => rfl
  | succ w ih => simp [codeBits, h w (Nat.lt_succ_self w), ih fun i hi => h i (Nat.lt_succ_of_lt hi)]

/-- The last bit of a code word is the code's bit 0. -/
theorem codeBits_succ (c : Code) (w : Nat) : codeBits c (w + 1) = codeBits (c >>> 1) w ++ [c.getLsbD 0] := by
  induction w with
  | zero => rfl
  | succ w ih =>
    rw [codeBits, ih, codeBits]
    simp [Nat.add_comm]

/-- Shifting a bit in at bit 0 appends it to the pending bits. -/
theorem codeBits_shiftIn {c c' : Code} {b : Bool} {w : Nat} (h0 : c'.getLsbD 0 = b)
    (h : ∀ i, i < w → c'.getLsbD (i + 1) = c.getLsbD i) : codeBits c' (w + 1) = codeBits c w ++ [b] := by
  rw [codeBits_succ, h0]
  congr 1
  refine codeBits_congr fun i hi => ?_
  rw [← h i hi]
  simp [Nat.add_comm]

/-- Reading on from `r`: what `foldl` makes of more bits. -/
def bitsValueFrom (r : Nat) (bits : List Bool) : Nat := bits.foldl (fun r b => 2 * r + b.toNat) r

theorem bitsValue_eq (bits : List Bool) : bitsValue bits = bitsValueFrom 0 bits := rfl

@[simp] theorem bitsValueFrom_nil (r : Nat) : bitsValueFrom r [] = r := rfl

@[simp] theorem bitsValueFrom_cons (r : Nat) (b : Bool) (bits : List Bool) :
    bitsValueFrom r (b :: bits) = bitsValueFrom (2 * r + b.toNat) bits := rfl

theorem bitsValueFrom_append (r : Nat) (xs ys : List Bool) :
    bitsValueFrom r (xs ++ ys) = bitsValueFrom (bitsValueFrom r xs) ys := by
  simp [bitsValueFrom, List.foldl_append]

/-- The bits gathered first weigh most. -/
theorem bitsValueFrom_eq (r : Nat) (bits : List Bool) :
    bitsValueFrom r bits = r * 2 ^ bits.length + bitsValue bits := by
  induction bits generalizing r with
  | nil => simp [bitsValue]
  | cons b bits ih =>
    rw [bitsValueFrom_cons, ih, bitsValue_eq (b :: bits), bitsValueFrom_cons, ih (2 * 0 + b.toNat), List.length_cons,
      pow_succ]
    ring

theorem bitsValue_cons (b : Bool) (bits : List Bool) :
    bitsValue (b :: bits) = b.toNat * 2 ^ bits.length + bitsValue bits := by
  rw [bitsValue_eq, bitsValueFrom_cons, bitsValueFrom_eq]
  simp

theorem bitsValue_lt (bits : List Bool) : bitsValue bits < 2 ^ bits.length := by
  induction bits with
  | nil => simp [bitsValue]
  | cons b bits ih =>
    rw [bitsValue_cons, List.length_cons, pow_succ]
    have : b.toNat ≤ 1 := Bool.toNat_le b
    nlinarith [Nat.mul_le_mul_right (2 ^ bits.length) this]

/-- The code a code word carries is the number its bits stand for (30_encoding.md R76). -/
theorem bitsValue_codeBits (c : Code) (w : Nat) : bitsValue (codeBits c w) = c.toNat % 2 ^ w := by
  induction w with
  | zero => simp [bitsValue, codeBits, Nat.mod_one]
  | succ w ih =>
    rw [codeBits, bitsValue_cons, ih, codeBits_length, BitVec.getLsbD, Nat.testBit_eq_decide_div_mod_eq, pow_succ,
      Nat.mod_mul]
    rcases Nat.mod_two_eq_zero_or_one (c.toNat / 2 ^ w) with h | h <;> simp [h, Nat.add_comm]

theorem bitsValue_codeBits_of_lt {c : Code} {w : Nat} (h : c.toNat < 2 ^ w) : bitsValue (codeBits c w) = c.toNat := by
  rw [bitsValue_codeBits, Nat.mod_eq_of_lt h]

@[simp] theorem byteBits_length (b : Byte) : (byteBits b).length = 8 := by simp [byteBits]

@[simp] theorem streamBits_nil : streamBits [] = [] := rfl

@[simp] theorem streamBits_cons (b : Byte) (s : ByteSeq) : streamBits (b :: s) = byteBits b ++ streamBits s := rfl

@[simp] theorem streamBits_append (s t : ByteSeq) : streamBits (s ++ t) = streamBits s ++ streamBits t := by
  simp [streamBits]

@[simp] theorem streamBits_length (s : ByteSeq) : (streamBits s).length = 8 * s.length := by
  induction s with
  | nil => rfl
  | cons b s ih => simp [ih]; ring

/-- A byte is determined by its bits. -/
theorem byteBits_injective {a b : Byte} (h : byteBits a = byteBits b) : a = b := by
  have := congrArg bitsValue h
  rw [byteBits, byteBits, bitsValue_codeBits, bitsValue_codeBits] at this
  refine BitVec.eq_of_toNat_eq ?_
  have ha := a.isLt
  have hb := b.isLt
  simp only [BitVec.toNat_setWidth] at this
  omega

/-- A byte sequence is determined by its bits. -/
theorem streamBits_injective {s t : ByteSeq} (h : streamBits s = streamBits t) : s = t := by
  induction s generalizing t with
  | nil =>
    cases t with
    | nil => rfl
    | cons b t => exact absurd (congrArg List.length h) (by simp; omega)
  | cons a s ih =>
    cases t with
    | nil => exact absurd (congrArg List.length h) (by simp)
    | cons b t =>
      rw [streamBits_cons, streamBits_cons] at h
      obtain ⟨h1, h2⟩ := List.append_inj h (by simp)
      rw [byteBits_injective h1, ih h2]

@[simp] theorem codeWordsBits_nil : codeWordsBits [] = [] := rfl

@[simp] theorem codeWordsBits_cons (c : Code) (w : CodeWidth) (cs : List (Code × CodeWidth)) :
    codeWordsBits ((c, w) :: cs) = codeBits c w.toNat ++ codeWordsBits cs := rfl

@[simp] theorem codeWordsBits_append (cs ds : List (Code × CodeWidth)) :
    codeWordsBits (cs ++ ds) = codeWordsBits cs ++ codeWordsBits ds := by
  simp [codeWordsBits]

/-- A code width lies in `9..12` (10_state.md R31). -/
theorem codeWidth_range (w : CodeWidth) : 9 ≤ w.toNat ∧ w.toNat ≤ 12 := by
  cases w <;> decide

end Sys2Proof.Machine
end

