-- ==== Sys2Proof/Laws/Decode.lean ====
section
/-! SUPPORT. The fields of command words and code words as numbers (30_encoding.md R71, R81). -/

namespace Sys2Proof

/-- Concatenation is positional notation. -/
theorem append_toNat {m n : Nat} (x : BitVec m) (y : BitVec n) : (x ++ y).toNat = x.toNat * 2 ^ n + y.toNat := by
  rw [BitVec.toNat_append, ← Nat.shiftLeft_add_eq_or_of_lt y.isLt, Nat.shiftLeft_eq]

theorem extract_toNat {n : Nat} (x : BitVec n) (lo len : Nat) :
    (x.extractLsb' lo len).toNat = x.toNat / 2 ^ lo % 2 ^ len := by
  rw [BitVec.extractLsb'_toNat, Nat.shiftRight_eq_div_pow]

/-- A command word as a number (R81). -/
theorem commandWord_toNat (op width : BitVec 4) (code : BitVec 12) :
    (commandWord op width code).toNat = op.toNat * 65536 + width.toNat * 4096 + code.toNat := by
  rw [commandWord, append_toNat, append_toNat]
  ring

@[simp] theorem commandWord_op (op width : BitVec 4) (code : BitVec 12) :
    (commandWord op width code).extractLsb' 16 4 = op := by
  refine BitVec.eq_of_toNat_eq ?_
  rw [extract_toNat, commandWord_toNat]
  have := op.isLt
  have := width.isLt
  have := code.isLt
  omega

@[simp] theorem commandWord_width (op width : BitVec 4) (code : BitVec 12) :
    (commandWord op width code).extractLsb' 12 4 = width := by
  refine BitVec.eq_of_toNat_eq ?_
  rw [extract_toNat, commandWord_toNat]
  have := op.isLt
  have := width.isLt
  have := code.isLt
  omega

@[simp] theorem commandWord_code (op width : BitVec 4) (code : BitVec 12) :
    (commandWord op width code).extractLsb' 0 12 = code := by
  refine BitVec.eq_of_toNat_eq ?_
  rw [extract_toNat, commandWord_toNat]
  have := op.isLt
  have := width.isLt
  have := code.isLt
  omega

/-- A command word is its three fields. -/
theorem commandWord_eta (w : CommandWord) :
    commandWord (w.extractLsb' 16 4) (w.extractLsb' 12 4) (w.extractLsb' 0 12) = w := by
  refine BitVec.eq_of_toNat_eq ?_
  rw [commandWord_toNat, extract_toNat, extract_toNat, extract_toNat]
  have := w.isLt
  omega

/-- A reserved command word is its operation number and the rest. -/
theorem reservedWord_eta (w : CommandWord) : w.extractLsb' 16 4 ++ w.extractLsb' 0 16 = w := by
  refine BitVec.eq_of_toNat_eq ?_
  rw [append_toNat, extract_toNat, extract_toNat]
  have := w.isLt
  omega

/-- The low 16 bits are the two operand fields. -/
theorem low16_eq_zero_iff (w : CommandWord) :
    w.extractLsb' 0 16 = 0#16 ↔ w.extractLsb' 12 4 = 0#4 ∧ w.extractLsb' 0 12 = 0#12 := by
  simp only [← BitVec.toNat_inj, extract_toNat, BitVec.toNat_ofNat]
  have := w.isLt
  omega

/-- The bits of a code word above its low 8 are zero exactly when its code is a literal's (R71). -/
theorem highBits_zero_iff {n : Nat} (k : Nat) (hn : n = 8 + k) (w : BitVec n) :
    w.extractLsb' 8 k = 0#k ↔ w.toNat < 256 := by
  subst hn
  rw [← BitVec.toNat_inj, extract_toNat, BitVec.toNat_ofNat, Nat.zero_mod]
  have hw := w.isLt
  rw [pow_add] at hw
  have hd : w.toNat / 2 ^ 8 < 2 ^ k := by
    rw [Nat.div_lt_iff_lt_mul (by decide)]
    omega
  rw [Nat.mod_eq_of_lt hd]
  omega

theorem decodeCode9_eq (w : BitVec 9) :
    decodeCode9 w = if w.toNat < 256 then .w9Lit (w.setWidth 8) else .w9Dict w := by
  rw [decodeCode9]
  simp only [highBits_zero_iff 1 rfl w]
  rfl

theorem decodeCode10_eq (w : BitVec 10) :
    decodeCode10 w = if w.toNat < 256 then .w10Lit (w.setWidth 8) else .w10Dict w := by
  rw [decodeCode10]
  simp only [highBits_zero_iff 2 rfl w]
  rfl

theorem decodeCode11_eq (w : BitVec 11) :
    decodeCode11 w = if w.toNat < 256 then .w11Lit (w.setWidth 8) else .w11Dict w := by
  rw [decodeCode11]
  simp only [highBits_zero_iff 3 rfl w]
  rfl

theorem decodeCode12_eq (w : BitVec 12) :
    decodeCode12 w = if w.toNat < 256 then .w12Lit (w.setWidth 8) else .w12Dict w := by
  rw [decodeCode12]
  simp only [highBits_zero_iff 4 rfl w]
  rfl

/-- A literal's code word as a number is its byte (R71). -/
theorem zeros_append_toNat {m n : Nat} (b : BitVec n) : (0#m ++ b).toNat = b.toNat := by
  rw [append_toNat]
  simp

theorem zeros_append_setWidth {m n : Nat} (b : BitVec n) : (0#m ++ b).setWidth n = b := by
  refine BitVec.eq_of_toNat_eq ?_
  rw [BitVec.toNat_setWidth, zeros_append_toNat, Nat.mod_eq_of_lt b.isLt]

/-- The code word of a width for a literal's code. -/
theorem instrOfCode_literal {w : CodeWidth} {c : Code} (h : c.toNat < 256) :
    instrOfCode w c =
      match w with
      | .w9 => .w9Lit (c.setWidth 8)
      | .w10 => .w10Lit (c.setWidth 8)
      | .w11 => .w11Lit (c.setWidth 8)
      | .w12 => .w12Lit (c.setWidth 8) := by
  cases w <;>
    simp only [instrOfCode, decodeCode9_eq, decodeCode10_eq, decodeCode11_eq, decodeCode12_eq, BitVec.toNat_setWidth]
  all_goals rw [if_pos (by omega)]
  all_goals
    congr 1
    try (refine BitVec.eq_of_toNat_eq ?_; simp only [BitVec.toNat_setWidth]; omega)

/-- The code word of a width for a learned code of that width. -/
theorem instrOfCode_learned {w : CodeWidth} {c : Code} (h : 256 ≤ c.toNat) (hw : c.toNat < 2 ^ w.toNat) :
    instrOfCode w c =
      match w with
      | .w9 => .w9Dict (c.setWidth 9)
      | .w10 => .w10Dict (c.setWidth 10)
      | .w11 => .w11Dict (c.setWidth 11)
      | .w12 => .w12Dict c := by
  cases w <;> simp only [CodeWidth.toNat] at hw <;>
    simp only [instrOfCode, decodeCode9_eq, decodeCode10_eq, decodeCode11_eq, decodeCode12_eq, BitVec.toNat_setWidth]
  all_goals rw [if_neg (by omega)]

end Sys2Proof
end

