-- ==== Sys2Proof/Laws/Dict.lean ====
section
/-! SUPPORT. The dictionaries as maps: every operation keeps the canonical form, lookups survive an insertion, and in a
good dictionary code and sequence determine each other (10_state.md R32, R33, R37; 20_memory.md R55). -/

namespace Sys2Proof.Machine

theorem codeOfCount_toNat {n : Nat} (h : n < 4096) : (codeOfCount n).toNat = n := by
  simp [codeOfCount, Nat.mod_eq_of_lt h]

theorem literalCode_toNat (b : Byte) : (literalCode b).toNat = b.toNat := by
  have := b.isLt
  simp only [literalCode, BitVec.toNat_setWidth]
  omega

theorem literalCode_setWidth (b : Byte) : (literalCode b).setWidth 8 = b := by
  refine BitVec.eq_of_toNat_eq ?_
  have := b.isLt
  rw [BitVec.toNat_setWidth, literalCode_toNat]
  omega

theorem literalCode_of_lt {c : Code} (h : c.toNat < 256) : literalCode (c.setWidth 8) = c := by
  refine BitVec.eq_of_toNat_eq ?_
  rw [literalCode_toNat, BitVec.toNat_setWidth]
  omega

@[simp] theorem wf_nil : Dict.wf [] = true := by decide

/-- The canonical form, entry by entry. -/
theorem wf_iff (d : Dict) :
    d.wf = true ↔ (∀ i e, d[i]? = some e → e.1 = codeOfCount (256 + i)) ∧ 256 + d.length ≤ 4096 := by
  have hl : d.map (·.1) = (List.range d.length).map (fun i => codeOfCount (256 + i)) ↔
      ∀ i e, d[i]? = some e → e.1 = codeOfCount (256 + i) := by
    constructor
    · intro h i e he
      have hi : i < d.length := (List.getElem?_eq_some_iff.1 he).1
      have := congrArg (·[i]?) h
      simpa [List.getElem?_map, he, List.getElem?_range hi] using this
    · intro h
      refine List.ext_getElem? fun i => ?_
      by_cases hi : i < d.length
      · have he : d[i]? = some d[i] := List.getElem?_eq_getElem hi
        simp [List.getElem?_map, List.getElem?_range hi, h i d[i] he, he]
      · simp [hi]
  rw [Dict.wf, Bool.and_eq_true, beq_iff_eq, decide_eq_true_iff]
  exact and_congr hl Iff.rfl

theorem wf_length {d : Dict} (h : d.wf = true) : 256 + d.length ≤ 4096 := ((wf_iff d).1 h).2

theorem wf_code {d : Dict} (h : d.wf = true) {i : Nat} {e : Code × ByteSeq} (he : d[i]? = some e) :
    e.1.toNat = 256 + i := by
  have hi : i < d.length := (List.getElem?_eq_some_iff.1 he).1
  have := wf_length h
  rw [((wf_iff d).1 h).1 i e he, codeOfCount_toNat (by omega)]

/-- An insertion at the next code keeps the canonical form. -/
theorem wf_insert {d : Dict} (h : d.wf = true) (hn : 256 + d.length < 4096) (k : ByteSeq) :
    (d.insert (codeOfCount (256 + d.length)) k).wf = true := by
  rw [wf_iff]
  refine ⟨fun i e he => ?_, by simp [Dict.insert]; omega⟩
  rw [Dict.insert, List.getElem?_append] at he
  split at he
  · exact ((wf_iff d).1 h).1 i e he
  · rename_i hi
    have hid : i - d.length = 0 := by
      by_contra hc
      obtain ⟨j, hj⟩ : ∃ j, i - d.length = j + 1 := ⟨i - d.length - 1, by omega⟩
      simp [hj] at he
    rw [hid] at he
    simp only [List.getElem?_cons_zero, Option.some.injEq] at he
    have hi' : d.length = i := by omega
    rw [← he]
    simp only [hi']

theorem wf_take {d : Dict} (h : d.wf = true) (n : Nat) : Dict.wf (d.take n) = true := by
  rw [wf_iff] at h ⊢
  refine ⟨fun i e he => ?_, by have := h.2; simp; omega⟩
  rw [List.getElem?_take] at he
  split at he
  · exact h.1 i e he
  · simp at he

/-- In canonical form the entry of a learned code stands at its place. -/
theorem seqOf?_learned {d : Dict} (h : d.wf = true) {c : Code} (hc : 256 ≤ c.toNat) :
    d.seqOf? c = (d[c.toNat - 256]?).map (·.2) := by
  rw [Dict.seqOf?, if_neg (by simp [Config.nLiterals]; omega)]
  cases hf : d.find? (fun e => e.1 == c) with
  | none =>
    cases he : d[c.toNat - 256]? with
    | none => rfl
    | some e =>
      have hmem : e ∈ d := List.mem_of_getElem? he
      have hcode := wf_code h he
      have hne := List.find?_eq_none.1 hf e hmem
      refine absurd ?_ hne
      simp only [beq_iff_eq]
      exact BitVec.eq_of_toNat_eq (by omega)
  | some e =>
    have hce : e.1 = c := by simpa using List.find?_some hf
    obtain ⟨i, hi⟩ := List.mem_iff_getElem?.1 (List.mem_of_find?_eq_some hf)
    have hcode := wf_code h hi
    rw [hce] at hcode
    rw [show c.toNat - 256 = i by omega, hi]

theorem seqOf?_literal (d : Dict) {c : Code} (hc : c.toNat < 256) : d.seqOf? c = some [c.setWidth 8] := by
  simp [Dict.seqOf?, Config.nLiterals, hc]

/-- "Present in the dictionary" is the same test as `code < next_code` (10_state.md R37). -/
theorem seqOf?_isSome {d : Dict} (h : d.wf = true) (c : Code) :
    (d.seqOf? c).isSome = true ↔ c.toNat < 256 + d.length := by
  by_cases hc : c.toNat < 256
  · simp [seqOf?_literal d hc]
    omega
  · rw [seqOf?_learned h (by omega)]
    simp
    omega

theorem seqOf?_lt {d : Dict} (h : d.wf = true) {c : Code} {k : ByteSeq} (hk : d.seqOf? c = some k) :
    c.toNat < 256 + d.length := (seqOf?_isSome h c).1 (by simp [hk])

/-- A lookup by code survives an insertion. -/
theorem seqOf?_append (d x : Dict) {c : Code} {k : ByteSeq} (h : d.seqOf? c = some k) :
    Dict.seqOf? (d ++ x) c = some k := by
  unfold Dict.seqOf? at h ⊢
  split
  · simpa [*] using h
  · rw [if_neg (by assumption)] at h
    rw [List.find?_append]
    cases hf : List.find? (fun e => e.1 == c) d with
    | none => simp [hf] at h
    | some e => simpa [hf] using h

/-- A lookup by key survives an insertion. -/
theorem codeOf?_append (d x : Dict) {c : Code} {k : ByteSeq} (h : d.codeOf? k = some c) :
    Dict.codeOf? (d ++ x) k = some c := by
  unfold Dict.codeOf? at h ⊢
  split
  · simpa using h
  · simp only at h
    rw [List.find?_append]
    cases hf : List.find? (fun e => e.2 == k) d with
    | none => simp [hf] at h
    | some e => simpa [hf] using h

theorem seqOf_of_some {d : Dict} {c : Code} {k : ByteSeq} (h : d.seqOf? c = some k) : d.seqOf c = k := by
  simp [Dict.seqOf, h]

theorem codeOf_of_some {d : Dict} {c : Code} {k : ByteSeq} (h : d.codeOf? k = some c) : d.codeOf k = c := by
  simp [Dict.codeOf, h]

/-- The code of a key names that key. -/
theorem seqOf?_of_codeOf? {d : Dict} (h : d.wf = true) {c : Code} {k : ByteSeq} (hk : d.codeOf? k = some c) :
    d.seqOf? c = some k := by
  unfold Dict.codeOf? at hk
  split at hk
  · rename_i b
    obtain rfl := Option.some.inj hk
    rw [seqOf?_literal d (by rw [literalCode_toNat]; exact b.isLt), literalCode_setWidth]
  · cases hf : List.find? (fun e => e.2 == k) d with
    | none => simp [hf] at hk
    | some e =>
      simp only [hf, Option.map_some, Option.some.injEq] at hk
      have hke : e.2 = k := by simpa using List.find?_some hf
      obtain ⟨i, hi⟩ := List.mem_iff_getElem?.1 (List.mem_of_find?_eq_some hf)
      have hcode := wf_code h hi
      rw [hk] at hcode
      rw [seqOf?_learned h (by omega), show c.toNat - 256 = i by omega, hi]
      simp [hke]

/-- What a code names is a key. -/
theorem isKey_of_seqOf? {d : Dict} (h : d.wf = true) {c : Code} {k : ByteSeq} (hk : d.seqOf? c = some k) :
    d.isKey k = true := by
  rw [Dict.isKey]
  unfold Dict.codeOf?
  split
  · rfl
  · rename_i hlit
    by_cases hc : c.toNat < 256
    · rw [seqOf?_literal d hc] at hk
      exact absurd (Option.some.inj hk).symm (hlit _)
    · rw [seqOf?_learned h (by omega)] at hk
      cases he : d[c.toNat - 256]? with
      | none => simp [he] at hk
      | some e =>
        simp only [he, Option.map_some, Option.some.injEq] at hk
        cases hf : List.find? (fun e => e.2 == k) d with
        | none => exact absurd (by simpa using hk) (List.find?_eq_none.1 hf e (List.mem_of_getElem? he))
        | some e => rfl

theorem isKey_iff {d : Dict} (h : d.wf = true) {k : ByteSeq} :
    d.isKey k = true ↔ ∃ c, d.seqOf? c = some k := by
  constructor
  · intro hk
    rw [Dict.isKey, Option.isSome_iff_exists] at hk
    obtain ⟨c, hc⟩ := hk
    exact ⟨c, seqOf?_of_codeOf? h hc⟩
  · rintro ⟨c, hc⟩
    exact isKey_of_seqOf? h hc

theorem isKey_append (d x : Dict) {k : ByteSeq} (h : d.isKey k = true) : Dict.isKey (d ++ x) k = true := by
  rw [Dict.isKey, Option.isSome_iff_exists] at h ⊢
  obtain ⟨c, hc⟩ := h
  exact ⟨c, codeOf?_append d x hc⟩

@[simp] theorem isKey_single (d : Dict) (b : Byte) : d.isKey [b] = true := rfl

theorem codeOf_seq {d : Dict} (h : d.wf = true) {k : ByteSeq} (hk : d.isKey k = true) :
    d.seqOf? (d.codeOf k) = some k := by
  rw [Dict.isKey, Option.isSome_iff_exists] at hk
  obtain ⟨c, hc⟩ := hk
  rw [codeOf_of_some hc]
  exact seqOf?_of_codeOf? h hc

theorem ext_nil : Dict.Extends [] := by
  intro i e he
  simp at he

/-- An insertion of an entry with one byte appended keeps the chain of entries. -/
theorem ext_insert {d : Dict} (h : d.Extends) {c c' : Code} {k : ByteSeq} (b : Byte) (hk : d.seqOf? c = some k) :
    Dict.Extends (d.insert c' (k ++ [b])) := by
  intro i e he
  rw [Dict.insert, List.getElem?_append] at he
  split at he
  · rename_i hi
    have : (d.insert c' (k ++ [b])).take i = d.take i := by
      rw [Dict.insert, List.take_append_of_le_length (by omega)]
    rw [this]
    exact h i e he
  · rename_i hi
    have hid : i = d.length := by
      by_contra hc
      obtain ⟨j, hj⟩ : ∃ j, i - d.length = j + 1 := ⟨i - d.length - 1, by omega⟩
      simp [hj] at he
    subst hid
    simp only [Nat.sub_self, List.getElem?_cons_zero, Option.some.injEq] at he
    refine ⟨c, k, b, ?_, by rw [← he]⟩
    rw [Dict.insert, List.take_append_of_le_length (Nat.le_refl _), List.take_length]
    exact hk

/-- A code names a literal or a learned entry. -/
theorem seqOf?_cases {d : Dict} (h : d.wf = true) {c : Code} {k : ByteSeq} (hk : d.seqOf? c = some k) :
    (c.toNat < 256 ∧ k = [c.setWidth 8]) ∨
      ∃ (i : Nat) (e : Code × ByteSeq), c.toNat = 256 + i ∧ d[i]? = some e ∧ e.2 = k := by
  by_cases hc : c.toNat < 256
  · rw [seqOf?_literal d hc] at hk
    exact .inl ⟨hc, (Option.some.inj hk).symm⟩
  · rw [seqOf?_learned h (by omega)] at hk
    cases he : d[c.toNat - 256]? with
    | none => simp [he] at hk
    | some e =>
      simp only [he, Option.map_some, Option.some.injEq] at hk
      exact .inr ⟨c.toNat - 256, e, by omega, he, hk⟩

/-- "Keys are non-empty byte sequences" (10_state.md R32), and learned ones have two bytes at least. -/
theorem seqOf?_ne_nil {d : Dict} (h : d.wf = true) (hx : d.Extends) {c : Code} {k : ByteSeq} (hk : d.seqOf? c = some k) :
    k ≠ [] := by
  rcases seqOf?_cases h hk with ⟨-, rfl⟩ | ⟨i, e, -, he, rfl⟩
  · simp
  · obtain ⟨c', k', b, -, hb⟩ := hx i e he
    simp [hb]

theorem learned_length {d : Dict} (h : d.wf = true) (hx : d.Extends) {i : Nat} {e : Code × ByteSeq}
    (he : d[i]? = some e) : 2 ≤ e.2.length := by
  obtain ⟨c', k', b, hk, hb⟩ := hx i e he
  have := seqOf?_ne_nil (d := d.take i) (wf_take h i) (c := c') (k := k') (by
    intro j x hj
    have hj' := hj
    rw [List.getElem?_take] at hj'
    split at hj'
    · rw [List.take_take, Nat.min_eq_left (by omega)]
      exact hx j x hj'
    · simp at hj') hk
  rw [hb, List.length_append]
  have := List.length_pos_iff.2 this
  simp
  omega

/-- The dictionary is prefix-closed (10_state.md R35). -/
theorem isKey_of_snoc {d : Dict} (h : d.wf = true) (hx : d.Extends) {k : ByteSeq} {b : Byte} (hne : k ≠ [])
    (hk : d.isKey (k ++ [b]) = true) : d.isKey k = true := by
  obtain ⟨c, hc⟩ := (isKey_iff h).1 hk
  rcases seqOf?_cases h hc with ⟨-, h1⟩ | ⟨i, e, -, he, h1⟩
  · cases k with
    | nil => exact absurd rfl hne
    | cons x k => simp at h1
  · obtain ⟨c', k', b', hk', hb'⟩ := hx i e he
    rw [h1] at hb'
    obtain ⟨rfl, -⟩ := List.append_inj' hb' rfl
    have := isKey_append (d.take i) (d.drop i) (isKey_of_seqOf? (wf_take h i) hk')
    rwa [List.take_append_drop] at this

/-- Every non-empty beginning of a key is a key (10_state.md R35). -/
theorem isKey_of_beginning {d : Dict} (h : d.wf = true) (hx : d.Extends) {x : ByteSeq} (hne : x ≠ []) (t : ByteSeq)
    (hk : d.isKey (x ++ t) = true) : d.isKey x = true := by
  induction t using List.reverseRecOn with
  | nil => simpa using hk
  | append_singleton t b ih =>
    rw [← List.append_assoc] at hk
    exact ih (isKey_of_snoc h hx (by simp [hne]) hk)

theorem codeOf?_of_isKey {d : Dict} {k : ByteSeq} (h : d.isKey k = true) : d.codeOf? k = some (d.codeOf k) := by
  rw [Dict.isKey, Option.isSome_iff_exists] at h
  obtain ⟨c, hc⟩ := h
  rw [hc, codeOf_of_some hc]

/-- In a dictionary with distinct keys a sequence has one code. -/
theorem code_unique {d : Dict} (h : d.wf = true) (hx : d.Extends) (hn : (d.map (·.2)).Nodup) {c c' : Code} {k : ByteSeq}
    (hc : d.seqOf? c = some k) (hc' : d.seqOf? c' = some k) : c = c' := by
  have hlit : ∀ {c : Code} {b : Byte} {i : Nat} {e : Code × ByteSeq}, d[i]? = some e → e.2 = [b] → False := by
    intro _ b i e he hb
    have := learned_length h hx he
    simp [hb] at this
  rcases seqOf?_cases h hc with ⟨h1, hk1⟩ | ⟨i, e, h1, he, hk1⟩ <;>
    rcases seqOf?_cases h hc' with ⟨h2, hk2⟩ | ⟨j, e', h2, he', hk2⟩
  · rw [hk1] at hk2
    have := List.singleton_inj.1 hk2
    rw [← literalCode_of_lt h1, ← literalCode_of_lt h2, this]
  · exact (hlit (c := c) he' (hk2.trans hk1)).elim
  · exact (hlit (c := c) he (hk1.trans hk2)).elim
  · have hi : (d.map (·.2))[i]? = some k := by simp [he, hk1]
    have hj : (d.map (·.2))[j]? = some k := by simp [he', hk2]
    have hlt : i < (d.map (·.2)).length := (List.getElem?_eq_some_iff.1 hi).1
    have : i = j := (List.getElem?_inj hlt hn).1 (hi.trans hj.symm)
    exact BitVec.eq_of_toNat_eq (by omega)

end Sys2Proof.Machine
end

