-- ==== Sys2Proof/Laws/Packer.lean ====
section
/-! SUPPORT. What the packer's operations do to the bits it has accepted (40_bit_packer.md R101, R102, R104). -/

namespace Sys2Proof.Machine

theorem pkPending_length (p : Pk) : (pkPending p).length = p.cnt := by simp [pkPending]

theorem pkBits_length (p : Pk) : (pkBits p).length = 8 * p.out.data.length + p.cnt := by
  simp [pkBits, pkPending_length]

@[simp] theorem pkBits_fresh (p : Pk) : pkBits (freshPk p) = [] := rfl

theorem pkInv_fresh (p : Pk) : PkInv (freshPk p) := ⟨Nat.zero_le _, Nat.one_pos, Nat.le_refl _⟩

@[simp] theorem sinkAppend_data (k : Sink) (b : Byte) : (sinkAppend k b).data = k.data ++ [b] := rfl

@[simp] theorem sinkAppend_taken (k : Sink) (b : Byte) : (sinkAppend k b).taken = k.taken := rfl

@[simp] theorem sinkAppend_backlog (k : Sink) (b : Byte) : (sinkAppend k b).backlog = k.backlog := rfl

theorem sinkAppendAll_eq (k : Sink) (e : ByteSeq) : sinkAppendAll k e = { k with data := k.data ++ e } := by
  induction e generalizing k with
  | nil => simp [sinkAppendAll]
  | cons b e ih =>
    rw [show sinkAppendAll k (b :: e) = sinkAppendAll (sinkAppend k b) e from rfl, ih]
    simp [sinkAppend]

/-- The accumulator of the packer with one more bit shifted in. -/
def pkShifted (p : Pk) (b : Bool) : Byte := (p.acc <<< 1) ||| (BitVec.ofBool b).setWidth 8

theorem pkShifted_bits (p : Pk) (b : Bool) (h : p.cnt ≤ 7) :
    codeBits ((pkShifted p b).setWidth 12) (p.cnt + 1) = pkPending p ++ [b] := by
  refine codeBits_shiftIn ?_ fun i hi => ?_
  · simp [pkShifted]
  · have h8 : i + 1 < 8 := by omega
    have h12 : i + 1 < 12 := by omega
    have h12' : i < 12 := by omega
    simp [pkShifted, h8, h12, h12', BitVec.getLsbD_eq_getElem (by omega : i < 8)]

theorem pkShifted_lt (p : Pk) (b : Bool) (hi : p.acc.toNat < 2 ^ p.cnt) (h : p.cnt ≤ 7) :
    (pkShifted p b).toNat < 2 ^ (p.cnt + 1) := by
  have hpow : 2 ^ (p.cnt + 1) ≤ 2 ^ 8 := Nat.pow_le_pow_right (by decide) (by omega)
  have hs : (p.acc <<< 1).toNat < 2 ^ (p.cnt + 1) := by
    rw [BitVec.toNat_shiftLeft, Nat.shiftLeft_eq]
    refine lt_of_le_of_lt (Nat.mod_le _ _) ?_
    rw [pow_succ]
    omega
  have hb : ((BitVec.ofBool b).setWidth 8).toNat < 2 ^ (p.cnt + 1) := by
    have : 2 ≤ 2 ^ (p.cnt + 1) := by
      rw [pow_succ]
      have := Nat.one_le_two_pow (n := p.cnt)
      omega
    cases b <;> simp
  rw [pkShifted, BitVec.toNat_or]
  exact Nat.or_lt_two_pow hs hb

/-- One turn of the loop of `PK.WRITE` accepts one bit. -/
theorem pkPutBit_spec (p : Pk) (b : Bool) (h : PkInv p) :
    PkInv (pkPutBit p b) ∧ pkBits (pkPutBit p b) = pkBits p ++ [b] ∧ (pkPutBit p b).out.taken = p.out.taken ∧
      p.out.data <+: (pkPutBit p b).out.data := by
  have hbits := pkShifted_bits p b h.cnt_le
  have hlt := pkShifted_lt p b h.acc_lt h.cnt_le
  by_cases h7 : p.cnt + 1 = 8
  · have heq : pkPutBit p b = { acc := 0#8, cnt := 0, out := sinkAppend p.out (pkShifted p b) } := by
      simp [pkPutBit, h7, pkShifted]
    rw [heq]
    refine ⟨⟨by simp, by simp, ?_⟩, ?_, rfl, ⟨_, rfl⟩⟩
    · have := h.taken_le
      simp
      omega
    · rw [h7] at hbits
      simp [pkBits, pkPending, byteBits, hbits]
  · have heq : pkPutBit p b = { p with acc := pkShifted p b, cnt := p.cnt + 1 } := by
      simp [pkPutBit, h7, pkShifted]
    rw [heq]
    refine ⟨⟨?_, hlt, h.taken_le⟩, ?_, rfl, List.prefix_rfl⟩
    · have := h.cnt_le
      simp
      omega
    · rw [pkBits, pkPending]
      simp [hbits, pkBits]

/-- `PK.WRITE` accepts the low `width` bits of the code, most significant first (R101). -/
theorem pkPutCode_spec (p : Pk) (c : Code) (w : Nat) (h : PkInv p) :
    PkInv (pkPutCode p c w) ∧ pkBits (pkPutCode p c w) = pkBits p ++ codeBits c w ∧
      (pkPutCode p c w).out.taken = p.out.taken ∧ p.out.data <+: (pkPutCode p c w).out.data := by
  induction w generalizing p with
  | zero => exact ⟨h, by simp [pkPutCode], rfl, List.prefix_rfl⟩
  | succ w ih =>
    obtain ⟨h1, h2, h3, h4⟩ := pkPutBit_spec p (c.getLsbD w) h
    obtain ⟨g1, g2, g3, g4⟩ := ih _ h1
    refine ⟨g1, ?_, g3.trans h3, h4.trans g4⟩
    rw [pkPutCode, g2, h2, codeBits]
    simp

/-- Writing only appends to the sink, in every state (20_memory.md R51). -/
theorem pkPutCode_appends (p : Pk) (c : Code) (w : Nat) : p.out.data <+: (pkPutCode p c w).out.data := by
  induction w generalizing p with
  | zero => exact List.prefix_rfl
  | succ w ih =>
    have hb : p.out.data <+: (pkPutBit p (c.getLsbD w)).out.data := by
      simp only [pkPutBit]
      split
      · exact ⟨_, rfl⟩
      · exact List.prefix_rfl
    exact hb.trans (ih _)

/-- Flushing only appends to the sink, in every state (20_memory.md R51). -/
theorem pkFlushed_appends (p : Pk) : p.out.data <+: (pkFlushed p).out.data := by
  unfold pkFlushed
  split
  · exact ⟨_, rfl⟩
  · exact List.prefix_rfl

/-- Writing and flushing leave the output port's side of the sink alone (20_memory.md R66). -/
theorem pkPutCode_port (p : Pk) (c : Code) (w : Nat) :
    (pkPutCode p c w).out.taken = p.out.taken ∧ (pkPutCode p c w).out.backlog = p.out.backlog := by
  induction w generalizing p with
  | zero => exact ⟨rfl, rfl⟩
  | succ w ih =>
    obtain ⟨h1, h2⟩ := ih (pkPutBit p (c.getLsbD w))
    rw [pkPutCode, h1, h2]
    simp only [pkPutBit]
    split <;> exact ⟨rfl, rfl⟩

theorem pkFlushed_port (p : Pk) :
    (pkFlushed p).out.taken = p.out.taken ∧ (pkFlushed p).out.backlog = p.out.backlog := by
  unfold pkFlushed
  split <;> exact ⟨rfl, rfl⟩

/-- The closed form of the counters (R101): `(k + width) mod 8` bits stay pending, `floor((k + width) / 8)` bytes go out. -/
theorem pkPutCode_counts (p : Pk) (c : Code) (w : Nat) (h : PkInv p) :
    (pkPutCode p c w).cnt = (p.cnt + w) % 8 ∧
      (pkPutCode p c w).out.data.length = p.out.data.length + (p.cnt + w) / 8 := by
  obtain ⟨h1, h2, -, -⟩ := pkPutCode_spec p c w h
  have hl := congrArg List.length h2
  rw [pkBits_length, List.length_append, pkBits_length, codeBits_length] at hl
  have := h1.cnt_le
  have := h.cnt_le
  omega

theorem pkPutCode_congr (p : Pk) {c c' : Code} {w : Nat} (h : ∀ i, i < w → c.getLsbD i = c'.getLsbD i) :
    pkPutCode p c w = pkPutCode p c' w := by
  induction w generalizing p with
  | zero => rfl
  | succ w ih =>
    rw [pkPutCode, pkPutCode, h w (Nat.lt_succ_self w)]
    exact ih _ fun i hi => h i (Nat.lt_succ_of_lt hi)

/-- `PK.FLUSH` puts the pending bits at the top of the final byte and zeros below (R102). -/
theorem flushedByte_bits (acc : Byte) (cnt : Nat) (h : cnt ≤ 7) :
    byteBits (acc <<< (8 - cnt)) = codeBits (acc.setWidth 12) cnt ++ List.replicate (8 - cnt) false := by
  have hd : ∀ acc : Byte, ∀ k : Fin 8,
      byteBits (acc <<< (8 - k.val)) = codeBits (acc.setWidth 12) k.val ++ List.replicate (8 - k.val) false := by
    intro acc k
    fin_cases k <;> simp [byteBits, codeBits, List.replicate]
  exact hd acc ⟨cnt, by omega⟩

/-- After a flush nothing is pending and the sink holds every accepted bit, then `(8 - cnt) mod 8` zeros (R102). -/
theorem pkFlushed_spec (p : Pk) (h : PkInv p) :
    PkInv (pkFlushed p) ∧ (pkFlushed p).cnt = 0 ∧ (pkFlushed p).acc = 0#8 ∧
      streamBits (pkFlushed p).out.data = pkBits p ++ List.replicate ((8 - p.cnt) % 8) false ∧
      (pkFlushed p).out.taken = p.out.taken ∧ p.out.data <+: (pkFlushed p).out.data := by
  have hc := h.cnt_le
  by_cases h0 : 0 < p.cnt
  · have heq : pkFlushed p = { acc := 0#8, cnt := 0, out := sinkAppend p.out (p.acc <<< (8 - p.cnt)) } := by
      simp [pkFlushed, h0]
    rw [heq]
    refine ⟨⟨by simp, by simp, ?_⟩, rfl, rfl, ?_, rfl, ⟨_, rfl⟩⟩
    · have := h.taken_le
      simp
      omega
    · rw [Nat.mod_eq_of_lt (by omega : 8 - p.cnt < 8)]
      simp [flushedByte_bits _ _ hc, pkBits, pkPending]
  · have hz : p.cnt = 0 := by omega
    have hacc : p.acc = 0#8 := by
      have := h.acc_lt
      rw [hz] at this
      exact BitVec.eq_of_toNat_eq (by simp at this; simp [this])
    have heq : pkFlushed p = p := by simp [pkFlushed, h0]
    rw [heq]
    exact ⟨h, hz, hacc, by simp [pkBits, pkPending, hz], rfl, List.prefix_rfl⟩

/-- The sink of a flushed packer has just enough bytes for the accepted bits (R104). -/
theorem pkFlushed_length (p : Pk) (h : PkInv p) :
    (pkFlushed p).out.data.length = ((pkBits p).length + 7) / 8 := by
  obtain ⟨-, -, -, h2, -, -⟩ := pkFlushed_spec p h
  have hl := congrArg List.length h2
  rw [streamBits_length, List.length_append, List.length_replicate] at hl
  have hb := pkBits_length p
  have := h.cnt_le
  omega

end Sys2Proof.Machine
end

