-- ==== Sys2Proof/Laws/State.lean ====
section
/-! SUPPORT. One law per field per update of State, true by definition, so that no later proof unfolds a record update;
and the laws of repeated updates. -/

namespace Sys2Proof.Machine

@[simp] theorem setPk_pk (s : State) (p : Pk) : (s.setPk p).pk = p := rfl
@[simp] theorem setPk_up (s : State) (p : Pk) : (s.setPk p).up = s.up := rfl
@[simp] theorem setPk_enc (s : State) (p : Pk) : (s.setPk p).enc = s.enc := rfl
@[simp] theorem setPk_dec (s : State) (p : Pk) : (s.setPk p).dec = s.dec := rfl
@[simp] theorem setPk_result (s : State) (p : Pk) : (s.setPk p).result = s.result := rfl
@[simp] theorem setPk_events (s : State) (p : Pk) : (s.setPk p).events = s.events := rfl

@[simp] theorem setUp_pk (s : State) (u : Up) : (s.setUp u).pk = s.pk := rfl
@[simp] theorem setUp_up (s : State) (u : Up) : (s.setUp u).up = u := rfl
@[simp] theorem setUp_enc (s : State) (u : Up) : (s.setUp u).enc = s.enc := rfl
@[simp] theorem setUp_dec (s : State) (u : Up) : (s.setUp u).dec = s.dec := rfl
@[simp] theorem setUp_result (s : State) (u : Up) : (s.setUp u).result = s.result := rfl
@[simp] theorem setUp_events (s : State) (u : Up) : (s.setUp u).events = s.events := rfl

@[simp] theorem setEnc_pk (s : State) (e : Enc) : (s.setEnc e).pk = s.pk := rfl
@[simp] theorem setEnc_up (s : State) (e : Enc) : (s.setEnc e).up = s.up := rfl
@[simp] theorem setEnc_enc (s : State) (e : Enc) : (s.setEnc e).enc = e := rfl
@[simp] theorem setEnc_dec (s : State) (e : Enc) : (s.setEnc e).dec = s.dec := rfl
@[simp] theorem setEnc_result (s : State) (e : Enc) : (s.setEnc e).result = s.result := rfl
@[simp] theorem setEnc_events (s : State) (e : Enc) : (s.setEnc e).events = s.events := rfl

@[simp] theorem setDec_pk (s : State) (d : Dec) : (s.setDec d).pk = s.pk := rfl
@[simp] theorem setDec_up (s : State) (d : Dec) : (s.setDec d).up = s.up := rfl
@[simp] theorem setDec_enc (s : State) (d : Dec) : (s.setDec d).enc = s.enc := rfl
@[simp] theorem setDec_dec (s : State) (d : Dec) : (s.setDec d).dec = d := rfl
@[simp] theorem setDec_result (s : State) (d : Dec) : (s.setDec d).result = s.result := rfl
@[simp] theorem setDec_events (s : State) (d : Dec) : (s.setDec d).events = s.events := rfl

@[simp] theorem setResult_pk (s : State) (r : OpResult) : (s.setResult r).pk = s.pk := rfl
@[simp] theorem setResult_up (s : State) (r : OpResult) : (s.setResult r).up = s.up := rfl
@[simp] theorem setResult_enc (s : State) (r : OpResult) : (s.setResult r).enc = s.enc := rfl
@[simp] theorem setResult_dec (s : State) (r : OpResult) : (s.setResult r).dec = s.dec := rfl
@[simp] theorem setResult_result (s : State) (r : OpResult) : (s.setResult r).result = r := rfl
@[simp] theorem setResult_events (s : State) (r : OpResult) : (s.setResult r).events = s.events := rfl

@[simp] theorem setEvents_pk (s : State) (es : List HostEvent) : (s.setEvents es).pk = s.pk := rfl
@[simp] theorem setEvents_up (s : State) (es : List HostEvent) : (s.setEvents es).up = s.up := rfl
@[simp] theorem setEvents_enc (s : State) (es : List HostEvent) : (s.setEvents es).enc = s.enc := rfl
@[simp] theorem setEvents_dec (s : State) (es : List HostEvent) : (s.setEvents es).dec = s.dec := rfl
@[simp] theorem setEvents_result (s : State) (es : List HostEvent) : (s.setEvents es).result = s.result := rfl
@[simp] theorem setEvents_events (s : State) (es : List HostEvent) : (s.setEvents es).events = es := rfl

@[simp] theorem setPk_setPk (s : State) (p p' : Pk) : (s.setPk p).setPk p' = s.setPk p' := rfl
@[simp] theorem setPk_self (s : State) : s.setPk s.pk = s := rfl
@[simp] theorem setUp_setUp (s : State) (u u' : Up) : (s.setUp u).setUp u' = s.setUp u' := rfl
@[simp] theorem setUp_self (s : State) : s.setUp s.up = s := rfl
@[simp] theorem setEnc_setEnc (s : State) (e e' : Enc) : (s.setEnc e).setEnc e' = s.setEnc e' := rfl
@[simp] theorem setEnc_self (s : State) : s.setEnc s.enc = s := rfl
@[simp] theorem setDec_setDec (s : State) (d d' : Dec) : (s.setDec d).setDec d' = s.setDec d' := rfl
@[simp] theorem setDec_self (s : State) : s.setDec s.dec = s := rfl
@[simp] theorem setResult_setResult (s : State) (r r' : OpResult) : (s.setResult r).setResult r' = s.setResult r' := rfl
@[simp] theorem setResult_self (s : State) : s.setResult s.result = s := rfl
@[simp] theorem setEvents_setEvents (s : State) (es es' : List HostEvent) : (s.setEvents es).setEvents es' = s.setEvents es' := rfl
@[simp] theorem setEvents_self (s : State) : s.setEvents s.events = s := rfl

/-- A state is its six fields. -/
theorem state_ext {s t : State} (hpk : s.pk = t.pk) (hup : s.up = t.up) (henc : s.enc = t.enc) (hdec : s.dec = t.dec)
    (hres : s.result = t.result) (hev : s.events = t.events) : s = t := by
  cases s
  cases t
  simp_all

/-- The direct use of a bit channel is gated by the owning coder's registers alone. -/
@[simp] theorem encInProgress_eq_false {s : State} :
    s.encInProgress = false ↔ s.enc.phase = .done ∨ s.enc.curMatch = [] := by
  cases h : s.enc.phase <;> simp [State.encInProgress, h]

@[simp] theorem decInProgress_eq_false {s : State} :
    s.decInProgress = false ↔ s.dec.phase ≠ .run ∨ s.dec.prev = none := by
  cases h : s.dec.phase <;> simp [State.decInProgress, h]

end Sys2Proof.Machine
end

