-- ==== Sys2Proof/Laws/Encoder.lean ====
section
/-! SUPPORT. What the encoder does with one byte, and that it keeps its invariant (42_lzw_encoder.md R122 to R131). -/

namespace Sys2Proof.Machine

/-- Promotion moves from one range of `WidthFor` to the next (00_scope.md R13). -/
theorem nextWidth_widthFor {n : Nat} (h : n ≤ 4096) :
    nextWidth (widthFor n) (n + 1) Config.maxWidth = widthFor (n + 1) := by
  have : n ≤ 510 ∨ n = 511 ∨ (512 ≤ n ∧ n ≤ 1022) ∨ n = 1023 ∨ (1024 ≤ n ∧ n ≤ 2046) ∨ n = 2047 ∨ 2048 ≤ n := by
    omega
  rcases this with h1 | h1 | h1 | h1 | h1 | h1 | h1
  · simp [widthFor, nextWidth, CodeWidth.toNat, Config.maxWidth, show n ≤ 511 by omega, show n + 1 ≤ 511 by omega]
    omega
  · subst h1; decide
  · simp [widthFor, nextWidth, CodeWidth.toNat, Config.maxWidth, show ¬ n ≤ 511 by omega, show n ≤ 1023 by omega,
      show ¬ n + 1 ≤ 511 by omega, show n + 1 ≤ 1023 by omega]
    omega
  · subst h1; decide
  · simp [widthFor, nextWidth, CodeWidth.toNat, Config.maxWidth, show ¬ n ≤ 511 by omega, show ¬ n ≤ 1023 by omega,
      show n ≤ 2047 by omega, show ¬ n + 1 ≤ 511 by omega, show ¬ n + 1 ≤ 1023 by omega, show n + 1 ≤ 2047 by omega]
    omega
  · subst h1; decide
  · simp [widthFor, nextWidth, CodeWidth.toNat, Config.maxWidth, show ¬ n ≤ 511 by omega, show ¬ n ≤ 1023 by omega,
      show ¬ n ≤ 2047 by omega, show ¬ n + 1 ≤ 511 by omega, show ¬ n + 1 ≤ 1023 by omega, show ¬ n + 1 ≤ 2047 by omega]

/-- A count fits the width that belongs to it (R130). -/
theorem le_two_pow_widthFor {n : Nat} (h : n ≤ 4096) :
    n ≤ 2 ^ (widthFor n).toNat ∧ ((widthFor n).toNat < 12 → n + 1 ≤ 2 ^ (widthFor n).toNat) := by
  unfold widthFor
  split_ifs <;> simp [CodeWidth.toNat] <;> omega

theorem widthFor_mono {m n : Nat} (h : m ≤ n) : (widthFor m).toNat ≤ (widthFor n).toNat := by
  unfold widthFor
  split_ifs <;> simp [CodeWidth.toNat] <;> omega

theorem encInv_restarted (e : Enc) (h : e.src.pos ≤ e.src.data.length) : EncInv (restartedEnc e) :=
  ⟨wf_nil, rfl, by simp [restartedEnc], ext_nil, rfl, .inl rfl, h⟩

/-- Every case of `ENC.BYTE` on the encoder's registers (R122, R123). -/
theorem encAccept_cases (e : Enc) (b : Byte) :
    (e.curMatch = [] ∧ encAccept e b = ({ e with curMatch := [b] }, none)) ∨
      (e.curMatch ≠ [] ∧ e.dict.isKey (e.curMatch ++ [b]) = true ∧
        encAccept e b = ({ e with curMatch := e.curMatch ++ [b] }, none)) ∨
      (e.curMatch ≠ [] ∧ e.dict.isKey (e.curMatch ++ [b]) = false ∧
        encAccept e b = ({ encLearn e (e.curMatch ++ [b]) with curMatch := [b] }, some (encEmitted e))) := by
  by_cases h : e.curMatch = []
  · exact .inl ⟨h, by simp [encAccept, h]⟩
  · cases hk : e.dict.isKey (e.curMatch ++ [b]) with
    | true => exact .inr (.inl ⟨h, rfl, by simp [encAccept, h, hk]⟩)
    | false => exact .inr (.inr ⟨h, rfl, by simp [encAccept, h, hk]⟩)

/-- The encoder after an insertion (R123 (ii), (iii)). -/
theorem encLearn_lt {e : Enc} (cand : ByteSeq) (h : e.nextCode < 4096) :
    encLearn e cand =
      { e with
        dict := e.dict.insert (codeOfCount e.nextCode) cand
        nextCode := e.nextCode + 1
        width := nextWidth e.width (e.nextCode + 1) Config.maxWidth } := by
  simp [encLearn, Config.capacity, Config.maxWidth, h]

/-- At capacity nothing is inserted (R129). -/
theorem encLearn_ge {e : Enc} (cand : ByteSeq) (h : 4096 ≤ e.nextCode) : encLearn e cand = e := by
  have : ¬ e.nextCode < 4096 := by omega
  simp [encLearn, Config.capacity, Config.maxWidth, this]

theorem EncInv.next_le {e : Enc} (h : EncInv e) : 256 ≤ e.nextCode ∧ e.nextCode ≤ 4096 := by
  have := wf_length h.dict_wf
  have := h.next_eq
  simp only [Config.firstCode] at this
  omega

theorem EncInv.match_isKey {e : Enc} (h : EncInv e) (hm : e.curMatch ≠ []) : e.dict.isKey e.curMatch = true :=
  h.match_key.resolve_left hm

/-- The code the encoder writes names its match (R123 (i)). -/
theorem encEmitted_seq {e : Enc} (h : EncInv e) (hm : e.curMatch ≠ []) :
    e.dict.seqOf? (encEmitted e).1 = some e.curMatch := codeOf_seq h.dict_wf (h.match_isKey hm)

theorem encEmitted_lt_next {e : Enc} (h : EncInv e) (hm : e.curMatch ≠ []) : (encEmitted e).1.toNat < e.nextCode := by
  have := seqOf?_lt h.dict_wf (encEmitted_seq h hm)
  have := h.next_eq
  simp only [Config.firstCode] at this
  omega

/-- Every code the encoder writes fits its width (R131). -/
theorem encEmitted_fits {e : Enc} (h : EncInv e) (hm : e.curMatch ≠ []) :
    (encEmitted e).1.toNat < 2 ^ (encEmitted e).2.toNat := by
  have h1 := encEmitted_lt_next h hm
  have h2 := (le_two_pow_widthFor h.next_le.2).1
  rw [← h.width_eq] at h2
  exact Nat.lt_of_lt_of_le h1 h2

/-- An insertion of a candidate that is no key keeps the encoder's invariant, whatever one-byte match follows. -/
theorem encInv_learn {e : Enc} (h : EncInv e) {b : Byte} (hm : e.curMatch ≠ [])
    (hk : e.dict.isKey (e.curMatch ++ [b]) = false) :
    EncInv { encLearn e (e.curMatch ++ [b]) with curMatch := [b] } := by
  have hn := h.next_le
  have heq := h.next_eq
  simp only [Config.firstCode] at heq
  by_cases hlt : e.nextCode < 4096
  · rw [encLearn_lt _ hlt]
    refine ⟨?_, ?_, ?_, ext_insert h.ext b (encEmitted_seq h hm), ?_, .inr (isKey_single _ b), h.pos_le⟩
    · simp only [heq]
      exact wf_insert h.dict_wf (by omega) _
    · simp [Dict.insert, Config.firstCode]
      omega
    · simp only [Dict.insert, List.map_append, List.map_cons, List.map_nil]
      rw [List.nodup_append]
      refine ⟨h.keys_nodup, by simp, ?_⟩
      intro k hmem k' hk' hkk
      obtain rfl : k' = e.curMatch ++ [b] := by simpa using hk'
      subst hkk
      rw [List.mem_map] at hmem
      obtain ⟨x, hx, hxk⟩ := hmem
      obtain ⟨i, hi⟩ := List.mem_iff_getElem?.1 hx
      have hcode := wf_code h.dict_wf hi
      have : e.dict.seqOf? x.1 = some (e.curMatch ++ [b]) := by
        rw [seqOf?_learned h.dict_wf (by omega), show x.1.toNat - 256 = i by omega, hi]
        simp [hxk]
      rw [isKey_of_seqOf? h.dict_wf this] at hk
      cases hk
    · rw [h.width_eq]
      exact nextWidth_widthFor hn.2
  · rw [encLearn_ge _ (by omega)]
    exact ⟨h.dict_wf, h.next_eq, h.keys_nodup, h.ext, h.width_eq, .inr (isKey_single _ b), h.pos_le⟩

/-- `ENC.BYTE` keeps the encoder's invariant. -/
theorem encAccept_inv {e : Enc} (h : EncInv e) (b : Byte) : EncInv (encAccept e b).1 := by
  rcases encAccept_cases e b with ⟨-, heq⟩ | ⟨-, hk, heq⟩ | ⟨hm, hk, heq⟩ <;> rw [heq]
  · exact ⟨h.dict_wf, h.next_eq, h.keys_nodup, h.ext, h.width_eq, .inr (isKey_single _ b), h.pos_le⟩
  · exact ⟨h.dict_wf, h.next_eq, h.keys_nodup, h.ext, h.width_eq, .inr hk, h.pos_le⟩
  · exact encInv_learn h hm hk

/-- `ENC.BYTE` leaves the phase and the source alone. -/
theorem encAccept_frame (e : Enc) (b : Byte) : (encAccept e b).1.phase = e.phase ∧ (encAccept e b).1.src = e.src := by
  rcases encAccept_cases e b with ⟨-, heq⟩ | ⟨-, -, heq⟩ | ⟨-, -, heq⟩ <;> rw [heq] <;>
    (simp [encLearn]; try (split <;> simp))

theorem encAccept_match_ne (e : Enc) (b : Byte) : (encAccept e b).1.curMatch ≠ [] := by
  rcases encAccept_cases e b with ⟨-, heq⟩ | ⟨-, -, heq⟩ | ⟨-, -, heq⟩ <;> rw [heq] <;> simp

/-- `ENC.BYTE` only appends to the dictionary (10_state.md R33), and the width never decreases (R31). -/
theorem encAccept_grows (e : Enc) (b : Byte) :
    e.dict <+: (encAccept e b).1.dict ∧ e.width.toNat ≤ (encAccept e b).1.width.toNat := by
  have hw : ∀ w : CodeWidth, ∀ n m, w.toNat ≤ (nextWidth w n m).toNat := by
    intro w n m
    unfold nextWidth
    split
    · cases w <;> decide
    · exact Nat.le_refl _
  rcases encAccept_cases e b with ⟨-, heq⟩ | ⟨-, -, heq⟩ | ⟨-, -, heq⟩ <;> rw [heq]
  · exact ⟨List.prefix_rfl, Nat.le_refl _⟩
  · exact ⟨List.prefix_rfl, Nat.le_refl _⟩
  · by_cases hlt : e.nextCode < 4096
    · rw [encLearn_lt _ hlt]
      exact ⟨⟨_, rfl⟩, hw _ _ _⟩
    · rw [encLearn_ge _ (by omega)]
      exact ⟨List.prefix_rfl, Nat.le_refl _⟩

/-- Writing what the encoder writes keeps the packer's invariant and appends the code word's bits. -/
theorem pkPutEmitted_spec (p : Pk) (o : Option (Code × CodeWidth)) (h : PkInv p) :
    PkInv (pkPutEmitted p o) ∧ pkBits (pkPutEmitted p o) = pkBits p ++ codeWordsBits o.toList ∧
      p.out.data <+: (pkPutEmitted p o).out.data := by
  cases o with
  | none => exact ⟨h, by simp [pkPutEmitted], List.prefix_rfl⟩
  | some cw =>
    obtain ⟨c, w⟩ := cw
    obtain ⟨h1, h2, -, h4⟩ := pkPutCode_spec p c w.toNat h
    exact ⟨h1, by simpa [pkPutEmitted] using h2, h4⟩

/-! Runs of the encoder over many bytes. -/

theorem encAcceptAll_inv {e : Enc} (h : EncInv e) (bs : ByteSeq) : EncInv (encAcceptAll e bs).1 := by
  induction bs generalizing e with
  | nil => exact h
  | cons b bs ih => exact ih (encAccept_inv h b)

/-- Put a list of code words into the packer. -/
def pkPutAll (p : Pk) (cs : List (Code × CodeWidth)) : Pk := cs.foldl (fun p cw => pkPutCode p cw.1 cw.2.toNat) p

theorem pkPutAll_spec (p : Pk) (cs : List (Code × CodeWidth)) (h : PkInv p) :
    PkInv (pkPutAll p cs) ∧ pkBits (pkPutAll p cs) = pkBits p ++ codeWordsBits cs := by
  induction cs generalizing p with
  | nil => exact ⟨h, by simp [pkPutAll]⟩
  | cons cw cs ih =>
    obtain ⟨h1, h2, -, -⟩ := pkPutCode_spec p cw.1 cw.2.toNat h
    obtain ⟨g1, g2⟩ := ih _ h1
    exact ⟨g1, by rw [show pkPutAll p (cw :: cs) = pkPutAll (pkPutCode p cw.1 cw.2.toNat) cs from rfl, g2, h2]; simp [codeWordsBits]⟩

theorem pkPutAll_append (p : Pk) (cs ds : List (Code × CodeWidth)) :
    pkPutAll p (cs ++ ds) = pkPutAll (pkPutAll p cs) ds := by simp [pkPutAll]

theorem pkPutEmitted_eq (p : Pk) (o : Option (Code × CodeWidth)) : pkPutEmitted p o = pkPutAll p o.toList := by
  cases o with
  | none => rfl
  | some cw => rfl

/-- A run of `ENC.BYTE` in phase `RUN`, on the state. -/
theorem encByteRun_foldl (bs : ByteSeq) (s : State) :
    bs.foldl (fun s b => encByteRun b s) s =
      (s.setEnc (encAcceptAll s.enc bs).1).setPk (pkPutAll s.pk (encAcceptAll s.enc bs).2) := by
  induction bs generalizing s with
  | nil => rfl
  | cons b bs ih =>
    rw [List.foldl_cons, ih]
    simp [encByteRun, encAcceptAll, pkPutAll_append, pkPutEmitted_eq]
    rfl

end Sys2Proof.Machine
end

