-- ==== Sys2Proof/Laws/Unpacker.lean ====
section
/-! SUPPORT. What reading does to the bits the unpacker can deliver (41_bit_unpacker.md R111). -/

namespace Sys2Proof.Machine

/-- What holds of the unpacker inside `UP.READ`, where `UP.left` may be 8 for an instant (10_state.md R28). -/
structure UpMid (u : Up) : Prop where
  left_le : u.left ≤ 8
  buf_low : 2 ^ (8 - u.left) ∣ u.buf.toNat
  pos_le : u.src.pos ≤ u.src.data.length

theorem UpInv.mid {u : Up} (h : UpInv u) : UpMid u := ⟨by have := h.left_le; omega, h.buf_low, h.pos_le⟩

theorem upInv_restarted (u : Up) : UpInv (restartedUp u) := ⟨by simp [restartedUp], by simp [restartedUp], by simp [restartedUp], by simp [restartedUp, attachedSource]⟩

theorem upBits_length {u : Up} (h : u.left ≤ 8) :
    (upBits u).length = upBitsAvailable u := by
  simp [upBits, upPending, sourceRest, upBitsAvailable, h]

/-- What a restarted unpacker can deliver: the whole source the host attached, or nothing yet of a fed one. -/
@[simp] theorem upBits_restarted (u : Up) :
    upBits (restartedUp u) = streamBits (if u.fed then [] else u.src.data) := by
  simp [upBits, upPending, restartedUp, sourceRest, attachedSource]

/-- Shifting the buffer left drops its first bit. -/
theorem byteBits_shift (b : Byte) : byteBits b = b.getLsbD 7 :: (byteBits (b <<< 1)).take 7 := by
  simp [byteBits, codeBits]

theorem srcNext_none {src : Source} (h : sourceRest src = []) : srcNext src = (none, src) := by
  have : src.data[src.pos]? = none := by
    rw [List.getElem?_eq_none_iff]
    simpa [sourceRest] using h
  simp [srcNext, this]

theorem srcNext_some {src : Source} {b : Byte} {r : ByteSeq} (h : sourceRest src = b :: r) :
    srcNext src = (some b, { src with pos := src.pos + 1 }) ∧ sourceRest { src with pos := src.pos + 1 } = r ∧
      src.pos + 1 ≤ src.data.length := by
  have hb : src.data[src.pos]? = some b := by
    have := congrArg (·[0]?) h
    simpa [sourceRest] using this
  refine ⟨by simp [srcNext, hb], ?_, ?_⟩
  · have := congrArg List.tail h
    simpa [sourceRest, List.tail_drop] using this
  · have := (List.getElem?_eq_some_iff.1 hb).1
    omega

/-- Taking the top bit of a buffer that has one. -/
theorem upTakeBit_spec {u : Up} {k : Nat} (hk : u.left = k + 1) (h : UpMid u) :
    upBits u = (upTakeBit u).1 :: upBits (upTakeBit u).2 ∧ UpMid (upTakeBit u).2 ∧ (upTakeBit u).2.left = k ∧
      (upTakeBit u).2.src = u.src ∧ (upTakeBit u).2.eos = u.eos := by
  have hk8 : k ≤ 7 := by have := h.left_le; omega
  refine ⟨?_, ⟨?_, ?_, h.pos_le⟩, ?_, rfl, rfl⟩
  · have : upPending u = u.buf.getLsbD 7 :: upPending (upTakeBit u).2 := by
      simp only [upPending, upTakeBit, hk, Nat.add_sub_cancel]
      conv_lhs => rw [byteBits_shift]
      rw [List.take_succ_cons, List.take_take, Nat.min_eq_left hk8]
    rw [upBits, this]
    rfl
  · simp [upTakeBit, hk]; omega
  · obtain ⟨q, hq⟩ := h.buf_low
    have hpow : 2 ^ (8 - k) = 2 ^ (8 - (k + 1)) * 2 := by
      rw [← pow_succ]
      congr 1
      omega
    have hd : 2 ^ (8 - k) ∣ u.buf.toNat * 2 := by
      rw [hq, hk, hpow]
      exact ⟨q, by ring⟩
    have h256 : 2 ^ (8 - k) ∣ 2 ^ 8 := pow_dvd_pow 2 (by omega)
    simp only [upTakeBit, hk, Nat.add_sub_cancel, BitVec.toNat_shiftLeft, Nat.shiftLeft_eq, pow_one]
    exact (Nat.dvd_mod_iff h256).2 hd
  · simp [upTakeBit, hk]

/-- With no bit left to deliver, the unpacker finds its source exhausted. -/
theorem upFill_nil {u : Up} (h : UpMid u) (hb : upBits u = []) : upFill u = (false, { u with eos := true }) ∧ u.left = 0 := by
  have hl := congrArg List.length hb
  rw [upBits_length h.left_le] at hl
  have h0 : u.left = 0 := by simp [upBitsAvailable] at hl; omega
  have hr : sourceRest u.src = [] := by
    have : u.src.data.length - u.src.pos = 0 := by simp [upBitsAvailable] at hl; omega
    simp [sourceRest]
    omega
  simp [upFill, h0, srcNext_none hr]

/-- With a bit left to deliver, it is there after the buffer has been filled. -/
theorem upFill_cons {u : Up} {b : Bool} {bs : List Bool} (h : UpMid u) (hb : upBits u = b :: bs) :
    ∃ u', upFill u = (true, u') ∧ UpMid u' ∧ upBits u' = b :: bs ∧ 0 < u'.left ∧ u'.eos = u.eos ∧
      u'.src.data = u.src.data := by
  by_cases h0 : u.left = 0
  · cases hr : sourceRest u.src with
    | nil => simp [upBits, upPending, h0, hr] at hb
    | cons x r =>
      obtain ⟨h1, h2, h3⟩ := srcNext_some hr
      refine ⟨{ u with buf := x, left := 8, src := { u.src with pos := u.src.pos + 1 } }, by simp [upFill, h0, h1],
        ⟨by simp, by simp, h3⟩, ?_, by simp, rfl, rfl⟩
      rw [← hb]
      simp [upBits, upPending, h0, hr, h2]
  · exact ⟨u, by simp [upFill, h0], h, hb, by omega, rfl, rfl⟩

/-- The accumulator with one more bit. -/
theorem gatherBit_toNat (r : Code) (b : Bool) (h : r.toNat * 2 < 2 ^ 12) :
    ((r <<< 1) ||| (BitVec.ofBool b).setWidth 12).toNat = 2 * r.toNat + b.toNat := by
  have hs : (r <<< 1).toNat = 2 * r.toNat := by
    rw [BitVec.toNat_shiftLeft, Nat.shiftLeft_eq, pow_one, Nat.mod_eq_of_lt h, Nat.mul_comm]
  rw [BitVec.toNat_or, hs]
  cases b
  · simp
  · have : ((BitVec.ofBool true).setWidth 12).toNat = 1 := by decide
    rw [this]
    have := Nat.two_pow_add_eq_or_of_lt (i := 1) (b := 1) (by decide) r.toNat
    rw [pow_one] at this
    rw [← this]
    rfl

/-- The loop of `UP.READ` when the bits are there. -/
theorem upGather_some (n : Nat) (r : Code) (u : Up) (h : UpMid u) (hn : n ≤ (upBits u).length)
    (hr : (r.toNat + 1) * 2 ^ n ≤ 2 ^ 12) :
    ∃ c u', upGather n r u = (some c, u') ∧ c.toNat = bitsValueFrom r.toNat ((upBits u).take n) ∧
      upBits u' = (upBits u).drop n ∧ UpMid u' ∧ (0 < n → u'.left ≤ 7) ∧ u'.eos = u.eos ∧ u'.src.data = u.src.data := by
  induction n generalizing r u with
  | zero => exact ⟨r, u, rfl, by simp, by simp, h, by simp, rfl, rfl⟩
  | succ n ih =>
    cases hb : upBits u with
    | nil => rw [hb] at hn; simp at hn
    | cons b bs =>
      obtain ⟨u1, hf, hm1, hb1, hl1, he1, hd1⟩ := upFill_cons h hb
      obtain ⟨k, hk⟩ : ∃ k, u1.left = k + 1 := ⟨u1.left - 1, by omega⟩
      obtain ⟨ht1, ht2, ht3, ht4, ht5⟩ := upTakeBit_spec hk hm1
      rw [hb1] at ht1
      obtain ⟨hbit, hrest⟩ := List.cons.inj ht1
      have hpow : r.toNat * 2 < 2 ^ 12 := by
        have h2 : 2 ≤ 2 ^ (n + 1) := by
          rw [pow_succ]
          have := Nat.one_le_two_pow (n := n)
          omega
        have := Nat.mul_le_mul_left (r.toNat + 1) h2
        omega
      have hacc := gatherBit_toNat r b hpow
      have hlen : n ≤ (upBits (upTakeBit u1).2).length := by
        rw [← hrest]
        rw [hb] at hn
        simpa using hn
      have hr' : (((r <<< 1) ||| (BitVec.ofBool b).setWidth 12).toNat + 1) * 2 ^ n ≤ 2 ^ 12 := by
        rw [hacc]
        have hb1 : b.toNat ≤ 1 := Bool.toNat_le b
        calc (2 * r.toNat + b.toNat + 1) * 2 ^ n ≤ (2 * (r.toNat + 1)) * 2 ^ n :=
              Nat.mul_le_mul_right _ (by omega)
          _ = (r.toNat + 1) * 2 ^ (n + 1) := by rw [pow_succ]; ring
          _ ≤ 2 ^ 12 := hr
      obtain ⟨c, u', g1, g2, g3, g4, g5, g6, g7⟩ := ih _ (upTakeBit u1).2 ht2 hlen hr'
      refine ⟨c, u', ?_, ?_, ?_, g4, ?_, ?_, ?_⟩
      · rw [upGather, hf]
        simp only
        rw [← hbit]
        exact g1
      · rw [g2, hacc, ← hrest]
        simp
      · rw [g3, ← hrest]
        simp
      · intro _
        by_cases hn0 : 0 < n
        · exact g5 hn0
        · have : n = 0 := by omega
          subst this
          have : u' = (upTakeBit u1).2 := by
            simp [upGather] at g1
            exact g1.2.symm
          rw [this, ht3]
          have := hm1.left_le
          omega
      · rw [g6, ht5, he1]
      · rw [g7, ht4, hd1]

/-- The loop of `UP.READ` when the bits run out: `EOS`, and nothing is left (R111 cases (a), (b)). -/
theorem upGather_none (n : Nat) (r : Code) (u : Up) (h : UpMid u) (hn : (upBits u).length < n) :
    ∃ u', upGather n r u = (none, u') ∧ upBits u' = [] ∧ UpMid u' ∧ u'.left = 0 ∧ u'.eos = true ∧
      u'.src.data = u.src.data := by
  induction n generalizing r u with
  | zero => simp at hn
  | succ n ih =>
    cases hb : upBits u with
    | nil =>
      obtain ⟨hf, h0⟩ := upFill_nil h hb
      exact ⟨{ u with eos := true }, by rw [upGather, hf], hb, ⟨h.left_le, h.buf_low, h.pos_le⟩, h0, rfl, rfl⟩
    | cons b bs =>
      obtain ⟨u1, hf, hm1, hb1, hl1, he1, hd1⟩ := upFill_cons h hb
      obtain ⟨k, hk⟩ : ∃ k, u1.left = k + 1 := ⟨u1.left - 1, by omega⟩
      obtain ⟨ht1, ht2, ht3, ht4, ht5⟩ := upTakeBit_spec hk hm1
      rw [hb1] at ht1
      obtain ⟨hbit, hrest⟩ := List.cons.inj ht1
      have hlen : (upBits (upTakeBit u1).2).length < n := by
        rw [← hrest]
        rw [hb] at hn
        simpa using hn
      obtain ⟨u', g1, g2, g3, g4, g5, g6⟩ := ih ((r <<< 1) ||| (BitVec.ofBool b).setWidth 12) _ ht2 hlen
      refine ⟨u', ?_, g2, g3, g4, g5, by rw [g6, ht4, hd1]⟩
      rw [upGather, hf]
      simp only
      rw [← hbit]
      exact g1

/-- `UP.READ` when enough bits are left: the next `width` bits, most significant first, and nothing more (R111). -/
theorem upRead_some {u : Up} {w : Nat} (h : UpInv u) (he : u.eos = false) (hw0 : 1 ≤ w) (hw : w ≤ 12)
    (hn : w ≤ (upBits u).length) :
    ∃ c u', upRead u w = (some c, u') ∧ c.toNat = bitsValue ((upBits u).take w) ∧ upBits u' = (upBits u).drop w ∧
      UpInv u' ∧ u'.eos = false ∧ u'.src.data = u.src.data := by
  have hpow : ((0#12).toNat + 1) * 2 ^ w ≤ 2 ^ 12 := by
    simpa using Nat.pow_le_pow_right (by decide : 0 < 2) hw
  obtain ⟨c, u', g1, g2, g3, g4, g5, g6, g7⟩ := upGather_some w 0#12 u h.mid hn hpow
  refine ⟨c, u', by simp [upRead, he, g1], g2, g3, ⟨g5 hw0, g4.buf_low, ?_, g4.pos_le⟩, g6.trans he, g7⟩
  rw [g6, he]
  simp

/-- `UP.READ` when too few bits are left: `EOS`, all of them are lost, and the end is remembered (R111, R29). -/
theorem upRead_none {u : Up} {w : Nat} (h : UpInv u) (he : u.eos = false) (hn : (upBits u).length < w) :
    ∃ u', upRead u w = (none, u') ∧ upBits u' = [] ∧ UpInv u' ∧ u'.left = 0 ∧ u'.eos = true ∧
      u'.src.data = u.src.data := by
  obtain ⟨u', g1, g2, g3, g4, g5, g6⟩ := upGather_none w 0#12 u h.mid hn
  exact ⟨u', by simp [upRead, he, g1], g2, ⟨by rw [g4]; omega, g3.buf_low, fun _ => g4, g3.pos_le⟩, g4, g5, g6⟩

/-- After end-of-stream a read changes nothing (R29). -/
theorem upRead_eos {u : Up} (w : Nat) (he : u.eos = true) : upRead u w = (none, u) := by simp [upRead, he]

/-- Reading keeps the unpacker's invariant. -/
theorem upRead_inv {u : Up} {w : Nat} (h : UpInv u) (hw0 : 1 ≤ w) (hw : w ≤ 12) : UpInv (upRead u w).2 := by
  cases he : u.eos with
  | true => rw [upRead_eos w he]; exact h
  | false =>
    by_cases hn : w ≤ (upBits u).length
    · obtain ⟨c, u', g1, -, -, g4, -⟩ := upRead_some h he hw0 hw hn
      rw [g1]
      exact g4
    · obtain ⟨u', g1, -, g3, -⟩ := upRead_none (w := w) h he (by omega)
      rw [g1]
      exact g3

/-! Reading does not look at where the source comes from (10_state.md R27 to R29; log 11). -/

theorem upFill_setFed (u : Up) (f : Bool) :
    upFill { u with fed := f } = ((upFill u).1, { (upFill u).2 with fed := f }) := by
  unfold upFill
  simp only
  split
  · split <;> rfl
  · rfl

theorem upGather_setFed (n : Nat) (r : Code) (u : Up) (f : Bool) :
    upGather n r { u with fed := f } = ((upGather n r u).1, { (upGather n r u).2 with fed := f }) := by
  induction n generalizing r u with
  | zero => rfl
  | succ n ih =>
    rw [upGather, upGather, upFill_setFed]
    rcases upFill u with ⟨b, u'⟩
    cases b with
    | false => rfl
    | true => exact ih ((r <<< 1) ||| (BitVec.ofBool (upTakeBit u').1).setWidth 12) (upTakeBit u').2

theorem upRead_setFed (u : Up) (n : Nat) (f : Bool) :
    upRead { u with fed := f } n = ((upRead u n).1, { (upRead u n).2 with fed := f }) := by
  unfold upRead
  simp only
  split
  · rfl
  · exact upGather_setFed _ _ _ _

theorem upRead_fed (u : Up) (n : Nat) : (upRead u n).2.fed = u.fed := by
  have h := congrArg (fun r => r.2.fed) (upRead_setFed u n u.fed)
  exact h

end Sys2Proof.Machine
end

