-- ==== Sys2Proof/Laws/Decoder.lean ====
section
/-! SUPPORT. What the decoder does with one code, and that it keeps its invariant (43_lzw_decoder.md R142 to R152). -/

namespace Sys2Proof.Machine

theorem decInv_fresh (d : Dec) : DecInv (freshDec d) :=
  ⟨wf_nil, rfl, ext_nil, fun _ => ⟨rfl, rfl⟩, fun h => absurd rfl h, fun p h => by simp [freshDec] at h, rfl, fun _ => rfl,
    by simp [freshDec, freshSink]⟩

theorem DecInv.next_le {d : Dec} (h : DecInv d) : 256 ≤ d.nextCode ∧ d.nextCode ≤ 4096 := by
  have := wf_length h.dict_wf
  have := h.next_eq
  simp only [Config.firstCode] at this
  omega

theorem DecInv.present {d : Dec} (h : DecInv d) {c : Code} (hc : c.toNat < d.nextCode) :
    d.dict.seqOf? c = some (d.dict.seqOf c) := by
  have heq := h.next_eq
  simp only [Config.firstCode] at heq
  have := (seqOf?_isSome h.dict_wf c).2 (by omega)
  obtain ⟨k, hk⟩ := Option.isSome_iff_exists.1 this
  rw [hk, seqOf_of_some hk]

theorem DecInv.prev_ne {d : Dec} (h : DecInv d) {p : ByteSeq} (hp : d.prev = some p) : p ≠ [] := by
  obtain ⟨c, hc⟩ := h.prev_entry p hp
  exact seqOf?_ne_nil h.dict_wf h.ext hc

theorem firstByte_cons (b : Byte) (s : ByteSeq) : firstByte (b :: s) = b := rfl

theorem firstByte_append {s : ByteSeq} (h : s ≠ []) (t : ByteSeq) : firstByte (s ++ t) = firstByte s := by
  cases s with
  | nil => exact absurd rfl h
  | cons b s => rfl

/-- The decoder after an insertion (R143 steps 4 to 7). -/
theorem decLearn_lt {d : Dec} (p e : ByteSeq) (h : d.nextCode < 4096) :
    decLearn d p e =
      { d with
        dict := d.dict.insert (codeOfCount d.nextCode) (p ++ [firstByte e])
        nextCode := d.nextCode + 1
        out := { d.out with data := d.out.data ++ e }
        width := nextWidth d.width (d.nextCode + 2) Config.maxWidth
        prev := some e } := by
  simp [decLearn, Config.capacity, Config.maxWidth, h, sinkAppendAll_eq]

/-- At capacity only the output, the width test and the previous string are left (R143, R129). -/
theorem decLearn_ge {d : Dec} (p e : ByteSeq) (h : 4096 ≤ d.nextCode) :
    decLearn d p e =
      { d with
        out := { d.out with data := d.out.data ++ e }
        width := nextWidth d.width (d.nextCode + 1) Config.maxWidth
        prev := some e } := by
  have : ¬ d.nextCode < 4096 := by omega
  simp [decLearn, Config.capacity, Config.maxWidth, this, sinkAppendAll_eq]

/-- What resolving can give (R143 step 3). -/
theorem decResolve_cases (d : Dec) (p : ByteSeq) (c : Code) :
    (c.toNat < d.nextCode ∧ decResolve d p c = some (d.dict.seqOf c)) ∨
      (c.toNat = d.nextCode ∧ decResolve d p c = some (p ++ [firstByte p])) ∨
      (d.nextCode < c.toNat ∧ decResolve d p c = none) := by
  unfold decResolve
  rcases Nat.lt_trichotomy c.toNat d.nextCode with h | h | h
  · exact .inl ⟨h, by simp [h]⟩
  · exact .inr (.inl ⟨h, by simp [h]⟩)
  · exact .inr (.inr ⟨h, by rw [if_neg (by omega), if_neg (by omega)]⟩)

/-- The promotion of the decoder keeps its width in step with `next_code + 1` (R146, R152). -/
theorem decWidth_promotes {d : Dec} (h : DecInv d) {p : ByteSeq} (hp : d.prev = some p) :
    (d.nextCode < 4096 → nextWidth d.width (d.nextCode + 2) Config.maxWidth = widthFor (d.nextCode + 2)) ∧
      (d.nextCode = 4096 → nextWidth d.width (d.nextCode + 1) Config.maxWidth = widthFor (d.nextCode + 1)) := by
  have hw := h.width_eq (by simp [hp])
  refine ⟨fun hlt => ?_, fun he => ?_⟩
  · rw [hw]
    exact nextWidth_widthFor (n := d.nextCode + 1) (by omega)
  · rw [hw, he]
    decide

/-- Learning a resolved entry keeps the decoder's invariant. -/
theorem decLearn_inv {d : Dec} (h : DecInv d) {p e : ByteSeq} (hp : d.prev = some p) {c : Code}
    (hr : decResolve d p c = some e) : DecInv (decLearn d p e) := by
  obtain ⟨cp, hcp⟩ := h.prev_entry p hp
  have hn := h.next_le
  have heq := h.next_eq
  simp only [Config.firstCode] at heq
  obtain ⟨hw1, hw2⟩ := decWidth_promotes h hp
  have htk := h.taken_le
  by_cases hlt : d.nextCode < 4096
  · rw [decLearn_lt _ _ hlt]
    have hwf : Dict.wf (d.dict.insert (codeOfCount d.nextCode) (p ++ [firstByte e])) = true := by
      rw [heq]
      exact wf_insert h.dict_wf (by omega) _
    refine ⟨hwf, ?_, ext_insert h.ext _ hcp, ?_, ?_, ?_, h.status_eq, h.badcode_zero, ?_⟩
    · simp [Dict.insert, Config.firstCode]
      omega
    · simp
    · intro _
      exact hw1 hlt
    · rintro q hq
      obtain rfl := Option.some.inj hq
      rcases decResolve_cases d p c with ⟨hc, hrc⟩ | ⟨hc, hrc⟩ | ⟨hc, hrc⟩ <;> rw [hr] at hrc
      · obtain rfl := Option.some.inj hrc
        exact ⟨c, seqOf?_append _ _ (h.present hc)⟩
      · obtain rfl := Option.some.inj hrc
        refine ⟨c, ?_⟩
        rw [seqOf?_learned hwf (by omega)]
        simp [Dict.insert, show c.toNat - 256 = d.dict.length by omega, firstByte_append (h.prev_ne hp)]
      · cases hrc
    · simp
      omega
  · rw [decLearn_ge _ _ (by omega)]
    refine ⟨h.dict_wf, h.next_eq, h.ext, ?_, ?_, ?_, h.status_eq, h.badcode_zero, ?_⟩
    · simp
    · intro _
      exact hw2 (by omega)
    · rintro q hq
      obtain rfl := Option.some.inj hq
      have := c.isLt
      rcases decResolve_cases d p c with ⟨hc, hrc⟩ | ⟨hc, hrc⟩ | ⟨hc, hrc⟩ <;> rw [hr] at hrc
      · obtain rfl := Option.some.inj hrc
        exact ⟨c, h.present hc⟩
      · omega
      · cases hrc
    · simp
      omega

/-- Taking the exception keeps the decoder's invariant (60_exceptions.md R176). -/
theorem raiseDecodeError_inv {s : State} (h : DecInv s.dec) (c : Code) : DecInv (raiseDecodeError c s).dec :=
  ⟨h.dict_wf, h.next_eq, h.ext, h.undef_fresh, h.width_eq, h.prev_entry, rfl, fun hne => absurd rfl hne, h.taken_le⟩

/-- What the decoder does with a code, case by case (R142, R143). -/
theorem decReceive_cases (c : Code) (s : State) :
    (s.dec.prev = none ∧ c.toNat < 256 ∧
        decReceive c s =
          (s.setDec
            { s.dec with
              out := { s.dec.out with data := s.dec.out.data ++ [c.setWidth 8] }
              prev := some [c.setWidth 8] }).setResult .continue) ∨
      (∃ p e, s.dec.prev = some p ∧ decResolve s.dec p c = some e ∧
        decReceive c s = (s.setDec (decLearn s.dec p e)).setResult .continue) ∨
      (((s.dec.prev = none ∧ 256 ≤ c.toNat) ∨ ∃ p, s.dec.prev = some p ∧ s.dec.nextCode < c.toNat) ∧
        decReceive c s = raiseDecodeError c s) := by
  cases hp : s.dec.prev with
  | none =>
    by_cases hc : c.toNat < 256
    · refine .inl ⟨rfl, hc, ?_⟩
      have : s.dec.dict.seqOf c = [c.setWidth 8] := seqOf_of_some (seqOf?_literal _ hc)
      simp [decReceive, hp, Config.firstCode, sinkAppendAll_eq, this]
      omega
    · refine .inr (.inr ⟨.inl ⟨rfl, by omega⟩, ?_⟩)
      have hc' : Config.firstCode ≤ c.toNat := by simp only [Config.firstCode]; omega
      simp [decReceive, hp, hc']
  | some p =>
    cases hr : decResolve s.dec p c with
    | none =>
      refine .inr (.inr ⟨.inr ⟨p, rfl, ?_⟩, by simp [decReceive, hp, hr]⟩)
      rcases decResolve_cases s.dec p c with ⟨-, h⟩ | ⟨-, h⟩ | ⟨h, -⟩
      · simp [hr] at h
      · simp [hr] at h
      · exact h
    | some e => exact .inr (.inl ⟨p, e, rfl, hr, by simp [decReceive, hp, hr]⟩)

/-- The first code's entry keeps the decoder's invariant (R142). -/
theorem decFirst_inv {d : Dec} (h : DecInv d) (hp : d.prev = none) {c : Code} (hc : c.toNat < 256) :
    DecInv { d with out := { d.out with data := d.out.data ++ [c.setWidth 8] }, prev := some [c.setWidth 8] } := by
  obtain ⟨hd, hw⟩ := h.undef_fresh hp
  have heq := h.next_eq
  rw [hd] at heq
  have htk := h.taken_le
  refine ⟨h.dict_wf, h.next_eq, h.ext, by simp, ?_, ?_, h.status_eq, h.badcode_zero, by simp; omega⟩
  · intro _
    simp only [hw, heq]
    decide
  · rintro q hq
    obtain rfl := Option.some.inj hq
    exact ⟨c, seqOf?_literal _ hc⟩

/-- Receiving a code keeps the decoder's invariant. -/
theorem decReceive_inv {s : State} (h : DecInv s.dec) (c : Code) : DecInv (decReceive c s).dec := by
  rcases decReceive_cases c s with ⟨hp, hc, heq⟩ | ⟨p, e, hp, hr, heq⟩ | ⟨-, heq⟩ <;> rw [heq]
  · exact decFirst_inv h hp hc
  · exact decLearn_inv h hp hr
  · exact raiseDecodeError_inv h c

/-- Receiving a code touches the decoder and the result only. -/
theorem decReceive_frame (c : Code) (s : State) :
    (decReceive c s).pk = s.pk ∧ (decReceive c s).up = s.up ∧ (decReceive c s).enc = s.enc ∧
      (decReceive c s).events = s.events := by
  rcases decReceive_cases c s with ⟨-, -, heq⟩ | ⟨p, e, -, -, heq⟩ | ⟨-, heq⟩ <;> rw [heq] <;> exact ⟨rfl, rfl, rfl, rfl⟩

/-- Receiving a code ends with `CONTINUE` and phase kept, or with `ERROR` in phase `ERROR`. -/
theorem decReceive_result (c : Code) (s : State) :
    ((decReceive c s).result = .continue ∧ (decReceive c s).dec.phase = s.dec.phase) ∨
      ((decReceive c s).result = .error ∧ (decReceive c s).dec.phase = .error) := by
  rcases decReceive_cases c s with ⟨-, -, heq⟩ | ⟨p, e, -, -, heq⟩ | ⟨-, heq⟩ <;> rw [heq]
  · exact .inl ⟨rfl, rfl⟩
  · refine .inl ⟨rfl, ?_⟩
    by_cases hlt : s.dec.nextCode < 4096
    · simp [decLearn_lt _ _ hlt]
    · simp [decLearn_ge _ _ (show 4096 ≤ s.dec.nextCode by omega)]
  · exact .inr ⟨rfl, rfl⟩

/-- One `DEC.STEP` in phase `RUN`: end of stream, or a code received. -/
theorem decStepRun_cases (s : State) :
    (∃ u, upRead s.up s.dec.width.toNat = (none, u) ∧
        decStepRun s = ((s.setUp u).setDec { s.dec with phase := .done, status := .done }).setResult .done) ∨
      (∃ c u, upRead s.up s.dec.width.toNat = (some c, u) ∧ decStepRun s = decReceive c (s.setUp u)) := by
  rcases h : upRead s.up s.dec.width.toNat with ⟨r, u⟩
  cases r with
  | none => exact .inl ⟨u, rfl, by simp [decStepRun, h]⟩
  | some c => exact .inr ⟨c, u, rfl, by simp [decStepRun, h]⟩

/-- `DEC.STEP` keeps the invariants of the decompressor. -/
theorem decStepRun_inv {s : State} (hu : UpInv s.up) (h : DecInv s.dec) (hrun : s.dec.phase = .run) :
    UpInv (decStepRun s).up ∧ DecInv (decStepRun s).dec := by
  obtain ⟨hw0, hw1⟩ := codeWidth_range s.dec.width
  have hinv := upRead_inv hu (by omega : 1 ≤ s.dec.width.toNat) hw1
  rcases decStepRun_cases s with ⟨u, hr, heq⟩ | ⟨c, u, hr, heq⟩ <;> rw [heq] <;> rw [hr] at hinv
  · refine ⟨hinv, h.dict_wf, h.next_eq, h.ext, h.undef_fresh, h.width_eq, h.prev_entry, rfl, fun _ => ?_, h.taken_le⟩
    exact h.badcode_zero (by simp [hrun])
  · refine ⟨?_, decReceive_inv (by simpa using h) c⟩
    rw [(decReceive_frame c _).2.1]
    exact hinv

/-- `DEC.STEP` leaves the compressor and the host's pending acts alone. -/
theorem decStepRun_frame (s : State) :
    (decStepRun s).pk = s.pk ∧ (decStepRun s).enc = s.enc ∧ (decStepRun s).events = s.events := by
  rcases decStepRun_cases s with ⟨u, -, heq⟩ | ⟨c, u, -, heq⟩ <;> rw [heq]
  · exact ⟨rfl, rfl, rfl⟩
  · obtain ⟨h1, -, h3, h4⟩ := decReceive_frame c (s.setUp u)
    exact ⟨h1, h3, h4⟩

/-- Each `DEC.STEP` that continues consumes at least 9 bits (R148), and keeps phase `RUN`. -/
theorem decStepRun_consumes {s : State} (hu : UpInv s.up) (hc : (decStepRun s).result = .continue) :
    upBitsAvailable (decStepRun s).up + 9 ≤ upBitsAvailable s.up ∧ (decStepRun s).dec.phase = s.dec.phase := by
  obtain ⟨hw0, hw1⟩ := codeWidth_range s.dec.width
  rcases decStepRun_cases s with ⟨u, hr, heq⟩ | ⟨c, u, hr, heq⟩
  · rw [heq] at hc
    simp at hc
  · rw [heq] at hc ⊢
    have hfr := (decReceive_frame c (s.setUp u)).2.1
    rw [hfr]
    refine ⟨?_, ?_⟩
    · cases he : s.up.eos with
      | true => rw [upRead_eos _ he] at hr; cases hr
      | false =>
        by_cases hn : s.dec.width.toNat ≤ (upBits s.up).length
        · obtain ⟨c', u', h1, -, h3, h4, -⟩ := upRead_some hu he (by omega : 1 ≤ s.dec.width.toNat) hw1 hn
          rw [h1] at hr
          obtain ⟨-, rfl⟩ := Prod.mk.inj hr
          have hl := congrArg List.length h3
          rw [List.length_drop, upBits_length h4.mid.left_le, upBits_length hu.mid.left_le] at hl
          rw [upBits_length hu.mid.left_le] at hn
          simp only [setUp_up]
          omega
        · obtain ⟨u', h1, -⟩ := upRead_none (w := s.dec.width.toNat) hu he (by omega)
          rw [h1] at hr
          cases hr
    · rcases decReceive_result c (s.setUp u) with ⟨-, h⟩ | ⟨h, -⟩
      · exact h
      · rw [h] at hc
        cases hc

/-- A step that does not continue ends the stream. -/
theorem decStepRun_ends {s : State} (hc : (decStepRun s).result ≠ .continue) :
    ((decStepRun s).result = .done ∧ (decStepRun s).dec.phase = .done) ∨
      ((decStepRun s).result = .error ∧ (decStepRun s).dec.phase = .error) := by
  rcases decStepRun_cases s with ⟨u, hr, heq⟩ | ⟨c, u, hr, heq⟩ <;> rw [heq] at hc ⊢
  · exact .inl ⟨rfl, rfl⟩
  · rcases decReceive_result c (s.setUp u) with ⟨h, -⟩ | h
    · exact absurd h hc
    · exact .inr h

end Sys2Proof.Machine
end

