-- ==== Sys2Proof/Laws/CodeWord.lean ====
section
/-! SUPPORT. Running a code word is receiving its code at its width (30_encoding.md R71, 43_lzw_decoder.md R142, R143). -/

namespace Sys2Proof.Machine

/-- Running the code word that stands for a code. The refusals of a wrong width or phase hold for the same instruction. -/
theorem exec_instrOfCode {w : CodeWidth} {c : Code} (hc : c.toNat < 2 ^ w.toNat) (s : State) :
    exec (instrOfCode w c) s = receiveCodeWord w c s := by
  by_cases h : c.toNat < 256
  · rw [instrOfCode_literal h]
    cases w <;> simp only [exec, execW9Lit, execW10Lit, execW11Lit, execW12Lit] <;> congr 1 <;>
      refine BitVec.eq_of_toNat_eq ?_ <;> simp only [literalCode, BitVec.toNat_setWidth] <;> omega
  · rw [instrOfCode_learned (by omega) hc]
    cases w <;> simp only [CodeWidth.toNat] at hc <;> simp only [exec, execW9Dict, execW10Dict, execW11Dict, execW12Dict]
    all_goals
      congr 1
      refine BitVec.eq_of_toNat_eq ?_
      simp only [BitVec.toNat_setWidth]
      omega

/-- In phase `RUN` and at the decoder's width the code is received. -/
theorem receiveCodeWord_run {s : State} (c : Code) (hr : s.dec.phase = .run) :
    receiveCodeWord s.dec.width c s = .next (decReceive c s) := by
  simp [receiveCodeWord, requireDecRun, hr]

/-- The code a read returns fits the width read (41_bit_unpacker.md R111). -/
theorem upRead_fits {u u' : Up} {w : Nat} {c : Code} (h : UpInv u) (hw0 : 1 ≤ w) (hw : w ≤ 12)
    (hr : upRead u w = (some c, u')) : c.toNat < 2 ^ w := by
  cases he : u.eos with
  | true => rw [upRead_eos w he] at hr; cases hr
  | false =>
    by_cases hn : w ≤ (upBits u).length
    · obtain ⟨c', u'', h1, h2, -⟩ := upRead_some h he hw0 hw hn
      rw [h1] at hr
      obtain ⟨hc, -⟩ := Prod.mk.inj hr
      rw [← Option.some.inj hc, h2]
      have := bitsValue_lt ((upBits u).take w)
      rwa [List.length_take, Nat.min_eq_left hn] at this
    · obtain ⟨u'', h1, -⟩ := upRead_none (w := w) h he (by omega)
      rw [h1] at hr
      cases hr

end Sys2Proof.Machine
end

