-- ==== Sys2Proof/Laws/Compact.lean ====
section
/-! SUPPORT. Walking links (10_state.md R35, R40, R41): a walk does not depend on its bound, links that are added do not
change it, distinct links give distinct sequences, and the dictionary that links stand for. -/

namespace Sys2Proof.Machine

/-- Links that point to earlier codes (R41). -/
def Links.Earlier (l : Links) : Prop :=
  ∀ (i : Nat) (x : Code × Byte), l[i]? = some x → x.1.toNat < 256 + i

/-- There is a link for every learned code. -/
theorem Links.link_at {l : Links} {c : Code} (h : 256 ≤ c.toNat) (hc : c.toNat < 256 + l.length) :
    ∃ x : Code × Byte, l[c.toNat - 256]? = some x := by
  have hi : c.toNat - 256 < l.length := by omega
  exact ⟨_, List.getElem?_eq_getElem hi⟩

theorem walkLinks_literal (l : Links) (n : Nat) {c : Code} (h : c.toNat < 256) : walkLinks l n c = [c.setWidth 8] := by
  cases n with
  | zero => rfl
  | succ n => simp [walkLinks, Config.nLiterals, h]

theorem walkLinks_link (l : Links) (n : Nat) {c p : Code} {b : Byte} (h : 256 ≤ c.toNat)
    (hl : l[c.toNat - 256]? = some (p, b)) : walkLinks l (n + 1) c = walkLinks l n p ++ [b] := by
  have : ¬ c.toNat < 256 := by omega
  simp [walkLinks, Config.nLiterals, Config.firstCode, this, hl]

/-- A walk ends within the bound, and a larger bound changes nothing (R41). -/
theorem walkLinks_bound {l : Links} (he : l.Earlier) (n : Nat) {c : Code} (hc : c.toNat < 256 + l.length)
    (hn : c.toNat ≤ 255 + n) : walkLinks l n c = l.seqOf c := by
  have H : ∀ k, ∀ c : Code, c.toNat < 256 + l.length → c.toNat ≤ 255 + k → ∀ n, c.toNat ≤ 255 + n →
      walkLinks l n c = walkLinks l k c := by
    intro k
    induction k with
    | zero =>
      intro c _ hk n _
      rw [walkLinks_literal l n (by omega), walkLinks_literal l 0 (by omega)]
    | succ k ih =>
      intro c hc hk n hn
      by_cases hlit : c.toNat < 256
      · rw [walkLinks_literal l n hlit, walkLinks_literal l _ hlit]
      · obtain ⟨m, rfl⟩ : ∃ m, n = m + 1 := ⟨n - 1, by omega⟩
        obtain ⟨⟨p, b⟩, hget⟩ := Links.link_at (l := l) (c := c) (by omega) (by omega)
        have hp := he _ _ hget
        simp only at hp
        rw [walkLinks_link l m (by omega) hget, walkLinks_link l k (by omega) hget, ih p (by omega) (by omega) m (by omega)]
  unfold Links.seqOf
  exact H _ c hc (by omega) n hn

theorem Links.seqOf_literal (l : Links) {c : Code} (h : c.toNat < 256) : l.seqOf c = [c.setWidth 8] :=
  walkLinks_literal l _ h

/-- The sequence of a learned code: that of its prefix code with its byte appended (R35, R40). -/
theorem Links.seqOf_link {l : Links} (he : l.Earlier) {c p : Code} {b : Byte} (h : 256 ≤ c.toNat)
    (hl : l[c.toNat - 256]? = some (p, b)) : l.seqOf c = l.seqOf p ++ [b] := by
  have hp := he _ _ hl
  have hlt := (List.getElem?_eq_some_iff.1 hl).1
  simp only at hp
  rw [Links.seqOf, show c.toNat - 255 = (c.toNat - 256) + 1 by omega, walkLinks_link l _ h hl,
    walkLinks_bound he _ (by omega) (by omega)]

theorem Links.earlier_append {l : Links} (he : l.Earlier) {p : Code} (b : Byte) (hp : p.toNat < 256 + l.length) :
    Links.Earlier (l ++ [(p, b)]) := by
  intro i x hx
  rw [List.getElem?_append] at hx
  split at hx
  · exact he i x hx
  · rename_i hi
    have hid : i - l.length = 0 := by
      by_contra hc
      obtain ⟨j, hj⟩ : ∃ j, i - l.length = j + 1 := ⟨i - l.length - 1, by omega⟩
      simp [hj] at hx
    rw [hid] at hx
    simp only [List.getElem?_cons_zero, Option.some.injEq] at hx
    subst hx
    simp only
    omega

/-- A code names the same sequence after a link has been added. -/
theorem Links.seqOf_append {l : Links} (he : l.Earlier) (x : Links) {c : Code} (hc : c.toNat < 256 + l.length) :
    Links.seqOf (l ++ x) c = l.seqOf c := by
  unfold Links.seqOf
  generalize c.toNat - 255 = n
  induction n generalizing c with
  | zero => rfl
  | succ n ih =>
    by_cases hlit : c.toNat < 256
    · rw [walkLinks_literal _ _ hlit, walkLinks_literal _ _ hlit]
    · obtain ⟨y, hget⟩ := Links.link_at (l := l) (c := c) (by omega) (by omega)
      obtain ⟨p, b⟩ := y
      have hp := he _ _ hget
      simp only at hp
      have hget' : (l ++ x)[c.toNat - 256]? = some (p, b) := by
        rw [List.getElem?_append_left (by omega)]
        exact hget
      rw [walkLinks_link l n (by omega) hget, walkLinks_link _ n (by omega) hget', ih (by omega)]

/-- "Every dictionary entry is a non-empty sequence", and learned ones have two bytes at least. -/
theorem Links.seqOf_ne_nil {l : Links} (he : l.Earlier) {c : Code} (hc : c.toNat < 256 + l.length) : l.seqOf c ≠ [] := by
  by_cases hlit : c.toNat < 256
  · rw [l.seqOf_literal hlit]
    simp
  · obtain ⟨y, hget⟩ := Links.link_at (l := l) (c := c) (by omega) hc
    rw [Links.seqOf_link he (by omega) hget]
    simp

/-- With distinct links a sequence has one code: "at most one answer because keys are unique" (R35). -/
theorem Links.seqOf_injective {l : Links} (he : l.Earlier) (hn : l.Nodup) (n : Nat) :
    ∀ c c' : Code, c.toNat < n → c.toNat < 256 + l.length → c'.toNat < 256 + l.length → l.seqOf c = l.seqOf c' → c = c' := by
  induction n with
  | zero => intro c _ h; omega
  | succ n ih =>
    intro c c' hcn hc hc' heq
    by_cases hlit : c.toNat < 256 <;> by_cases hlit' : c'.toNat < 256
    · rw [l.seqOf_literal hlit, l.seqOf_literal hlit'] at heq
      rw [← literalCode_of_lt hlit, ← literalCode_of_lt hlit', List.singleton_inj.1 heq]
    · exfalso
      obtain ⟨y, hget⟩ := Links.link_at (l := l) (c := c') (by omega) (by omega)
      have hy := he _ _ hget
      rw [l.seqOf_literal hlit, Links.seqOf_link he (by omega) hget] at heq
      have h1 := congrArg List.length heq
      have h2 := List.length_pos_iff.2 (Links.seqOf_ne_nil he (c := y.1) (by omega))
      simp only [List.length_append, List.length_cons, List.length_nil] at h1
      omega
    · exfalso
      obtain ⟨y, hget⟩ := Links.link_at (l := l) (c := c) (by omega) (by omega)
      have hy := he _ _ hget
      rw [l.seqOf_literal hlit', Links.seqOf_link he (by omega) hget] at heq
      have h1 := congrArg List.length heq
      have h2 := List.length_pos_iff.2 (Links.seqOf_ne_nil he (c := y.1) (by omega))
      simp only [List.length_append, List.length_cons, List.length_nil] at h1
      omega
    · obtain ⟨y, hget⟩ := Links.link_at (l := l) (c := c) (by omega) hc
      obtain ⟨y', hget'⟩ := Links.link_at (l := l) (c := c') (by omega) hc'
      have hi : c.toNat - 256 < l.length := (List.getElem?_eq_some_iff.1 hget).1
      have hy := he _ _ hget
      have hy' := he _ _ hget'
      rw [Links.seqOf_link he (by omega) hget, Links.seqOf_link he (by omega) hget'] at heq
      obtain ⟨h1, h2⟩ := List.append_inj' heq rfl
      have hp := ih y.1 y'.1 (by omega) (by omega) (by omega) h1
      have hyy : y = y' := Prod.ext hp (List.singleton_inj.1 h2)
      have := (List.getElem?_inj hi hn).1 (hget.trans (hyy ▸ hget'.symm))
      exact BitVec.eq_of_toNat_eq (by omega)

theorem toDict_length (l : Links) : l.toDict.length = l.length := by simp [Links.toDict]

theorem toDict_get {l : Links} {i : Nat} (h : i < l.length) :
    l.toDict[i]? = some (codeOfCount (256 + i), l.seqOf (codeOfCount (256 + i))) := by
  simp [Links.toDict, h, Config.firstCode]

theorem toDict_wf {l : Links} (h : 256 + l.length ≤ 4096) : l.toDict.wf = true := by
  rw [wf_iff, toDict_length]
  refine ⟨fun i e he => ?_, h⟩
  have hi : i < l.length := by
    have := (List.getElem?_eq_some_iff.1 he).1
    rwa [toDict_length] at this
  rw [toDict_get hi] at he
  rw [← Option.some.inj he]

/-- A present code names the same sequence in the links and in the dictionary they stand for. -/
theorem toDict_seqOf? {l : Links} (h : 256 + l.length ≤ 4096) {c : Code} (hc : c.toNat < 256 + l.length) :
    l.toDict.seqOf? c = some (l.seqOf c) := by
  by_cases hlit : c.toNat < 256
  · rw [seqOf?_literal _ hlit, l.seqOf_literal hlit]
  · have hcode : codeOfCount (256 + (c.toNat - 256)) = c := by
      refine BitVec.eq_of_toNat_eq ?_
      rw [codeOfCount_toNat (by omega)]
      omega
    rw [seqOf?_learned (toDict_wf h) (by omega), toDict_get (by omega), hcode, Option.map_some]

/-- Adding a link is adding the entry it stands for (R35, R40). -/
theorem toDict_append {l : Links} (he : l.Earlier) {p : Code} (b : Byte) (hp : p.toNat < 256 + l.length)
    (h : 256 + l.length < 4096) :
    Links.toDict (l ++ [(p, b)]) = l.toDict.insert (codeOfCount (256 + l.length)) (l.seqOf p ++ [b]) := by
  have he' := Links.earlier_append he b hp
  have hcode := codeOfCount_toNat h
  have hnew : Links.seqOf (l ++ [(p, b)]) (codeOfCount (256 + l.length)) = l.seqOf p ++ [b] := by
    rw [Links.seqOf_link he' (p := p) (b := b) (by omega) (by simp [hcode]), Links.seqOf_append he _ hp]
  refine List.ext_getElem? fun i => ?_
  rw [Dict.insert, List.getElem?_append, toDict_length]
  by_cases hi : i < l.length
  · rw [if_pos hi, toDict_get hi, toDict_get (by simp; omega), Links.seqOf_append he]
    rw [codeOfCount_toNat (by omega)]
    omega
  · rw [if_neg hi]
    by_cases hi' : i = l.length
    · subst hi'
      rw [toDict_get (by simp), hnew]
      simp
    · obtain ⟨j, hj⟩ : ∃ j, i - l.length = j + 1 := ⟨i - l.length - 1, by omega⟩
      rw [hj]
      simp [Links.toDict]
      omega

end Sys2Proof.Machine
end

