-- ==== Sys2Proof/Laws/PerInstr.lean ====
section
/-! SUPPORT. The form of each instruction's encoding, constructor by constructor (30_encoding.md R71, R80, R81): an
operation is a command word with its operation number in bits 19:16; a code word is a word of its format, and a
literal's code is its byte. -/

namespace Sys2Proof.Laws.EncodedForm

/-- The operation number of R80's table; none for a code word. -/
def opNumber : Instr → Option (BitVec 4)
  | .pkStart => some 0x0
  | .pkWrite _ _ => some 0x1
  | .pkFlush => some 0x2
  | .upStart => some 0x3
  | .upRead _ => some 0x4
  | .encStart => some 0x5
  | .encByte _ => some 0x6
  | .encEnd => some 0x7
  | .encAbort => some 0x8
  | .decStart => some 0x9
  | .decStep => some 0xA
  | .compress => some 0xB
  | .decompress => some 0xC
  | .reservedD _ => some 0xD
  | .reservedE _ => some 0xE
  | .reservedF _ => some 0xF
  | .w9Lit _ | .w9Dict _ | .w10Lit _ | .w10Dict _ | .w11Lit _ | .w11Dict _ | .w12Lit _ | .w12Dict _ => none

/-- The width and the code of a code word (R71); none for an operation. -/
def carried : Instr → Option (CodeWidth × Code)
  | .w9Lit b => some (.w9, Machine.literalCode b)
  | .w9Dict c => some (.w9, c.setWidth 12)
  | .w10Lit b => some (.w10, Machine.literalCode b)
  | .w10Dict c => some (.w10, c.setWidth 12)
  | .w11Lit b => some (.w11, Machine.literalCode b)
  | .w11Dict c => some (.w11, c.setWidth 12)
  | .w12Lit b => some (.w12, Machine.literalCode b)
  | .w12Dict c => some (.w12, c)
  | .pkStart | .pkWrite _ _ | .pkFlush | .upStart | .upRead _ | .encStart | .encByte _ | .encEnd | .encAbort
  | .decStart | .decStep | .compress | .decompress | .reservedD _ | .reservedE _ | .reservedF _ => none

/-- An operation's word has its number; a code word is the word of its width that carries its code. -/
def Statement (i : Instr) : Prop :=
  (∀ op, opNumber i = some op → ∃ w, encode i = .command w ∧ w.extractLsb' 16 4 = op) ∧
    (∀ wc, carried i = some wc → encode i = encodedOfCode wc.1 wc.2)

/-- A command word built from its fields has the form. -/
theorem of_commandWord {i : Instr} {op width : BitVec 4} {code : BitVec 12} (ho : opNumber i = some op)
    (hc : carried i = none) (he : encode i = .command (commandWord op width code)) : Statement i := by
  refine ⟨fun op' h => ⟨_, he, ?_⟩, fun wc h => by rw [hc] at h; cases h⟩
  rw [ho] at h
  cases h
  exact commandWord_op _ _ _

/-- A reserved word has the form. -/
theorem of_reserved {i : Instr} {op : BitVec 4} {payload : BitVec 16} (ho : opNumber i = some op)
    (hc : carried i = none) (he : encode i = .command (op ++ payload)) : Statement i := by
  refine ⟨fun op' h => ⟨_, he, ?_⟩, fun wc h => by rw [hc] at h; cases h⟩
  rw [ho] at h
  cases h
  refine BitVec.eq_of_toNat_eq ?_
  rw [extract_toNat, append_toNat]
  have := op.isLt
  have := payload.isLt
  omega

/-- A code word has the form. -/
theorem of_codeWord {i : Instr} {w : CodeWidth} {c : Code} (ho : opNumber i = none) (hc : carried i = some (w, c))
    (he : encode i = encodedOfCode w c) : Statement i := by
  refine ⟨fun op h => (by rw [ho] at h; cases h), fun wc h => ?_⟩
  rw [hc] at h
  cases h
  exact he

/-- A literal's word of `8 + k` bits is its byte below `k` zero bits (R71). -/
theorem literal_word (n k : Nat) (hn : n = k + 8) (h12 : n ≤ 12) (b : Byte) :
    (0#k ++ b).toNat = ((Machine.literalCode b).setWidth n).toNat := by
  have hb := b.isLt
  have hpow : 2 ^ 8 ≤ 2 ^ n := Nat.pow_le_pow_right (by decide) (by omega)
  rw [zeros_append_toNat, BitVec.toNat_setWidth, Machine.literalCode_toNat, Nat.mod_eq_of_lt (by omega)]

theorem pkStart : Statement .pkStart := of_commandWord rfl rfl rfl
theorem pkWrite (code : BitVec 12) (width : BitVec 4) : Statement (.pkWrite code width) := of_commandWord rfl rfl rfl
theorem pkFlush : Statement .pkFlush := of_commandWord rfl rfl rfl
theorem upStart : Statement .upStart := of_commandWord rfl rfl rfl
theorem upRead (width : BitVec 4) : Statement (.upRead width) := of_commandWord rfl rfl rfl
theorem encStart : Statement .encStart := of_commandWord rfl rfl rfl
theorem encByte (b : BitVec 8) : Statement (.encByte b) := of_commandWord rfl rfl rfl
theorem encEnd : Statement .encEnd := of_commandWord rfl rfl rfl
theorem encAbort : Statement .encAbort := of_commandWord rfl rfl rfl
theorem decStart : Statement .decStart := of_commandWord rfl rfl rfl
theorem decStep : Statement .decStep := of_commandWord rfl rfl rfl
theorem compress : Statement .compress := of_commandWord rfl rfl rfl
theorem decompress : Statement .decompress := of_commandWord rfl rfl rfl
theorem reservedD (payload : BitVec 16) : Statement (.reservedD payload) := of_reserved rfl rfl rfl
theorem reservedE (payload : BitVec 16) : Statement (.reservedE payload) := of_reserved rfl rfl rfl
theorem reservedF (payload : BitVec 16) : Statement (.reservedF payload) := of_reserved rfl rfl rfl

theorem w9Lit (b : BitVec 8) : Statement (.w9Lit b) :=
  of_codeWord rfl rfl (congrArg Encoded.code9 (BitVec.eq_of_toNat_eq (literal_word 9 1 rfl (by decide) b)))
theorem w10Lit (b : BitVec 8) : Statement (.w10Lit b) :=
  of_codeWord rfl rfl (congrArg Encoded.code10 (BitVec.eq_of_toNat_eq (literal_word 10 2 rfl (by decide) b)))
theorem w11Lit (b : BitVec 8) : Statement (.w11Lit b) :=
  of_codeWord rfl rfl (congrArg Encoded.code11 (BitVec.eq_of_toNat_eq (literal_word 11 3 rfl (by decide) b)))
theorem w12Lit (b : BitVec 8) : Statement (.w12Lit b) :=
  of_codeWord rfl rfl (congrArg Encoded.code12 (BitVec.eq_of_toNat_eq (literal_word 12 4 rfl (by decide) b)))

theorem w9Dict (c : BitVec 9) : Statement (.w9Dict c) :=
  of_codeWord rfl rfl (congrArg Encoded.code9 (by simp))
theorem w10Dict (c : BitVec 10) : Statement (.w10Dict c) :=
  of_codeWord rfl rfl (congrArg Encoded.code10 (by simp))
theorem w11Dict (c : BitVec 11) : Statement (.w11Dict c) :=
  of_codeWord rfl rfl (congrArg Encoded.code11 (by simp))
theorem w12Dict (c : BitVec 12) : Statement (.w12Dict c) := of_codeWord rfl rfl rfl

end Sys2Proof.Laws.EncodedForm
end

