-- ==== Sys2Proof/Laws/Run.lean ====
section
/-! SUPPORT. The two whole-stream operations as runs of their unit operations (42_lzw_encoder.md R127,
43_lzw_decoder.md R148), and when an operation answers a next state. -/

namespace Sys2Proof.Machine

/-! When the gated operations answer a next state. -/

theorem hostPk_next {s t : State} {p : Pk} :
    hostPk s p = .next t ↔ s.encInProgress = false ∧ (s.setPk p).setResult .none = t := by
  cases h : s.encInProgress <;> simp [hostPk, h]

theorem hostUp_next {s t : State} {u : Up} {r : OpResult} :
    hostUp s u r = .next t ↔ s.decInProgress = false ∧ (s.setUp u).setResult r = t := by
  cases h : s.decInProgress <;> simp [hostUp, h]

theorem requireEncRun_next {s t r : State} :
    requireEncRun s r = .next t ↔ s.enc.phase = .run ∧ r.setResult .none = t := by
  cases h : s.enc.phase <;> simp [requireEncRun, h]

theorem requireDecRun_next {s t r : State} : requireDecRun s r = .next t ↔ s.dec.phase = .run ∧ r = t := by
  cases h : s.dec.phase <;> simp [requireDecRun, h]

theorem receiveCodeWord_next {s t : State} {w : CodeWidth} {c : Code} :
    receiveCodeWord w c s = .next t ↔ s.dec.width = w ∧ s.dec.phase = .run ∧ decReceive c s = t := by
  by_cases h : s.dec.width = w <;> simp [receiveCodeWord, h, requireDecRun_next]

/-- The legal widths of a host's `PK.WRITE` and `UP.READ` (30_encoding.md R87). -/
theorem legalWidth_iff {w : BitVec 4} : legalWidth w = true ↔ 1 ≤ w.toNat ∧ w.toNat ≤ 12 := by
  simp [legalWidth, Config.maxWidth]

/-! The two `START`s keep the invariant. -/

theorem startEnc_inv {s : State} (h : s.Inv) : (startEnc s).Inv :=
  ⟨pkInv_fresh _, h.up, encInv_restarted _ h.enc.pos_le, h.dec⟩

theorem startDec_inv {s : State} (h : s.Inv) : (startDec s).Inv :=
  ⟨h.pk, upInv_restarted _, h.enc, decInv_fresh _⟩

/-! What a step of the decoder leaves standing (10_state.md R31, R38; 20_memory.md R51). -/

theorem nextWidth_grows (w : CodeWidth) (n m : Nat) : w.toNat ≤ (nextWidth w n m).toNat := by
  unfold nextWidth
  split
  · cases w <;> decide
  · exact Nat.le_refl _

theorem decReceive_grows (c : Code) (s : State) :
    s.dec.dict <+: (decReceive c s).dec.dict ∧ s.dec.width.toNat ≤ (decReceive c s).dec.width.toNat ∧
      s.dec.out.data <+: (decReceive c s).dec.out.data := by
  rcases decReceive_cases c s with ⟨-, -, heq⟩ | ⟨p, e, -, -, heq⟩ | ⟨-, heq⟩ <;> rw [heq]
  · exact ⟨List.prefix_rfl, Nat.le_refl _, ⟨_, rfl⟩⟩
  · by_cases hlt : s.dec.nextCode < 4096
    · simp only [setResult_dec, setDec_dec, decLearn_lt _ _ hlt]
      exact ⟨⟨_, rfl⟩, nextWidth_grows _ _ _, ⟨_, rfl⟩⟩
    · simp only [setResult_dec, setDec_dec, decLearn_ge _ _ (show 4096 ≤ s.dec.nextCode by omega)]
      exact ⟨List.prefix_rfl, nextWidth_grows _ _ _, ⟨_, rfl⟩⟩
  · exact ⟨List.prefix_rfl, Nat.le_refl _, List.prefix_rfl⟩

theorem decStepRun_grows (s : State) :
    s.dec.dict <+: (decStepRun s).dec.dict ∧ s.dec.width.toNat ≤ (decStepRun s).dec.width.toNat ∧
      s.dec.out.data <+: (decStepRun s).dec.out.data := by
  rcases decStepRun_cases s with ⟨u, -, heq⟩ | ⟨c, u, -, heq⟩ <;> rw [heq]
  · exact ⟨List.prefix_rfl, Nat.le_refl _, List.prefix_rfl⟩
  · exact decReceive_grows c (s.setUp u)

/-! `COMPRESS`. -/

/-- The encoder does not look at its source while it accepts a byte. -/
theorem encAccept_src (e : Enc) (b : Byte) (src : Source) :
    encAccept { e with src := src } b = ({ (encAccept e b).1 with src := src }, (encAccept e b).2) := by
  unfold encAccept
  split
  · rfl
  · simp only
    split
    · rfl
    · simp only [encLearn, encEmitted]
      split <;> rfl

theorem encByteRun_src (b : Byte) (s : State) (src : Source) :
    encByteRun b (s.setEnc { s.enc with src := src }) =
      (encByteRun b s).setEnc { (encByteRun b s).enc with src := src } := by
  simp [encByteRun, encAccept_src]
  rfl

theorem encBytes_src (bs : ByteSeq) (s : State) (src : Source) :
    bs.foldl (fun s b => encByteRun b s) (s.setEnc { s.enc with src := src }) =
      (bs.foldl (fun s b => encByteRun b s) s).setEnc
        { (bs.foldl (fun s b => encByteRun b s) s).enc with src := src } := by
  induction bs generalizing s with
  | nil => rfl
  | cons b bs ih => rw [List.foldl_cons, encByteRun_src, ih, List.foldl_cons]

/-- The loop of `COMPRESS` takes each byte of the source in turn (R127). -/
theorem compressLoop_eq (bs : ByteSeq) (s : State) (h : sourceRest s.enc.src = bs) :
    compressLoop bs.length s =
      (bs.foldl (fun s b => encByteRun b s) s).setEnc
        { (bs.foldl (fun s b => encByteRun b s) s).enc with
          src := { s.enc.src with pos := s.enc.src.pos + bs.length } } := by
  induction bs generalizing s with
  | nil => rfl
  | cons b bs ih =>
    obtain ⟨h1, h2, -⟩ := srcNext_some h
    have hsrc : (encByteRun b s).enc.src = s.enc.src := (encAccept_frame s.enc b).2
    simp only [List.length_cons, compressLoop, h1]
    rw [encByteRun_src, ih _ (by simpa using h2)]
    simp only [setEnc_enc]
    rw [encBytes_src, List.foldl_cons]
    simp only [setEnc_setEnc, setEnc_enc, Nat.add_assoc, Nat.add_comm 1]

/-- A run of `ENC.BYTE`s issued by a host in phase `RUN`. -/
theorem execAll_encBytes (bs : ByteSeq) (is : List Instr) (s : State) (h : s.enc.phase = .run) (hr : s.result = .none) :
    execAll (bs.map .encByte ++ is) s = execAll is (bs.foldl (fun s b => encByteRun b s) s) := by
  induction bs generalizing s with
  | nil => rfl
  | cons b bs ih =>
    have hx : exec (.encByte b) s = .next (encByteRun b s) := by
      have : (encByteRun b s).setResult .none = encByteRun b s := by
        rw [← hr]
        rfl
      simp [exec, execEncByte, requireEncRun, h, this]
    simp only [List.map_cons, List.cons_append, execAll, hx]
    rw [ih _ (by simpa [encByteRun] using (encAccept_frame s.enc b).1.trans h) (by simpa [encByteRun] using hr)]
    rfl

/-- What `COMPRESS` leaves in the compressor, from the code words of its source (R127). -/
theorem execCompress_spec (s : State) :
    ∃ t, exec .compress s = .next t ∧ PkInv t.pk ∧
      t.pk = pkFlushed (pkPutAll (freshPk s.pk) (encStreamCodes (restartedEnc s.enc) (sourceRest s.enc.src))) ∧
      t.enc =
        { (encAcceptAll (restartedEnc s.enc) (sourceRest s.enc.src)).1 with
          phase := .done
          src := { s.enc.src with pos := s.enc.src.pos + (sourceRest s.enc.src).length } } ∧
      t.up = s.up ∧ t.dec = s.dec ∧ t.events = s.events ∧ t.result = .none := by
  have hrest : sourceRest (startEnc s).enc.src = sourceRest s.enc.src := rfl
  have hlen : (startEnc s).enc.src.data.length - (startEnc s).enc.src.pos = (sourceRest s.enc.src).length := by
    simp [startEnc, restartedEnc, sourceRest]
  refine ⟨_, rfl, ?_⟩
  rw [hlen, compressLoop_eq _ _ hrest, encByteRun_foldl]
  set r := encAcceptAll (startEnc s).enc (sourceRest s.enc.src) with hr
  have hpk : (encEndRun
      (((startEnc s).setEnc r.1).setPk (pkPutAll (startEnc s).pk r.2) |>.setEnc
        { r.1 with src := { s.enc.src with pos := s.enc.src.pos + (sourceRest s.enc.src).length } })).pk =
      pkFlushed (pkPutAll (freshPk s.pk) (encStreamCodes (restartedEnc s.enc) (sourceRest s.enc.src))) := by
    simp only [encEndRun, encStreamCodes, setEnc_pk, setPk_pk, setEnc_enc]
    have hr' : encAcceptAll (restartedEnc s.enc) (sourceRest s.enc.src) = r := rfl
    rw [hr']
    by_cases hm : r.1.curMatch = []
    · simp [hm]
      rfl
    · simp only [hm, if_false]
      rw [pkPutAll_append]
      rfl
  refine ⟨?_, hpk, rfl, rfl, rfl, rfl, rfl⟩
  show PkInv (encEndRun _).pk
  exact hpk ▸ (pkFlushed_spec _ (pkPutAll_spec _ _ (pkInv_fresh _)).1).1

/-! `DECOMPRESS`. -/

/-- `n` steps of the decoder, one after the other. -/
def decSteps : Nat → State → State
  | 0, s => s
  | n + 1, s => decSteps n (decStepRun s)

theorem decSteps_succ (n : Nat) (s : State) : decSteps (n + 1) s = decStepRun (decSteps n s) := by
  induction n generalizing s with
  | zero => rfl
  | succ n ih => rw [decSteps, ih, decSteps]

theorem decStepRun_upInv {s : State} (h : UpInv s.up) : UpInv (decStepRun s).up := by
  obtain ⟨hw0, hw1⟩ := codeWidth_range s.dec.width
  have hinv := upRead_inv h (by omega : 1 ≤ s.dec.width.toNat) hw1
  rcases decStepRun_cases s with ⟨u, hr, heq⟩ | ⟨c, u, hr, heq⟩ <;> rw [heq] <;> rw [hr] at hinv
  · exact hinv
  · rw [(decReceive_frame c _).2.1]
    exact hinv

/-- The loop of `DECOMPRESS` ends before its bound: "every `DEC.STEP` that returns `CONTINUE` has consumed at least 9
bits of a finite source" (R148). -/
theorem decompressLoop_ends (n : Nat) (s : State) (hu : UpInv s.up) (hn : upBitsAvailable s.up < n)
    (hr : s.dec.phase = .run) :
    ∃ k, decompressLoop n s = .next (decSteps (k + 1) s) ∧
      (((decSteps (k + 1) s).result = .done ∧ (decSteps (k + 1) s).dec.phase = .done) ∨
        ((decSteps (k + 1) s).result = .error ∧ (decSteps (k + 1) s).dec.phase = .error)) ∧
      ∀ j, j < k → (decSteps (j + 1) s).result = .continue ∧ (decSteps (j + 1) s).dec.phase = .run := by
  induction n generalizing s with
  | zero => omega
  | succ n ih =>
    by_cases hc : (decStepRun s).result = .continue
    · obtain ⟨h1, h2⟩ := decStepRun_consumes hu hc
      obtain ⟨k, g1, g2, g3⟩ := ih (decStepRun s) (decStepRun_upInv hu) (by omega) (h2.trans hr)
      refine ⟨k + 1, ?_, g2, ?_⟩
      · rw [decompressLoop]
        simp only [hc, if_true]
        exact g1
      · intro j hj
        cases j with
        | zero => exact ⟨hc, h2.trans hr⟩
        | succ j => exact g3 j (by omega)
    · refine ⟨0, ?_, decStepRun_ends hc, by omega⟩
      rw [decompressLoop]
      simp only [hc, if_false]
      rfl

/-- A host that issues `DEC.STEP` while the decoder runs. -/
theorem execAll_decSteps (n : Nat) (s : State) (h : ∀ j, j < n → (decSteps j s).dec.phase = .run) :
    execAll (List.replicate n .decStep) s = .next (decSteps n s) := by
  induction n generalizing s with
  | zero => rfl
  | succ n ih =>
    have h0 : s.dec.phase = .run := h 0 (by omega)
    have hx : exec .decStep s = .next (decStepRun s) := by simp [exec, execDecStep, requireDecRun, h0]
    simp only [List.replicate_succ, execAll, hx]
    exact ih _ fun j hj => h (j + 1) (by omega)

/-- What every run of `DECOMPRESS` is (R148). -/
theorem execDecompress_spec (s : State) :
    ∃ k, exec .decompress s = .next (decSteps (k + 1) (startDec s)) ∧
      (((decSteps (k + 1) (startDec s)).result = .done ∧ (decSteps (k + 1) (startDec s)).dec.phase = .done) ∨
        ((decSteps (k + 1) (startDec s)).result = .error ∧ (decSteps (k + 1) (startDec s)).dec.phase = .error)) ∧
      ∀ j, j < k →
        (decSteps (j + 1) (startDec s)).result = .continue ∧ (decSteps (j + 1) (startDec s)).dec.phase = .run :=
  decompressLoop_ends _ _ (upInv_restarted s.up) (Nat.lt_succ_self _) rfl

/-- Steps of the decoder leave the compressor and the host's pending acts alone. -/
theorem decSteps_frame (n : Nat) (s : State) :
    (decSteps n s).pk = s.pk ∧ (decSteps n s).enc = s.enc ∧ (decSteps n s).events = s.events := by
  induction n with
  | zero => exact ⟨rfl, rfl, rfl⟩
  | succ n ih =>
    rw [decSteps_succ]
    obtain ⟨h1, h2, h3⟩ := decStepRun_frame (decSteps n s)
    exact ⟨h1.trans ih.1, h2.trans ih.2.1, h3.trans ih.2.2⟩

/-- Steps of a running decoder keep the invariants of the decompressor. -/
theorem decSteps_inv (n : Nat) (s : State) (hu : UpInv s.up) (hd : DecInv s.dec)
    (h : ∀ j, j < n → (decSteps j s).dec.phase = .run) : UpInv (decSteps n s).up ∧ DecInv (decSteps n s).dec := by
  induction n with
  | zero => exact ⟨hu, hd⟩
  | succ n ih =>
    obtain ⟨h1, h2⟩ := ih fun j hj => h j (by omega)
    rw [decSteps_succ]
    exact decStepRun_inv h1 h2 (h n (by omega))

/-- The phases on the way of a whole run of the decoder. -/
theorem decSteps_running {s : State} {k : Nat} (h0 : s.dec.phase = .run)
    (h : ∀ j, j < k → (decSteps (j + 1) s).result = .continue ∧ (decSteps (j + 1) s).dec.phase = .run) :
    ∀ j, j < k + 1 → (decSteps j s).dec.phase = .run := by
  intro j hj
  cases j with
  | zero => exact h0
  | succ j => exact (h j (by omega)).2

/-- Steps of a running decoder keep the invariant of the block. -/
theorem decSteps_stateInv (n : Nat) {s : State} (h : s.Inv) (hr : ∀ j, j < n → (decSteps j s).dec.phase = .run) :
    (decSteps n s).Inv := by
  obtain ⟨h1, h2⟩ := decSteps_inv n s h.up h.dec hr
  obtain ⟨h3, h4, -⟩ := decSteps_frame n s
  exact ⟨h3 ▸ h.pk, h1, h4 ▸ h.enc, h2⟩

end Sys2Proof.Machine
end

