-- ==== Sys2Proof/Laws/RoundTrip.lean ====
section
/-! SUPPORT. The encoder and the decoder side by side: the width schedule of the encoder's code words (30_encoding.md R72),
the decoder on codes alone, the decoder one entry behind the encoder (43_lzw_decoder.md R150, R152), and the decoder on
the bits of a stream or of a part of one (R151). -/

namespace Sys2Proof.Machine

/-! The encoder's code words. -/

/-- `next_code` counts the code words written: `min(256 + n, 4096)` after `n` of them. -/
theorem encAccept_next {e : Enc} (h : EncInv e) (b : Byte) {n : Nat} (hn : e.nextCode = min (256 + n) 4096) :
    (encAccept e b).1.nextCode = min (256 + (n + (encAccept e b).2.toList.length)) 4096 := by
  have hle := h.next_le
  rcases encAccept_cases e b with ⟨-, heq⟩ | ⟨-, -, heq⟩ | ⟨-, -, heq⟩ <;> rw [heq]
  · simpa using hn
  · simpa using hn
  · by_cases hlt : e.nextCode < 4096
    · rw [encLearn_lt _ hlt]
      simp
      omega
    · rw [encLearn_ge _ (by omega)]
      simp
      omega

/-- What a byte makes the encoder write, if anything (R123 (i)). -/
theorem encAccept_out {e : Enc} {b : Byte} {o : Code × CodeWidth} (h : (encAccept e b).2 = some o) :
    e.curMatch ≠ [] ∧ o = encEmitted e := by
  rcases encAccept_cases e b with ⟨-, heq⟩ | ⟨-, -, heq⟩ | ⟨hm, -, heq⟩ <;> rw [heq] at h
  · cases h
  · cases h
  · exact ⟨hm, (Option.some.inj h).symm⟩

/-- The width schedule of the code words that bytes make the encoder write, and the count after them. -/
theorem encAcceptAll_schedule {e : Enc} (h : EncInv e) (bs : ByteSeq) {n : Nat} (hn : e.nextCode = min (256 + n) 4096) :
    (∀ k o, (encAcceptAll e bs).2[k]? = some o →
        o.2 = widthFor (min (256 + (n + k)) 4096) ∧ o.1.toNat < 2 ^ o.2.toNat) ∧
      (encAcceptAll e bs).1.nextCode = min (256 + (n + (encAcceptAll e bs).2.length)) 4096 := by
  induction bs generalizing e n with
  | nil => exact ⟨by simp [encAcceptAll], by simpa [encAcceptAll] using hn⟩
  | cons b bs ih =>
    have hnext := encAccept_next h b hn
    obtain ⟨h1, h2⟩ := ih (encAccept_inv h b) hnext
    refine ⟨?_, ?_⟩
    · intro k o ho
      simp only [encAcceptAll] at ho
      cases hout : (encAccept e b).2 with
      | none =>
        rw [hout] at ho h1
        simpa using h1 k o (by simpa using ho)
      | some x =>
        obtain ⟨hm, rfl⟩ := encAccept_out hout
        rw [hout] at ho h1
        cases k with
        | zero =>
          obtain rfl : encEmitted e = o := by simpa using ho
          exact ⟨by rw [Nat.add_zero, ← hn, ← h.width_eq]; rfl, encEmitted_fits h hm⟩
        | succ k =>
          have := h1 k o (by simpa using ho)
          simpa [Nat.add_assoc, Nat.add_comm 1 k] using this
    · rw [encAcceptAll, h2]
      simp [Nat.add_assoc]

/-- The width schedule of a whole stream (30_encoding.md R72). -/
theorem encStreamCodes_schedule {e : Enc} (h : EncInv e) (bs : ByteSeq) {n : Nat} (hn : e.nextCode = min (256 + n) 4096)
    {k : Nat} {o : Code × CodeWidth} (ho : (encStreamCodes e bs)[k]? = some o) :
    o.2 = widthFor (min (256 + (n + k)) 4096) ∧ o.1.toNat < 2 ^ o.2.toNat := by
  obtain ⟨h1, h2⟩ := encAcceptAll_schedule h bs hn
  have hinv := encAcceptAll_inv h bs
  rw [encStreamCodes, List.getElem?_append] at ho
  split at ho
  · exact h1 k o ho
  · rename_i hk
    split at ho
    · simp at ho
    · rename_i hm
      have hk0 : k = (encAcceptAll e bs).2.length := by
        by_contra hne
        obtain ⟨j, hj⟩ : ∃ j, k - (encAcceptAll e bs).2.length = j + 1 := ⟨k - (encAcceptAll e bs).2.length - 1, by omega⟩
        simp [hj] at ho
      subst hk0
      obtain rfl : encEmitted (encAcceptAll e bs).1 = o := by simpa using ho
      exact ⟨by rw [← h2, ← hinv.width_eq]; rfl, encEmitted_fits hinv hm⟩

/-! The decoder on codes alone. -/

/-- The decoder's registers after a code; `none` where it raises the decode error. -/
def decTakes (d : Dec) (c : Code) : Option Dec :=
  match d.prev with
  | none =>
    if Config.firstCode ≤ c.toNat then none
    else some { d with out := sinkAppendAll d.out (d.dict.seqOf c), prev := some (d.dict.seqOf c) }
  | some p => (decResolve d p c).map (decLearn d p)

/-- Receiving a code, by what the decoder's registers make of it. -/
theorem decReceive_eq (c : Code) (s : State) :
    decReceive c s =
      match decTakes s.dec c with
      | some d => (s.setDec d).setResult .continue
      | none => raiseDecodeError c s := by
  unfold decReceive decTakes
  cases s.dec.prev with
  | none =>
    simp only
    split <;> rfl
  | some p =>
    simp only
    cases decResolve s.dec p c <;> rfl

/-- The decoder's registers after a list of code words, each of the width it reads. -/
def decTakesAll : Dec → List (Code × CodeWidth) → Option Dec
  | d, [] => some d
  | d, (c, w) :: cs => if d.width = w then (decTakes d c).bind (fun d' => decTakesAll d' cs) else none

theorem decTakes_inv {d d' : Dec} {c : Code} (h : DecInv d) (ht : decTakes d c = some d') : DecInv d' := by
  have hrec := decReceive_inv (s := State.reset.setDec d) h c
  rw [decReceive_eq, setDec_dec, ht] at hrec
  exact hrec

/-- Taking a code keeps the phase and appends to the output. -/
theorem decTakes_frame {d d' : Dec} {c : Code} (ht : decTakes d c = some d') :
    d'.phase = d.phase ∧ d.out.data <+: d'.out.data := by
  unfold decTakes at ht
  cases hp : d.prev with
  | none =>
    simp only [hp] at ht
    split at ht
    · cases ht
    · cases ht
      rw [sinkAppendAll_eq]
      exact ⟨rfl, ⟨_, rfl⟩⟩
  | some p =>
    simp only [hp] at ht
    cases hr : decResolve d p c with
    | none => simp [hr] at ht
    | some e =>
      simp only [hr, Option.map_some, Option.some.injEq] at ht
      subst ht
      by_cases hlt : d.nextCode < 4096
      · rw [decLearn_lt _ _ hlt]
        exact ⟨rfl, ⟨_, rfl⟩⟩
      · rw [decLearn_ge _ _ (by omega)]
        exact ⟨rfl, ⟨_, rfl⟩⟩

theorem decTakesAll_out {d d' : Dec} {cs : List (Code × CodeWidth)} (ht : decTakesAll d cs = some d') :
    d.out.data <+: d'.out.data := by
  induction cs generalizing d with
  | nil =>
    cases ht
    exact List.prefix_rfl
  | cons cw cs ih =>
    obtain ⟨c, w⟩ := cw
    simp only [decTakesAll] at ht
    split at ht
    · obtain ⟨d1, h1, h2⟩ := Option.bind_eq_some_iff.1 ht
      exact (decTakes_frame h1).2.trans (ih h2)
    · cases ht

/-! The decoder one entry behind the encoder. -/

/-- The decoder that has taken every code word an encoder has written so far: it has not taken the first one, or it lacks
exactly the encoder's newest entry, whose last byte is the first byte of the encoder's match. -/
structure Lag (e : Enc) (d : Dec) : Prop where
  undef : d.prev = none → e.dict = []
  matchLed : ∀ p, d.prev = some p →
    ∃ f m, e.curMatch = f :: m ∧
      (d.nextCode < 4096 → e.dict = d.dict ++ [(codeOfCount d.nextCode, p ++ [f])]) ∧
      (d.nextCode = 4096 → e.dict = d.dict)

theorem lag_fresh (e : Enc) (d : Dec) (he : e.dict = []) (hd : d.prev = none) : Lag e d :=
  ⟨fun _ => he, fun p hp => by rw [hd] at hp; cases hp⟩

theorem Lag.next {e : Enc} {d : Dec} (he : EncInv e) (hd : DecInv d) (h : Lag e d) :
    (d.prev = none → e.nextCode = 256 ∧ d.nextCode = 256) ∧
      (∀ p, d.prev = some p → e.nextCode = min (d.nextCode + 1) 4096) ∧ e.width = d.width := by
  have h1 := he.next_eq
  have h2 := hd.next_eq
  have h3 := hd.next_le
  simp only [Config.firstCode] at h1 h2
  cases hp : d.prev with
  | none =>
    have hx := h.undef hp
    obtain ⟨hy, hw⟩ := hd.undef_fresh hp
    rw [hx] at h1
    rw [hy] at h2
    refine ⟨fun _ => ⟨by simpa using h1, by simpa using h2⟩, fun p hp' => (by cases hp'), ?_⟩
    rw [he.width_eq, hw, h1]
    rfl
  | some p =>
    obtain ⟨f, m, -, hlt, hge⟩ := h.matchLed p hp
    have hnext : e.nextCode = min (d.nextCode + 1) 4096 := by
      by_cases hc : d.nextCode < 4096
      · have := hlt hc
        rw [this] at h1
        simp at h1
        omega
      · have := hge (by omega)
        rw [this] at h1
        omega
    refine ⟨fun hh => (by cases hh), fun _ _ => hnext, ?_⟩
    rw [he.width_eq, hd.width_eq (by simp [hp]), hnext]
    by_cases hc : d.nextCode < 4096
    · rw [Nat.min_eq_left (by omega)]
    · have : d.nextCode = 4096 := by omega
      rw [this]
      rfl

/-- The code an encoder writes is taken by the decoder that lags behind it: it emits the encoder's match, and its
dictionary becomes the encoder's. -/
theorem Lag.takes {e : Enc} {d : Dec} (he : EncInv e) (hd : DecInv d) (h : Lag e d) (hm : e.curMatch ≠ []) :
    ∃ d', decTakes d (encEmitted e).1 = some d' ∧ d'.out.data = d.out.data ++ e.curMatch ∧ d'.prev = some e.curMatch ∧
      d'.dict = e.dict ∧ d'.nextCode = e.nextCode := by
  obtain ⟨hn1, hn2, -⟩ := h.next he hd
  have hseq := encEmitted_seq he hm
  have hlt := encEmitted_lt_next he hm
  have hle := hd.next_le
  cases hp : d.prev with
  | none =>
    obtain ⟨ha, hb⟩ := hn1 hp
    have hlit : (encEmitted e).1.toNat < 256 := by omega
    have hx := seqOf?_literal d.dict hlit
    have hmatch : d.dict.seqOf (encEmitted e).1 = e.curMatch := by
      rw [seqOf_of_some hx]
      rw [seqOf?_literal e.dict hlit] at hseq
      exact Option.some.inj hseq
    refine ⟨{ d with out := sinkAppendAll d.out e.curMatch, prev := some e.curMatch }, ?_, ?_, rfl, ?_, hb.trans ha.symm⟩
    · simp only [decTakes, hp, hmatch]
      rw [if_neg (by simp only [Config.firstCode]; omega)]
    · rw [sinkAppendAll_eq]
    · rw [h.undef hp, (hd.undef_fresh hp).1]
  | some p =>
    obtain ⟨f, m, hfm, hdlt, hdge⟩ := h.matchLed p hp
    have hne := hn2 p hp
    have hres : decResolve d p (encEmitted e).1 = some e.curMatch := by
      rcases decResolve_cases d p (encEmitted e).1 with ⟨hc, hr⟩ | ⟨hc, hr⟩ | ⟨hc, hr⟩ <;> rw [hr]
      · have hpres := hd.present hc
        have : e.dict.seqOf? (encEmitted e).1 = some (d.dict.seqOf (encEmitted e).1) := by
          by_cases hcap : d.nextCode < 4096
          · rw [hdlt hcap]
            exact seqOf?_append _ _ hpres
          · rw [hdge (by omega)]
            exact hpres
        rw [hseq] at this
        exact this.symm
      · have hcap : d.nextCode < 4096 := by
          have := (encEmitted e).1.isLt
          omega
        have hnd := hd.next_eq
        simp only [Config.firstCode] at hnd
        rw [seqOf?_learned he.dict_wf (by omega), hdlt hcap] at hseq
        simp [show (encEmitted e).1.toNat - 256 = d.dict.length by omega] at hseq
        have hpne := hd.prev_ne hp
        obtain ⟨x, p', rfl⟩ := List.exists_cons_of_ne_nil hpne
        rw [hfm] at hseq
        have hxf : x = f := by simpa using congrArg List.head? hseq
        rw [hfm, ← hseq, hxf]
        rfl
      · omega
    refine ⟨decLearn d p e.curMatch, by simp [decTakes, hp, hres], ?_⟩
    by_cases hcap : d.nextCode < 4096
    · rw [decLearn_lt _ _ hcap]
      refine ⟨rfl, rfl, ?_, ?_⟩
      · rw [hdlt hcap, hfm]
        rfl
      · simp only
        omega
    · rw [decLearn_ge _ _ (by omega)]
      refine ⟨rfl, rfl, (hdge (by omega)).symm, ?_⟩
      simp only
      omega

/-- The lag is kept when the encoder goes on with a new one-byte match. -/
theorem Lag.learn {e : Enc} {d : Dec} {b : Byte} (hp : d.prev = some e.curMatch) (hdict : d.dict = e.dict)
    (hnext : d.nextCode = e.nextCode) : Lag { encLearn e (e.curMatch ++ [b]) with curMatch := [b] } d := by
  refine ⟨fun h => (by rw [hp] at h; cases h), fun p hp' => ⟨b, [], rfl, fun hlt => ?_, fun hge => ?_⟩⟩
  · rw [hp] at hp'
    cases hp'
    rw [encLearn_lt _ (by omega), hdict, hnext]
    rfl
  · rw [encLearn_ge _ (by omega), hdict]

/-- The decoder takes all the code words of a stream, and its output becomes the encoder's input (R150). -/
theorem Lag.takesAll {e : Enc} {d : Dec} (he : EncInv e) (hd : DecInv d) (h : Lag e d) (bs : ByteSeq) :
    ∃ d', decTakesAll d (encStreamCodes e bs) = some d' ∧ d'.out.data = d.out.data ++ e.curMatch ++ bs := by
  induction bs generalizing e d with
  | nil =>
    by_cases hm : e.curMatch = []
    · exact ⟨d, by simp [encStreamCodes, encAcceptAll, hm, decTakesAll], by simp [hm]⟩
    · obtain ⟨d', h1, h2, -⟩ := h.takes he hd hm
      have hw : d.width = (encEmitted e).2 := (h.next he hd).2.2.symm
      refine ⟨d', ?_, by simpa using h2⟩
      simp only [encStreamCodes, encAcceptAll, hm, if_false, List.nil_append]
      rw [show [encEmitted e] = [((encEmitted e).1, (encEmitted e).2)] from rfl]
      simp [decTakesAll, hw, h1]
  | cons b bs ih =>
    have hcons : encStreamCodes e (b :: bs) = (encAccept e b).2.toList ++ encStreamCodes (encAccept e b).1 bs :=
      List.append_assoc _ _ _
    have hinv := encAccept_inv he b
    rw [hcons]
    rcases encAccept_cases e b with ⟨hm, heq⟩ | ⟨hm, -, heq⟩ | ⟨hm, -, heq⟩ <;> rw [heq] at hinv ⊢
    · have hlag : Lag { e with curMatch := [b] } d := by
        refine ⟨h.undef, fun p hp => ?_⟩
        obtain ⟨f, m, hfm, -⟩ := h.matchLed p hp
        rw [hm] at hfm
        cases hfm
      obtain ⟨d', h1, h2⟩ := ih hinv hd hlag
      exact ⟨d', by simpa using h1, by simpa [hm] using h2⟩
    · have hlag : Lag { e with curMatch := e.curMatch ++ [b] } d := by
        refine ⟨h.undef, fun p hp => ?_⟩
        obtain ⟨f, m, hfm, h3⟩ := h.matchLed p hp
        exact ⟨f, m ++ [b], by simp [hfm], h3⟩
      obtain ⟨d', h1, h2⟩ := ih hinv hd hlag
      exact ⟨d', by simpa using h1, by simpa using h2⟩
    · obtain ⟨d1, g1, g2, g3, g4, g5⟩ := h.takes he hd hm
      have hw : d.width = (encEmitted e).2 := (h.next he hd).2.2.symm
      obtain ⟨d', h1, h2⟩ := ih hinv (decTakes_inv hd g1) (Lag.learn (b := b) g3 g4 g5)
      refine ⟨d', ?_, ?_⟩
      · simp only [Option.toList_some, List.cons_append, List.nil_append]
        rw [show encEmitted e = ((encEmitted e).1, (encEmitted e).2) from rfl]
        simp only [decTakesAll, hw, if_true, g1, Option.bind_some]
        exact h1
      · rw [h2, g2]
        simp

/-! The decoder on bits. -/

/-- A decoder whose unpacker can deliver the bits of code words it takes, or only the first of these bits, followed by at
most 7 pad bits, ends with `DONE`; its output is that of the code words that are whole (R150, R151). -/
theorem decompressLoop_codes (cs : List (Code × CodeWidth)) (pad : Nat) (hpad : pad < 8) (n : Nat) (s : State) {d' : Dec}
    (hu : UpInv s.up) (heos : s.up.eos = false) (hd : DecInv s.dec) (hrun : s.dec.phase = .run)
    (hfit : ∀ cw ∈ cs, cw.1.toNat < 2 ^ cw.2.toNat) (ht : decTakesAll s.dec cs = some d') (hn : upBitsAvailable s.up < n)
    (hb : upBits s.up <+: codeWordsBits cs ++ List.replicate pad false) :
    ∃ t, decompressLoop n s = .next t ∧ t.result = .done ∧ t.dec.phase = .done ∧ t.dec.out.data <+: d'.out.data ∧
      (upBits s.up = codeWordsBits cs ++ List.replicate pad false → t.dec.out.data = d'.out.data) := by
  induction cs generalizing s n with
  | nil =>
    cases n with
    | zero => omega
    | succ n =>
      cases ht
      obtain ⟨hw0, -⟩ := codeWidth_range s.dec.width
      have hl := hb.length_le
      simp only [codeWordsBits_nil, List.nil_append, List.length_replicate] at hl
      obtain ⟨u', h1, -⟩ := upRead_none (w := s.dec.width.toNat) hu heos (by omega)
      refine ⟨decStepRun s, ?_, ?_⟩ <;> simp [decompressLoop, decStepRun, h1]
  | cons cw cs ih =>
    obtain ⟨c, w⟩ := cw
    cases n with
    | zero => omega
    | succ n =>
      simp only [decTakesAll] at ht
      split at ht
      · rename_i hw
        obtain ⟨d1, h1, h2⟩ := Option.bind_eq_some_iff.1 ht
        obtain ⟨hw0, hw1⟩ := codeWidth_range s.dec.width
        have hc : c.toNat < 2 ^ w.toNat := hfit (c, w) (by simp)
        rw [codeWordsBits_cons, List.append_assoc] at hb
        by_cases hlen : s.dec.width.toNat ≤ (upBits s.up).length
        · obtain ⟨c', u', g1, g2, g3, g4, g5, g6⟩ := upRead_some hu heos (by omega) hw1 hlen
          obtain ⟨r, hr⟩ := hb
          have htake : (upBits s.up).take s.dec.width.toNat = codeBits c w.toNat := by
            have := congrArg (List.take s.dec.width.toNat) hr
            rw [List.take_append_of_le_length hlen] at this
            rw [this, hw, List.take_append_of_le_length (by simp), List.take_of_length_le (by simp)]
          have hcc : c' = c := by
            refine BitVec.eq_of_toNat_eq ?_
            rw [g2, htake, bitsValue_codeBits_of_lt hc]
          subst hcc
          have hdrop : upBits u' ++ r = codeWordsBits cs ++ List.replicate pad false := by
            have := congrArg (List.drop s.dec.width.toNat) hr
            rw [List.drop_append_of_le_length hlen, ← g3] at this
            rw [this, hw]
            simp
          have hstep : decStepRun s = ((s.setUp u').setDec d1).setResult .continue := by
            simp [decStepRun, g1, decReceive_eq, h1]
          have hcont : (decStepRun s).result = .continue := by rw [hstep]; rfl
          have hcons := (decStepRun_consumes hu hcont).1
          have hrun1 : d1.phase = .run := (decTakes_frame h1).1.trans hrun
          obtain ⟨t, k1, k2, k3, k4, k5⟩ := ih n (decStepRun s) (by rw [hstep]; exact g4) (by rw [hstep]; exact g5)
            (by rw [hstep]; exact decTakes_inv hd h1) (by rw [hstep]; exact hrun1)
            (fun cw hm => hfit cw (List.mem_cons_of_mem _ hm)) (by rw [hstep]; exact h2) (by omega)
            (by rw [hstep]; exact ⟨r, hdrop⟩)
          refine ⟨t, ?_, k2, k3, k4, fun hwhole => k5 ?_⟩
          · simp only [decompressLoop, hcont, if_true]
            exact k1
          · rw [hstep]
            have : r = [] := by
              rw [hwhole, codeWordsBits_cons, List.append_assoc] at hr
              simpa using hr
            simpa [this] using hdrop
        · obtain ⟨u', g1, -⟩ := upRead_none (w := s.dec.width.toNat) hu heos (by omega)
          have hstep : decStepRun s = ((s.setUp u').setDec { s.dec with phase := .done, status := .done }).setResult .done := by
            simp [decStepRun, g1]
          refine ⟨decStepRun s, by simp [decompressLoop, hstep], by rw [hstep]; rfl, by rw [hstep]; rfl, ?_, fun hwhole => ?_⟩
          · rw [hstep]
            exact (decTakes_frame h1).2.trans (decTakesAll_out h2)
          · have := congrArg List.length hwhole
            simp at this
            rw [hw] at hlen
            omega
      · cases ht

end Sys2Proof.Machine
end

