-- ==== Sys2Proof/Laws/Ports.lean ====
section
/-! SUPPORT. The self-issued steps of the port binding (20_memory.md R66, R67): they are steps of the decoder, they stop
where the next one would wait for its source, and a step whose bits are there does not see bytes that come later. -/

namespace Sys2Proof.Machine

/-- The self-issued steps are steps of a running decoder. -/
theorem selfSteps_eq (n : Nat) (s : State) :
    ∃ k, k ≤ n ∧ selfSteps n s = decSteps k s ∧ ∀ j, j < k → decStepReady (decSteps j s) = true := by
  induction n generalizing s with
  | zero => exact ⟨0, Nat.le_refl _, rfl, by omega⟩
  | succ n ih =>
    rw [selfSteps]
    by_cases hh : decStepReady s = true
    · rw [if_pos hh]
      obtain ⟨k, h1, h2, h3⟩ := ih (decStepRun s)
      refine ⟨k + 1, by omega, h2, ?_⟩
      intro j hj
      cases j with
      | zero => exact hh
      | succ j => exact h3 j (by omega)
    · rw [if_neg hh]
      exact ⟨0, by omega, rfl, by omega⟩

theorem decStepReady_run {s : State} (h : decStepReady s = true) : s.dec.phase = .run := by
  simp only [decStepReady, Bool.and_eq_true, beq_iff_eq] at h
  exact h.1

/-- A step that is ready and does not find end-of-stream receives a code, and the end is not signalled. -/
theorem decStepReady_reads {s : State} (hu : UpInv s.up) (he : s.up.eos = false) (h : decStepReady s = true) :
    ∃ c u, upRead s.up s.dec.width.toNat = (some c, u) ∧ UpInv u ∧ u.eos = false ∧ u.src.data = s.up.src.data ∧
      decStepRun s = decReceive c (s.setUp u) := by
  have hw := codeWidth_range s.dec.width
  simp only [decStepReady, he, Bool.false_or, Bool.and_eq_true, beq_iff_eq, decide_eq_true_eq] at h
  rw [← upBits_length hu.mid.left_le] at h
  obtain ⟨c, u, h1, -, -, h4, h5, h6⟩ := upRead_some hu he (by omega) hw.2 h.2
  exact ⟨c, u, h1, h4, h5, h6, by simp [decStepRun, h1]⟩

theorem decStepReady_eos {s : State} (hu : UpInv s.up) (he : s.up.eos = false) (h : decStepReady s = true) :
    UpInv (decStepRun s).up ∧ (decStepRun s).up.eos = false ∧ (decStepRun s).up.src.data = s.up.src.data := by
  obtain ⟨c, u, -, h2, h3, h4, h5⟩ := decStepReady_reads hu he h
  rw [h5, (decReceive_frame c _).2.1]
  exact ⟨h2, h3, h4⟩

/-- The self-issued steps stop in a phase other than `RUN`, or where the next step waits for its source. -/
theorem selfSteps_stop (n : Nat) (s : State) (hu : UpInv s.up) (he : s.up.eos = false) (hn : upBitsAvailable s.up < n) :
    decStepReady (selfSteps n s) = false := by
  induction n generalizing s with
  | zero => omega
  | succ n ih =>
    rw [selfSteps]
    cases hh : decStepReady s with
    | false => simpa using hh
    | true =>
      simp only [if_true]
      obtain ⟨h1, h2, -⟩ := decStepReady_eos hu he hh
      by_cases hc : (decStepRun s).result = .continue
      · have := (decStepRun_consumes hu hc).1
        exact ih _ h1 h2 (by omega)
      · have hph : (decStepRun s).dec.phase ≠ .run := by
          rcases decStepRun_ends hc with ⟨-, h⟩ | ⟨-, h⟩ <;> simp [h]
        have hnr : decStepReady (decStepRun s) = false := by
          simp [decStepReady, hph]
        cases n with
        | zero => exact hnr
        | succ n =>
          rw [selfSteps, hnr]
          simpa using hnr

/-- The state with more bytes at the end of the compressed source. -/
def State.addBytes (s : State) (x : ByteSeq) : State :=
  s.setUp { s.up with src := { s.up.src with data := s.up.src.data ++ x } }

theorem arrive_eq (s : State) (b : Byte) : s.arrive b = s.addBytes [b] := rfl

theorem srcNext_addBytes {src : Source} {b : Byte} {src' : Source} (x : ByteSeq) (h : srcNext src = (some b, src')) :
    srcNext { src with data := src.data ++ x } = (some b, { src' with data := src'.data ++ x }) := by
  unfold srcNext at h
  cases hg : src.data[src.pos]? with
  | none => rw [hg] at h; cases h
  | some b' =>
    rw [hg] at h
    obtain ⟨h1, h2⟩ := Prod.mk.inj h
    subst h2
    have hlt := (List.getElem?_eq_some_iff.1 hg).1
    have : (src.data ++ x)[src.pos]? = some b' := by
      rw [List.getElem?_append_left hlt]
      exact hg
    simp [srcNext, this, Option.some.inj h1]

theorem upGather_addBytes (n : Nat) (r : Code) (u : Up) (x : ByteSeq) {c : Code} {u' : Up} (h : upGather n r u = (some c, u')) :
    upGather n r { u with src := { u.src with data := u.src.data ++ x } } =
      (some c, { u' with src := { u'.src with data := u'.src.data ++ x } }) := by
  induction n generalizing r u with
  | zero =>
    simp only [upGather, Prod.mk.injEq, Option.some.injEq] at h
    obtain ⟨rfl, rfl⟩ := h
    rfl
  | succ n ih =>
    simp only [upGather] at h ⊢
    by_cases h0 : u.left = 0
    · rcases hs : srcNext u.src with ⟨ob, src'⟩
      cases ob with
      | none => simp [upFill, h0, hs] at h
      | some b =>
        have hs' := srcNext_addBytes x hs
        simp only [upFill, h0, if_true, hs, hs'] at h ⊢
        exact ih _ _ h
    · simp only [upFill, h0, if_false] at h ⊢
      exact ih _ _ h

theorem upRead_addBytes {u : Up} {w : Nat} (x : ByteSeq) {c : Code} {u' : Up} (h : upRead u w = (some c, u')) :
    upRead { u with src := { u.src with data := u.src.data ++ x } } w =
      (some c, { u' with src := { u'.src with data := u'.src.data ++ x } }) := by
  unfold upRead at h ⊢
  split at h
  · cases h
  · rename_i he
    show (if u.eos = true then _ else _) = _
    rw [if_neg he]
    exact upGather_addBytes w 0#12 u x h

/-- A code is received in the same way whatever the unpacker holds. -/
theorem decReceive_setUp (c : Code) (s : State) (u : Up) : decReceive c (s.setUp u) = (decReceive c s).setUp u := by
  rw [decReceive_eq, decReceive_eq, setUp_dec]
  cases decTakes s.dec c <;> rfl

/-- A step whose bits are there does not see the bytes that come later (R66). -/
theorem decStepRun_addBytes {s : State} (x : ByteSeq) (hu : UpInv s.up) (he : s.up.eos = false)
    (h : decStepReady s = true) : decStepRun (s.addBytes x) = (decStepRun s).addBytes x := by
  obtain ⟨c, u, h1, -, -, -, h5⟩ := decStepReady_reads hu he h
  have h1' := upRead_addBytes x h1
  have : decStepRun (s.addBytes x) =
      decReceive c (s.setUp { u with src := { u.src with data := u.src.data ++ x } }) := by
    simp only [decStepRun, State.addBytes, setUp_up, setUp_dec, h1', setUp_setUp]
  rw [this, h5, State.addBytes, (decReceive_frame c (s.setUp u)).2.1, decReceive_setUp, decReceive_setUp]
  rfl

/-- Steps whose bits are there do not see the bytes that come later. -/
theorem decSteps_addBytes (k : Nat) {s : State} (x : ByteSeq) (hu : UpInv s.up) (he : s.up.eos = false)
    (h : ∀ j, j < k → decStepReady (decSteps j s) = true) : decSteps k (s.addBytes x) = (decSteps k s).addBytes x := by
  induction k generalizing s with
  | zero => rfl
  | succ k ih =>
    have h0 := h 0 (by omega)
    obtain ⟨h1, h2, -⟩ := decStepReady_eos hu he h0
    rw [decSteps, decStepRun_addBytes x hu he h0, ih h1 h2 fun j hj => h (j + 1) (by omega)]
    rfl

/-! The source of the port binding (R67 (a); log 11). -/

theorem portFed_of_fed {u : Up} (h : u.fed = true) : portFed u = u := by simp [portFed, h]

@[simp] theorem portFed_fed (u : Up) : (portFed u).fed = true := by
  unfold portFed
  split
  · assumption
  · rfl

@[simp] theorem portFed_portFed (u : Up) : portFed (portFed u) = portFed u := portFed_of_fed (portFed_fed u)

/-- A source that begins at a `START` or a reset is, for the port, the one of the bytes transferred from then on. -/
theorem portFed_restarted (u : Up) :
    portFed (restartedUp u) = { buf := 0#8, left := 0, eos := false, src := attachedSource [], fed := true } := by
  rcases u with ⟨b, l, e, s, f⟩
  cases f <;> rfl

theorem portFed_inv {u : Up} (h : UpInv u) : UpInv (portFed u) := by
  unfold portFed
  split
  · exact h
  · exact ⟨h.left_le, h.buf_low, h.eos_left, Nat.zero_le _⟩

/-- Steps of the decoder do not look at the compressor, the result or the pending acts. -/
theorem decStepRun_congr {s t : State} (hu : s.up = t.up) (hd : s.dec = t.dec) :
    (decStepRun s).up = (decStepRun t).up ∧ (decStepRun s).dec = (decStepRun t).dec := by
  unfold decStepRun
  rw [hu, hd]
  split
  · simp [hd]
  · rw [decReceive_eq, decReceive_eq]
    simp only [setUp_dec, hd]
    cases decTakes t.dec _ <;> simp [raiseDecodeError, hd]

theorem decSteps_congr (k : Nat) {s t : State} (hu : s.up = t.up) (hd : s.dec = t.dec) :
    (decSteps k s).up = (decSteps k t).up ∧ (decSteps k s).dec = (decSteps k t).dec := by
  induction k with
  | zero => exact ⟨hu, hd⟩
  | succ k ih =>
    rw [decSteps_succ, decSteps_succ]
    exact decStepRun_congr ih.1 ih.2

/-! Taking bytes from the decoder's sink. -/

/-- The state with another port side of the decoder's sink: the count of its bytes taken, and the bytes that still wait
from earlier streams. -/
def State.setTaken (s : State) (n : Nat) (bl : ByteSeq) : State :=
  s.setDec { s.dec with out := { s.dec.out with taken := n, backlog := bl } }

@[simp] theorem setTaken_up (s : State) (n : Nat) (bl : ByteSeq) : (s.setTaken n bl).up = s.up := rfl

/-- A transfer changes the port side of the sink alone (R66). -/
theorem sinkTake_eq (k : Sink) : ∃ n bl, sinkTake k = { k with taken := n, backlog := bl } := by
  unfold sinkTake
  split
  · exact ⟨_, _, rfl⟩
  · split <;> exact ⟨_, _, rfl⟩

/-- A transfer takes the oldest byte that waits, if one does (R66). -/
theorem sinkOwed_sinkTake (k : Sink) : sinkOwed k = (sinkOwed k).head?.toList ++ sinkOwed (sinkTake k) := by
  unfold sinkTake sinkOwed
  split
  · rename_i b rest h
    simp [h]
  · rename_i h
    split
    · rename_i hlt
      rw [h, List.nil_append, List.nil_append, List.drop_eq_getElem_cons hlt]
      rfl
    · rename_i hge
      simp [h, List.drop_eq_nil_of_le (Nat.le_of_not_lt hge)]

/-- Appending to a sink leaves the bytes that wait where they are (R67 (b)). -/
theorem sinkOwed_append {k k' : Sink} (ht : k'.taken = k.taken) (hb : k'.backlog = k.backlog) (hd : k.data <+: k'.data) :
    sinkOwed k <+: sinkOwed k' := by
  obtain ⟨x, hx⟩ := hd
  rw [sinkOwed, sinkOwed, ht, hb, ← hx, List.drop_append, ← List.append_assoc]
  exact ⟨_, rfl⟩

/-- A fresh sink owes what the old one owed (R67 (b)). -/
@[simp] theorem sinkOwed_fresh (k : Sink) : sinkOwed (freshSink k) = sinkOwed k := by simp [sinkOwed, freshSink]

/-- Receiving a code does not look at what the host has taken from the sink (R67 (b)). -/
theorem decReceive_setTaken (c : Code) (s : State) (n : Nat) (bl : ByteSeq) :
    decReceive c (s.setTaken n bl) = (decReceive c s).setTaken n bl := by
  have hp : (s.setTaken n bl).dec.prev = s.dec.prev := rfl
  have hr : ∀ p, decResolve (s.setTaken n bl).dec p c = decResolve s.dec p c := fun _ => rfl
  simp only [decReceive, hp, hr]
  cases s.dec.prev with
  | none =>
    simp only
    split
    · rfl
    · simp only [sinkAppendAll_eq]
      rfl
  | some p =>
    simp only
    cases decResolve s.dec p c with
    | none => rfl
    | some e =>
      simp only [decLearn, sinkAppendAll_eq]
      by_cases h : s.dec.nextCode < Config.capacity
      · simp only [State.setTaken, setDec_dec, h, if_true]
        rfl
      · simp only [State.setTaken, setDec_dec, h, if_false]
        rfl

theorem decStepRun_setTaken (s : State) (n : Nat) (bl : ByteSeq) :
    decStepRun (s.setTaken n bl) = (decStepRun s).setTaken n bl := by
  have hw : (s.setTaken n bl).dec.width = s.dec.width := rfl
  rcases h : upRead s.up s.dec.width.toNat with ⟨r, u⟩
  cases r with
  | none => simp only [decStepRun, setTaken_up, hw, h]; rfl
  | some c =>
    simp only [decStepRun, setTaken_up, hw, h]
    exact decReceive_setTaken c (s.setUp u) n bl

theorem decSteps_setTaken (k : Nat) (s : State) (n : Nat) (bl : ByteSeq) :
    decSteps k (s.setTaken n bl) = (decSteps k s).setTaken n bl := by
  induction k generalizing s with
  | zero => rfl
  | succ k ih => rw [decSteps, decStepRun_setTaken, ih, decSteps]

/-- Steps of the decoder leave the port side of its sink alone. -/
theorem decReceive_port (c : Code) (s : State) :
    (decReceive c s).dec.out.taken = s.dec.out.taken ∧ (decReceive c s).dec.out.backlog = s.dec.out.backlog := by
  have h := decReceive_setTaken c s s.dec.out.taken s.dec.out.backlog
  rw [show s.setTaken s.dec.out.taken s.dec.out.backlog = s from rfl] at h
  rw [h]
  exact ⟨rfl, rfl⟩

theorem decStepRun_owed (s : State) : sinkOwed s.dec.out <+: sinkOwed (decStepRun s).dec.out := by
  have h := decStepRun_setTaken s s.dec.out.taken s.dec.out.backlog
  rw [show s.setTaken s.dec.out.taken s.dec.out.backlog = s from rfl] at h
  refine sinkOwed_append ?_ ?_ (decStepRun_grows s).2.2 <;> rw [h] <;> rfl

theorem decSteps_owed (k : Nat) (s : State) : sinkOwed s.dec.out <+: sinkOwed (decSteps k s).dec.out := by
  induction k generalizing s with
  | zero => exact List.prefix_rfl
  | succ k ih => exact (decStepRun_owed s).trans (ih _)

end Sys2Proof.Machine
end

