-- ==== Sys2Proof/Tests/Slice0.lean ====
section
/-! SUPPORT. The tests of the model: ill-formed instructions, words written out from the spec's encodings, single steps
from the test vectors of 95_test_vectors.md, and for each statement with hypotheses a state and operands that meet them. -/

namespace Sys2Proof.Tests.Slice0

open Sys2Proof.Machine

/-! ## Ill-formed instructions (30_encoding.md R87, R71) -/

theorem test_illformed_pkWrite_width_zero : (Instr.pkWrite 5 0).wellFormed = false := by decide
theorem test_illformed_pkWrite_width_13 : (Instr.pkWrite 5 13).wellFormed = false := by decide
theorem test_illformed_upRead_width_zero : (Instr.upRead 0).wellFormed = false := by decide
theorem test_illformed_upRead_width_13 : (Instr.upRead 13).wellFormed = false := by decide
theorem test_illformed_w9Dict_literal : (Instr.w9Dict 255).wellFormed = false := by decide
theorem test_illformed_w10Dict_literal : (Instr.w10Dict 255).wellFormed = false := by decide
theorem test_illformed_w11Dict_literal : (Instr.w11Dict 255).wellFormed = false := by decide
theorem test_illformed_w12Dict_literal : (Instr.w12Dict 255).wellFormed = false := by decide
theorem test_wellformed_bounds :
    (Instr.pkWrite 5 1).wellFormed && (Instr.pkWrite 5 12).wellFormed && (Instr.upRead 1).wellFormed &&
      (Instr.upRead 12).wellFormed && (Instr.w9Dict 256).wellFormed && (Instr.w12Dict 256).wellFormed = true := by decide

/-! ## Words written out from 30_encoding.md R71 and R81, every constructor -/

theorem test_decode_pkStart : decode (.command 0b0000_0000_000000000000) = .ok .pkStart := by decide
theorem test_decode_pkWrite : decode (.command 0b0001_1001_000100101100) = .ok (.pkWrite 300 9) := by decide
theorem test_decode_pkFlush : decode (.command 0b0010_0000_000000000000) = .ok .pkFlush := by decide
theorem test_decode_upStart : decode (.command 0b0011_0000_000000000000) = .ok .upStart := by decide
theorem test_decode_upRead : decode (.command 0b0100_1100_000000000000) = .ok (.upRead 12) := by decide
theorem test_decode_encStart : decode (.command 0b0101_0000_000000000000) = .ok .encStart := by decide
theorem test_decode_encByte : decode (.command 0b0110_0000_0000_10000001) = .ok (.encByte 0x81) := by decide
theorem test_decode_encEnd : decode (.command 0b0111_0000_000000000000) = .ok .encEnd := by decide
theorem test_decode_encAbort : decode (.command 0b1000_0000_000000000000) = .ok .encAbort := by decide
theorem test_decode_decStart : decode (.command 0b1001_0000_000000000000) = .ok .decStart := by decide
theorem test_decode_decStep : decode (.command 0b1010_0000_000000000000) = .ok .decStep := by decide
theorem test_decode_compress : decode (.command 0b1011_0000_000000000000) = .ok .compress := by decide
theorem test_decode_decompress : decode (.command 0b1100_0000_000000000000) = .ok .decompress := by decide
theorem test_decode_reservedD : decode (.command 0b1101_0000_000000000001) = .ok (.reservedD 1) := by decide
theorem test_decode_reservedE : decode (.command 0b1110_1000_000000000000) = .ok (.reservedE 0x8000) := by decide
theorem test_decode_reservedF : decode (.command 0b1111_1111_111111111111) = .ok (.reservedF 0xFFFF) := by decide
theorem test_decode_w9Lit : decode (.code9 0b0_01000001) = .ok (.w9Lit 0x41) := by decide
theorem test_decode_w9Dict : decode (.code9 0b1_00000010) = .ok (.w9Dict 258) := by decide
theorem test_decode_w10Lit : decode (.code10 0b00_11111111) = .ok (.w10Lit 0xFF) := by decide
theorem test_decode_w10Dict : decode (.code10 0b01_00000000) = .ok (.w10Dict 256) := by decide
theorem test_decode_w11Lit : decode (.code11 0b000_10101100) = .ok (.w11Lit 172) := by decide
theorem test_decode_w11Dict : decode (.code11 0b100_00000001) = .ok (.w11Dict 1025) := by decide
theorem test_decode_w12Lit : decode (.code12 0b0000_01001101) = .ok (.w12Lit 77) := by decide
theorem test_decode_w12Dict : decode (.code12 0b1111_11111111) = .ok (.w12Dict 4095) := by decide
theorem test_decode_unused_code_field : decode (.command 0x50001) = .error (.unusedFieldNotZero 5) := by decide
theorem test_decode_unused_width_field : decode (.command 0xA9000) = .error (.unusedFieldNotZero 10) := by decide
theorem test_decode_unused_byte_field : decode (.command 0x60100) = .error (.unusedFieldNotZero 6) := by decide
theorem test_decode_table_words :
    decodeTableWord 24 0x1912C = some (.pkWrite 300 9) ∧ decodeTableWord 16 0x102 = some (.w9Dict 258) ∧
      decodeTableWord 12 0xFFF = some (.w12Dict 4095) ∧ decodeTableWord 10 0x041 = some (.w10Lit 0x41) := by decide

/-! ## Single steps -/

/-- The state an outcome goes on with. -/
def nextOf (o : Host.Outcome State Fault Refusal) : Option State :=
  match o with
  | .next t => some t
  | .fault _ => none
  | .refused _ => none

/-- Why an outcome refuses. -/
def refusalOf (o : Host.Outcome State Fault Refusal) : Option Refusal :=
  match o with
  | .next _ => none
  | .fault _ => none
  | .refused r => some r

/-- The packer with some bits pending and some bytes out. -/
def pkAt (acc : Byte) (cnt : Nat) (out : ByteSeq) : Pk :=
  { acc := acc, cnt := cnt, out := { data := out, taken := 0, backlog := [] } }

/-- The unpacker with some bits left, in a source. -/
def upAt (buf : Byte) (left : Nat) (data : ByteSeq) (pos : Nat) : Up :=
  { buf := buf, left := left, eos := false, src := { data := data, pos := pos }, fed := false }

/-- The compressor of a program of 95_test_vectors.md, P1. -/
def encAt (d : Dict) (m : ByteSeq) (p : Pk) : State :=
  (State.reset.setEnc { State.reset.enc with dict := d, nextCode := 256 + d.length, curMatch := m }).setPk p

/-- The decompressor of a program of 95_test_vectors.md, P2. -/
def decAt (d : Dict) (prev : Option ByteSeq) (out : ByteSeq) (u : Up) : State :=
  (State.reset.setDec
    { State.reset.dec with
      dict := d
      nextCode := 256 + d.length
      prev := prev
      out := { data := out, taken := 0, backlog := [] } }).setUp u

/-- The packer's registers. -/
def pkView (t : State) : Byte × Nat × ByteSeq := (t.pk.acc, t.pk.cnt, t.pk.out.data)

/-- The unpacker's registers and the result. -/
def upView (t : State) : Byte × Nat × Nat × Bool × OpResult := (t.up.buf, t.up.left, t.up.src.pos, t.up.eos, t.result)

/-- The encoder's registers that a stream changes. -/
structure EncView where
  curMatch : ByteSeq
  nextCode : Nat
  width : CodeWidth
  dict : Dict
deriving DecidableEq, Repr

/-- The decoder's registers that a stream changes. -/
structure DecView where
  out : ByteSeq
  nextCode : Nat
  width : CodeWidth
  prev : Option ByteSeq
  dict : Dict
deriving DecidableEq, Repr

def encView (t : State) : EncView := ⟨t.enc.curMatch, t.enc.nextCode, t.enc.width, t.enc.dict⟩
def decView (t : State) : DecView := ⟨t.dec.out.data, t.dec.nextCode, t.dec.width, t.dec.prev, t.dec.dict⟩

/-- P3 row 1. -/
theorem test_pkStart : (nextOf (exec .pkStart (State.reset.setPk (pkAt 0x01 1 [0x20])))).map pkView = some (0, 0, []) := by
  decide
/-- P3 rows 2, 3. -/
theorem test_pkWrite :
    (nextOf (exec (.pkWrite 300 9) (State.reset.setPk (pkAt 0x01 1 [0x02])))).map pkView = some (0x00, 2, [0x02, 0xCB]) := by
  decide
/-- PK4: a byte straddles the boundary. -/
theorem test_pkWrite_straddles :
    (nextOf (exec (.pkWrite 255 8) (State.reset.setPk (pkAt 0x01 1 [])))).map pkView = some (0x01, 1, [0xFF]) := by decide
/-- PK6, its last four bits pending. -/
theorem test_pkFlush :
    (nextOf (exec .pkFlush (State.reset.setPk (pkAt 0x0F 4 [0xFF])))).map pkView = some (0, 0, [0xFF, 0xF0]) := by decide
/-- PK3: a flush of nothing adds nothing. -/
theorem test_pkFlush_nothing :
    (nextOf (exec .pkFlush (State.reset.setPk (pkAt 0 0 [0xAB])))).map pkView = some (0, 0, [0xAB]) := by decide
/-- P3 row 5. -/
theorem test_upStart :
    (nextOf (exec .upStart (State.reset.setUp (upAt 0x96 7 [0x02, 0xCB, 0x00] 2)))).map upView =
      some (0, 0, 0, false, .none) := by decide
/-- P3 row 7. -/
theorem test_upRead :
    (nextOf (exec (.upRead 9) (State.reset.setUp (upAt 0x96 7 [0x02, 0xCB, 0x00] 2)))).map upView =
      some (0x00, 6, 3, false, .code 300) := by decide
/-- P3 row 8: the leftover bits are consumed. -/
theorem test_upRead_eos :
    (nextOf (exec (.upRead 9) (State.reset.setUp (upAt 0x00 6 [0x02, 0xCB, 0x00] 3)))).map upView =
      some (0x00, 0, 3, true, .eos) := by decide
/-- P1 row 1. -/
theorem test_encStart :
    (nextOf (exec .encStart (encAt [(256, [0x41, 0x42])] [0x42] (pkAt 0x01 1 [0x20])))).map
      (fun t => (encView t, pkView t)) = some (⟨[], 256, .w9, []⟩, (0, 0, [])) := by decide
/-- P1 row 4. -/
theorem test_encByte_emits :
    (nextOf (exec (.encByte 0x41) (encAt [(256, [0x41, 0x42])] [0x42] (pkAt 0x01 1 [0x20])))).map
        (fun t => (encView t, pkView t)) =
      some (⟨[0x41], 258, .w9, [(256, [0x41, 0x42]), (257, [0x42, 0x41])]⟩, (0x02, 2, [0x20, 0x90])) := by decide
/-- P1 row 5. -/
theorem test_encByte_extends :
    (nextOf (exec (.encByte 0x42)
        (encAt [(256, [0x41, 0x42]), (257, [0x42, 0x41])] [0x41] (pkAt 0x02 2 [0x20, 0x90])))).map
        (fun t => (encView t, pkView t)) =
      some (⟨[0x41, 0x42], 258, .w9, [(256, [0x41, 0x42]), (257, [0x42, 0x41])]⟩, (0x02, 2, [0x20, 0x90])) := by decide
/-- P1 row 9. -/
theorem test_encEnd :
    (nextOf (exec .encEnd
        (encAt [(256, [0x41, 0x42]), (257, [0x42, 0x41]), (258, [0x41, 0x42, 0x41])] [0x41, 0x42, 0x41]
          (pkAt 0x00 3 [0x20, 0x90, 0xA0])))).map (fun t => (pkView t, t.enc.phase)) =
      some ((0, 0, [0x20, 0x90, 0xA0, 0x10, 0x20]), .done) := by decide
/-- A1. -/
theorem test_encAbort :
    (nextOf (exec .encAbort (encAt [(256, [0x41, 0x42])] [0x42] (pkAt 0x01 1 [0x20])))).map
      (fun t => (pkView t, t.enc.phase, t.enc.curMatch)) = some ((0, 0, [0x20, 0x80]), .done, [0x42]) := by decide
/-- P2 row 1. -/
theorem test_decStart :
    (nextOf (exec .decStart (decAt [(256, [0x41, 0x42])] (some [0x42]) [0x41, 0x42] (upAt 0x80 6 [0x20, 0x90] 2)))).map
        (fun t => (decView t, upView t)) =
      some (⟨[], 256, .w9, none, []⟩, (0, 0, 0, false, .none)) := by decide
/-- P2 row 5: KWKWK. -/
theorem test_decStep_kwkwk :
    (nextOf (exec .decStep
        (decAt [(256, [0x41, 0x42]), (257, [0x42, 0x41])] (some [0x41, 0x42]) [0x41, 0x42, 0x41, 0x42]
          (upAt 0x80 5 [0x20, 0x90, 0xA0, 0x10, 0x20] 4)))).map (fun t => (decView t, upView t)) =
      some
        (⟨[0x41, 0x42, 0x41, 0x42, 0x41, 0x42, 0x41], 259, .w9, some [0x41, 0x42, 0x41],
            [(256, [0x41, 0x42]), (257, [0x42, 0x41]), (258, [0x41, 0x42, 0x41])]⟩,
          (0x00, 4, 5, false, .continue)) := by decide
/-- P5 row 3: the exception. -/
theorem test_decStep_error :
    (nextOf (exec .decStep (decAt [] (some [0x41]) [0x41] (upAt 0x96 7 [0x20, 0xCB, 0x00] 2)))).map
        (fun t => (decView t, t.dec.phase, statusBits t.dec.status, t.dec.badcode)) =
      some (⟨[0x41], 256, .w9, some [0x41], []⟩, .error, 2, 300) := by decide
theorem test_decStep_error_unpacker :
    (nextOf (exec .decStep (decAt [] (some [0x41]) [0x41] (upAt 0x96 7 [0x20, 0xCB, 0x00] 2)))).map upView =
      some (0x00, 6, 3, false, .error) := by decide
/-- V2. -/
theorem test_compress :
    (nextOf (exec .compress (State.reset.setEnc { State.reset.enc with src := attachedSource [0x41] }))).map pkView =
      some (0, 0, [0x20, 0x80]) := by decide
/-- V4. -/
theorem test_decompress :
    (nextOf (exec .decompress (State.reset.setUp (upAt 0 0 [0x20, 0xC0, 0x00] 0)))).map
      (fun t => (t.dec.out.data, t.result, t.dec.nextCode)) = some ([0x41, 0x41, 0x41], .done, 257) := by decide
/-- R88 (a). -/
theorem test_reserved :
    refusalOf (exec (.reservedD 0) State.reset) = some .reservedOperation ∧
      refusalOf (exec (.reservedE 1) State.reset) = some .reservedOperation ∧
      refusalOf (exec (.reservedF 0xFFFF) State.reset) = some .reservedOperation := by decide
/-- P2 row 2 as a code word. -/
theorem test_w9Lit : (nextOf (exec (.w9Lit 0x41) State.reset)).map decView = some ⟨[0x41], 256, .w9, some [0x41], []⟩ := by
  decide
/-- V7: the first code is no literal. -/
theorem test_w9Dict_first :
    (nextOf (exec (.w9Dict 256) State.reset)).map (fun t => (t.dec.badcode, t.dec.phase, t.dec.out.data)) =
      some (256, .error, []) := by decide
/-- P2 row 4 as a code word. -/
theorem test_w9Dict :
    (nextOf (exec (.w9Dict 256)
        (decAt [(256, [0x41, 0x42])] (some [0x42]) [0x41, 0x42] State.reset.up))).map decView =
      some ⟨[0x41, 0x42, 0x41, 0x42], 258, .w9, some [0x41, 0x42], [(256, [0x41, 0x42]), (257, [0x42, 0x41])]⟩ := by decide

/-- A decoder that has learned one entry and reads at the given width. -/
def decWide (w : CodeWidth) : State :=
  (decAt [(256, [0x41, 0x42])] (some [0x42]) [] State.reset.up).setDec
    { (decAt [(256, [0x41, 0x42])] (some [0x42]) [] State.reset.up).dec with width := w }

theorem test_w10Lit : (nextOf (exec (.w10Lit 0xFF) (decWide .w10))).map (·.dec.out.data) = some [0xFF] := by decide
theorem test_w10Dict : (nextOf (exec (.w10Dict 256) (decWide .w10))).map (·.dec.out.data) = some [0x41, 0x42] := by decide
theorem test_w11Lit : (nextOf (exec (.w11Lit 0xFF) (decWide .w11))).map (·.dec.out.data) = some [0xFF] := by decide
theorem test_w11Dict : (nextOf (exec (.w11Dict 257) (decWide .w11))).map (·.dec.out.data) = some [0x42, 0x42] := by decide
theorem test_w12Lit : (nextOf (exec (.w12Lit 0xFF) (decWide .w12))).map (·.dec.out.data) = some [0xFF] := by decide
theorem test_w12Dict : (nextOf (exec (.w12Dict 258) (decWide .w12))).map (·.dec.badcode) = some 258 := by decide

/-- A placed operation and a placed code word are what the next step runs. -/
theorem test_withFetchWord :
    (nextOf (step (State.reset.withFetchWord 24 0x60041))).map (·.enc.curMatch) = some [0x41] ∧
      (nextOf (step (State.reset.withFetchWord 16 0x041))).map (·.dec.out.data) = some [0x41] := by decide
/-- The port binding carries V2's stream (20_memory.md R66). -/
theorem test_port_stream :
    (nextOf (runEvents [.port .dStart, .port (.dIn 0x20), .port (.dIn 0x80), .port .dOut, .port .dInEnd] State.reset)).map
      (fun t => (t.dec.out.data, t.dec.out.taken, dDone t)) = some ([0x41], 1, true) := by decide
/-- A reset abandons a stream on `d_in`: its bytes are not read again (20_memory.md R67 (a), 70_reset_and_hazards.md
R191), and the stream that begins there is empty. -/
theorem test_port_reset_abandons_the_source :
    (nextOf (runEvents [.port .dStart, .port (.dIn 0x20), .port (.dIn 0x80), .reset, .port .dInEnd] State.reset)).map
      (fun t => (t.dec.out.data, t.result)) = some ([], .done) := by decide
/-- A start pulse drops no byte that waits at the output port (R67 (b)): V2's two bytes go out after it. -/
theorem test_port_start_drops_no_output :
    (nextOf (runEvents [.port .cStart, .port (.cIn 0x41), .port .cInEnd, .port .cOut, .port .cStart] State.reset)).map
      (fun t => (t.pk.out.data, cOutData t, sinkOwed t.pk.out)) = some ([], some 0x80, [0x80]) := by decide

/-! ## States that meet the hypotheses of the statements

A dictionary of any size: entry `i` is the pair of bytes `[i / 256, i mod 256]`. -/

def pairDict (n : Nat) : Dict :=
  (List.range n).map fun i => (codeOfCount (256 + i), [BitVec.ofNat 8 (i / 256), BitVec.ofNat 8 (i % 256)])

theorem pairDict_get {n i : Nat} (h : i < n) :
    (pairDict n)[i]? = some (codeOfCount (256 + i), [BitVec.ofNat 8 (i / 256), BitVec.ofNat 8 (i % 256)]) := by
  simp [pairDict, h]

theorem pairDict_length (n : Nat) : (pairDict n).length = n := by simp [pairDict]

theorem pairDict_wf {n : Nat} (h : n ≤ 3840) : (pairDict n).wf = true := by
  rw [wf_iff, pairDict_length]
  refine ⟨fun i e he => ?_, by omega⟩
  have hi := (List.getElem?_eq_some_iff.1 he).1
  rw [pairDict_length] at hi
  rw [pairDict_get hi] at he
  rw [← Option.some.inj he]

theorem pairDict_extends (n : Nat) : (pairDict n).Extends := by
  intro i e he
  have hi := (List.getElem?_eq_some_iff.1 he).1
  rw [pairDict_length] at hi
  rw [pairDict_get hi] at he
  refine ⟨literalCode (BitVec.ofNat 8 (i / 256)), [BitVec.ofNat 8 (i / 256)], BitVec.ofNat 8 (i % 256), ?_, ?_⟩
  · rw [seqOf?_literal _ (by rw [literalCode_toNat]; exact BitVec.isLt _), literalCode_setWidth]
  · rw [← Option.some.inj he]
    rfl

theorem pairDict_nodup {n : Nat} (h : n ≤ 3840) : ((pairDict n).map (·.2)).Nodup := by
  rw [pairDict, List.map_map]
  refine List.Nodup.map_on ?_ List.nodup_range
  intro i hi j hj hij
  simp only [List.mem_range] at hi hj
  simp only [Function.comp_apply, List.cons.injEq, and_true, ← BitVec.toNat_inj, BitVec.toNat_ofNat] at hij
  omega

/-- No key of the dictionary begins with the byte 255. -/
theorem pairDict_not_key {n : Nat} (h : n ≤ 3840) (b : Byte) : (pairDict n).isKey [255, b] = false := by
  have hf : (pairDict n).find? (fun e => e.2 == [255, b]) = none := by
    refine List.find?_eq_none.2 fun e he => ?_
    rw [pairDict, List.mem_map] at he
    obtain ⟨i, hi, rfl⟩ := he
    simp only [List.mem_range] at hi
    simp only [beq_iff_eq, List.cons.injEq, ← BitVec.toNat_inj, BitVec.toNat_ofNat, and_true, not_and]
    intro h1
    exfalso
    have : (255 : Byte).toNat = 255 := by decide
    omega
  simp only [Dict.isKey, Dict.codeOf?, hf]
  rfl

/-- An encoder with `n` learned entries and the match `[255]`. -/
def encFull (n : Nat) : Enc :=
  { dict := pairDict n, nextCode := 256 + n, width := widthFor (256 + n), curMatch := [255], phase := .run,
    src := { data := [], pos := 0 } }

theorem encFull_inv {n : Nat} (h : n ≤ 3840) : EncInv (encFull n) :=
  ⟨pairDict_wf h, by simp [encFull, pairDict_length, Config.firstCode], pairDict_nodup h, pairDict_extends n, rfl,
    .inr (isKey_single _ _), Nat.le_refl _⟩

theorem encFull_not_key {n : Nat} (h : n ≤ 3840) (b : Byte) :
    (encFull n).dict.isKey ((encFull n).curMatch ++ [b]) = false := pairDict_not_key h b

theorem encFull_next (n : Nat) : (encFull n).nextCode = 256 + n := rfl

/-- A decoder with `n` learned entries that has just taken the literal 65. -/
def decFull (n : Nat) : Dec :=
  { dict := pairDict n, nextCode := 256 + n, width := widthFor (256 + n + 1), prev := some [65], phase := .run,
    status := .run, badcode := 0, out := { data := [], taken := 0, backlog := [] } }

theorem decFull_inv {n : Nat} (h : n ≤ 3840) : DecInv (decFull n) :=
  ⟨pairDict_wf h, by simp [decFull, pairDict_length, Config.firstCode], pairDict_extends n,
    fun h => by simp [decFull] at h, fun _ => rfl,
    fun p hp => ⟨65, by
      obtain rfl := Option.some.inj hp
      rw [seqOf?_literal _ (by decide)]
      rfl⟩, rfl, fun _ => rfl, Nat.le_refl _⟩

theorem pkInv_reset : PkInv State.reset.pk := ⟨by decide, by decide, by decide⟩

theorem decInv_reset : DecInv State.reset.dec :=
  ⟨wf_nil, rfl, ext_nil, fun _ => ⟨rfl, rfl⟩, fun h => absurd rfl h, fun p h => by simp [State.reset] at h, rfl, fun _ => rfl,
    Nat.le_refl _⟩

/-- The block with such coders, the unpacker at the start of a source. -/
def full (n : Nat) (data : ByteSeq) : State :=
  ((State.reset.setEnc (encFull n)).setDec (decFull n)).setUp (upAt 0 0 data 0)

theorem upAt_inv (data : ByteSeq) : UpInv (upAt 0 0 data 0) :=
  ⟨by simp [upAt], by simp [upAt], by simp [upAt], by simp [upAt]⟩

theorem full_inv {n : Nat} (h : n ≤ 3840) (data : ByteSeq) : (full n data).Inv :=
  ⟨pkInv_reset, upAt_inv data, encFull_inv h, decFull_inv h⟩

theorem reset_inv : State.reset.Inv :=
  ⟨pkInv_reset, upAt_inv [], encInv_restarted State.reset.enc (Nat.le_refl _), decInv_reset⟩

/-! Encoding. -/

theorem witness_DecodeOfEncodeIsIdentity : (Instr.pkWrite 0xFFF 12).wellFormed = true := by decide
theorem witness_EncodeOfDecodeIsIdentity : decode (.command 0x1CFFF) = .ok (.pkWrite 0xFFF 12) := by decide
theorem witness_UnusedFieldsAreRefused :
    (∃ r, decodeCommand 0x00001 = .error r) ∧ (∃ r, decodeCommand 0x4C001 = .error r) ∧
      (∃ r, decodeCommand 0x60100 = .error r) := ⟨⟨_, rfl⟩, ⟨_, rfl⟩, ⟨_, rfl⟩⟩
/-- The last literal, the first learned code and the largest code of a width. -/
theorem witness_CodeWordsSplitIntoLiteralsAndEntries :
    (255#12).toNat < 2 ^ CodeWidth.w9.toNat ∧ (256#12).toNat < 2 ^ CodeWidth.w9.toNat ∧
      (511#12).toNat < 2 ^ CodeWidth.w9.toNat ∧ (4095#12).toNat < 2 ^ CodeWidth.w12.toNat := by decide

/-! The step. -/

theorem witness_StepRunsTheIssuedInstruction :
    (State.reset.setEvents [.command 0x60041]).events = .command 0x60041 :: [] ∧
      decode (.command 0x60041) = .ok (.encByte 0x41) := by decide
theorem witness_StepWithNothingPendingKeepsTheState : State.reset.events = [] := rfl
theorem witness_StepRunsThePlacedWord :
    (decodeTableWord 24 0x60041 = some (.encByte 0x41) ∧ (Instr.encByte 0x41).isCodeWord = false) ∧
      (decodeTableWord 16 0x041 = some (.w9Lit 0x41) ∧ (Instr.w9Lit 0x41).isCodeWord = true ∧
        State.reset.dec.phase = .run) := by decide
theorem witness_DecStepFetchesAndRunsACodeWord :
    (full 0 [0x20, 0x80]).dec.phase = .run ∧ UpInv (full 0 [0x20, 0x80]).up ∧
      upRead (full 0 [0x20, 0x80]).up (full 0 [0x20, 0x80]).dec.width.toNat = (some 65, upAt 0x00 7 [0x20, 0x80] 2) ∧
      upRead (full 0 []).up (full 0 []).dec.width.toNat = (none, { upAt 0 0 [] 0 with eos := true }) :=
  ⟨rfl, upAt_inv _, by decide, by decide⟩
theorem witness_ResetGivesTheListedValues : (State.reset.setEvents [.reset]).events = .reset :: [] := rfl
theorem witness_StepKeepsTheInvariant :
    (full 3 []).Inv ∧ ∃ t, step ((full 3 []).setEvents []) = .next t := ⟨full_inv (by decide) _, _, rfl⟩

/-! The packer and the unpacker. -/

/-- Used by every statement about a host's packer operation: nothing in progress, the two ends of the widths. -/
theorem witness_packer_operations :
    PkInv State.reset.pk ∧ State.reset.encInProgress = false ∧ 1 ≤ (1#4).toNat ∧ (1#4).toNat ≤ 12 ∧ 1 ≤ (12#4).toNat ∧
      (12#4).toNat ≤ 12 := ⟨pkInv_reset, by decide⟩
theorem witness_PkWriteIgnoresHighBits :
    ∀ i, i < (9#4).toNat → (0x005#12).getLsbD i = (0xE05#12).getLsbD i := by decide
/-- Both a flush with bits pending and one with none. -/
theorem witness_PkFlushPadsTheLastByte :
    PkInv (pkAt 0x0F 4 []) ∧ (State.reset.setPk (pkAt 0x0F 4 [])).encInProgress = false ∧ PkInv (pkAt 0 0 []) ∧
      (pkAt 0 0 []).cnt = 0 := ⟨⟨by decide, by decide, by decide⟩, by decide, ⟨by decide, by decide, by decide⟩, rfl⟩
theorem witness_PackerRunGivesTheConcatenatedCodes :
    State.reset.encInProgress = false ∧
      ∀ cw ∈ [((5 : Code), (9#4)), (300, 9), (1, 1), (4095, 12)], 1 ≤ cw.2.toNat ∧ cw.2.toNat ≤ 12 :=
  ⟨by decide, by simp⟩
theorem witness_UpStartBeginsAtTheFirstByte : State.reset.decInProgress = false := by decide
/-- Exactly enough bits, and one bit too few. -/
theorem witness_UpReadReturnsTheNextBits :
    UpInv (upAt 0 0 [0xFF] 0) ∧ (upAt 0 0 [0xFF] 0).eos = false ∧
      (State.reset.setUp (upAt 0 0 [0xFF] 0)).decInProgress = false ∧
      (8#4).toNat ≤ (upBits (upAt 0 0 [0xFF] 0)).length ∧ (upBits (upAt 0 0 [0xFF] 0)).length < (9#4).toNat :=
  ⟨upAt_inv _, by decide⟩
theorem witness_UpReadAfterEndOfStreamChangesNothing :
    (State.reset.setUp { upAt 0 0 [] 0 with eos := true }).up.eos = true ∧
      (State.reset.setUp { upAt 0 0 [] 0 with eos := true }).decInProgress = false := by decide
/-- S1: 18 bits, 6 pad bits; a further read of 6 bits and one of 7. -/
theorem witness_BitChannelRoundTrip :
    (State.reset.encInProgress = false ∧ State.reset.decInProgress = false) ∧
      (∀ cw ∈ [((5 : Code), (9#4)), (300, 9)], 1 ≤ cw.2.toNat ∧ cw.2.toNat ≤ 12 ∧ cw.1.toNat < 2 ^ cw.2.toNat) ∧
      (nextOf (execAll (.pkStart :: [((5 : Code), (9#4)), (300, 9)].map (fun cw => .pkWrite cw.1 cw.2) ++ [.pkFlush])
        State.reset)).map (·.pk.out.data) = some [0x02, 0xCB, 0x00] ∧
      ((8 - ([((5 : Code), (9#4)), (300, 9)].map (fun cw => cw.2.toNat)).sum % 8) % 8 = 6) :=
  ⟨by decide, by simp, by decide, by decide⟩

/-! Refusals. -/

theorem witness_IllegalWidthsAreRefused : (0#4).toNat = 0 ∧ 12 < (13#4).toNat ∧ 12 < (15#4).toNat := by decide
theorem witness_DirectChannelUseIsRefusedInAStream :
    ((full 0 []).enc.phase = .run ∧ (full 0 []).enc.curMatch ≠ [] ∧ (full 0 []).dec.phase = .run ∧
        (full 0 []).dec.prev ≠ none) ∧
      ¬ (State.reset.enc.phase = .run ∧ State.reset.enc.curMatch ≠ []) ∧
      ¬ (State.reset.dec.phase = .run ∧ State.reset.dec.prev ≠ none) := by decide
theorem witness_PhasesDecideWhatIsAccepted :
    State.reset.enc.phase = .run ∧ { State.reset.enc with phase := .done }.phase = .done ∧ State.reset.dec.phase = .run ∧
      { State.reset.dec with phase := .error }.phase ≠ .run := by decide

/-! The encoder. -/

theorem witness_EncByteSeedsTheMatch : State.reset.enc.phase = .run ∧ State.reset.enc.curMatch = [] := by decide
/-- The candidate is a key. -/
theorem witness_EncByteExtendsOrEmits_extends :
    PkInv State.reset.pk ∧ EncInv { encFull 1 with curMatch := [0] } ∧ { encFull 1 with curMatch := [0] }.phase = .run ∧
      { encFull 1 with curMatch := [0] }.curMatch ≠ [] ∧ (encFull 1).dict.isKey ([0] ++ [0]) = true := by
  have h := encFull_inv (n := 1) (by decide)
  exact ⟨pkInv_reset, ⟨h.dict_wf, h.next_eq, h.keys_nodup, h.ext, h.width_eq, .inr rfl, h.pos_le⟩, by decide⟩
/-- The candidate is no key, one entry below capacity and at capacity. -/
theorem witness_EncByteExtendsOrEmits_emits :
    (PkInv (full 3839 []).pk ∧ EncInv (encFull 3839) ∧ (encFull 3839).phase = .run ∧ (encFull 3839).curMatch ≠ [] ∧
        (encFull 3839).dict.isKey ((encFull 3839).curMatch ++ [0]) = false ∧ (encFull 3839).nextCode < 4096) ∧
      (EncInv (encFull 3840) ∧ (encFull 3840).dict.isKey ((encFull 3840).curMatch ++ [0]) = false ∧
        (encFull 3840).nextCode = 4096) := by
  refine ⟨⟨pkInv_reset, encFull_inv (by decide), rfl, List.cons_ne_nil _ _, encFull_not_key (by decide) 0, ?_⟩,
    encFull_inv (by decide), encFull_not_key (by decide) 0, ?_⟩ <;> simp [encFull_next]
/-- With and without a pending match. -/
theorem witness_EncEndWritesTheLastCodeAndFlushes :
    (PkInv State.reset.pk ∧ EncInv State.reset.enc ∧ State.reset.enc.phase = .run ∧ State.reset.enc.curMatch = []) ∧
      (EncInv (encFull 0) ∧ (encFull 0).phase = .run ∧ (encFull 0).curMatch ≠ []) :=
  ⟨⟨pkInv_reset, reset_inv.enc, rfl, rfl⟩, encFull_inv (by decide), rfl, List.cons_ne_nil _ _⟩
theorem witness_EncAbortFlushesAndDropsTheMatch : PkInv State.reset.pk ∧ State.reset.enc.phase = .run :=
  ⟨pkInv_reset, rfl⟩
/-- At 9 bits and at 12 bits. -/
theorem witness_EncoderCodesFitTheirWidth :
    (EncInv (encFull 255) ∧ (encFull 255).curMatch ≠ [] ∧ (encEmitted (encFull 255)).2 = .w9) ∧
      (EncInv (encFull 3840) ∧ (encEmitted (encFull 3840)).2 = .w12) := by
  have hw : ∀ n, (encEmitted (encFull n)).2 = widthFor (256 + n) := fun _ => rfl
  refine ⟨⟨encFull_inv (by decide), List.cons_ne_nil _ _, ?_⟩, encFull_inv (by decide), ?_⟩ <;> rw [hw] <;> decide
theorem witness_EncoderMatchIsGreedy :
    EncInv (encFull 3840) ∧ ∃ e', encAccept (encFull 3840) 0 = (e', some (encEmitted (encFull 3840))) := by
  refine ⟨encFull_inv (by decide), ?_⟩
  have hk := encFull_not_key (n := 3840) (by decide) 0
  have hm : (encFull 3840).curMatch ≠ [] := List.cons_ne_nil _ _
  rcases encAccept_cases (encFull 3840) 0 with ⟨h, -⟩ | ⟨-, h, -⟩ | ⟨-, -, h⟩
  · exact absurd h hm
  · rw [hk] at h
    cases h
  · exact ⟨_, h⟩
theorem witness_EncoderDictionaryFreezesAtCapacity : (encFull 3840).nextCode = 4096 ∧ (encFull 3840).phase = .run :=
  ⟨by simp [encFull], rfl⟩

/-- A block whose encoder has a source. -/
def withRaw (data : ByteSeq) (pos : Nat) : State :=
  State.reset.setEnc { State.reset.enc with src := { data := data, pos := pos } }

theorem witness_CompressDependsOnItsSourceAlone :
    sourceRest (withRaw [1, 2, 3] 1).enc.src = sourceRest (withRaw [2, 3] 0).enc.src ∧
      (∃ t, exec .compress (withRaw [1, 2, 3] 1) = .next t) ∧ ∃ t, exec .compress (withRaw [2, 3] 0) = .next t :=
  ⟨by decide, ⟨_, rfl⟩, _, rfl⟩
/-- The code words of V3's seven bytes, 95_test_vectors.md, and those of no byte. -/
theorem witness_CompressedStreamFollowsTheWidthSchedule :
    encStreamCodes (restartedEnc (withRaw [65, 66, 65, 66, 65, 66, 65] 0).enc)
          (sourceRest (withRaw [65, 66, 65, 66, 65, 66, 65] 0).enc.src) = [(65, .w9), (66, .w9), (256, .w9), (258, .w9)] ∧
      encStreamCodes (restartedEnc (withRaw [] 0).enc) (sourceRest (withRaw [] 0).enc.src) = [] := by decide

/-! The decoder. -/

theorem witness_FirstCodeWordEmitsItsByte :
    (0#12).toNat < 256 ∧ (255#12).toNat < 256 ∧ State.reset.dec.phase = .run ∧ State.reset.dec.width = .w9 ∧
      State.reset.dec.prev = none := by decide
/-- A present code and the KWKWK code with room in the dictionary, the last room, and a present code at capacity. -/
theorem witness_LaterCodeWordEmitsAndLearns :
    (DecInv (decFull 0) ∧ (decFull 0).phase = .run ∧ (decFull 0).width = .w9 ∧ (decFull 0).prev = some [65] ∧
        (255#12).toNat < (decFull 0).nextCode ∧ (256#12).toNat = (decFull 0).nextCode) ∧
      (DecInv (decFull 3839) ∧ (decFull 3839).width = .w12 ∧ (4095#12).toNat = (decFull 3839).nextCode ∧
        (decFull 3839).nextCode < 4096) ∧
      (DecInv (decFull 3840) ∧ (decFull 3840).width = .w12 ∧ (4095#12).toNat < (decFull 3840).nextCode ∧
        (decFull 3840).nextCode = 4096) :=
  ⟨⟨decFull_inv (by decide), rfl, rfl, rfl, by decide, rfl⟩, ⟨decFull_inv (by decide), rfl, rfl, by simp [decFull]⟩,
    decFull_inv (by decide), rfl, by simp [decFull], rfl⟩
/-- One code of each class that is not `INVALID`: a literal, a learned entry, the next code. -/
theorem witness_DecStepEmitsWhatItsCodeNames :
    ((full 1 [0x20, 0x80]).Inv ∧ (full 1 [0x20, 0x80]).dec.phase = .run ∧
        (upRead (full 1 [0x20, 0x80]).up (full 1 [0x20, 0x80]).dec.width.toNat).1 = some 65 ∧
        (full 1 [0x20, 0x80]).dec.classOf 65 = .lit) ∧
      ((full 1 [0x80, 0x00]).Inv ∧
        (upRead (full 1 [0x80, 0x00]).up (full 1 [0x80, 0x00]).dec.width.toNat).1 = some 256 ∧
        (full 1 [0x80, 0x00]).dec.classOf 256 = .ref) ∧
      ((full 1 [0x80, 0x80]).Inv ∧
        (upRead (full 1 [0x80, 0x80]).up (full 1 [0x80, 0x80]).dec.width.toNat).1 = some 257 ∧
        (full 1 [0x80, 0x80]).dec.classOf 257 = .kwkwk) :=
  ⟨⟨full_inv (by decide) _, rfl, by decide, by decide⟩, ⟨full_inv (by decide) _, by decide, by decide⟩,
    full_inv (by decide) _, by decide, by decide⟩
/-- A decoder that reads at each width, with the largest code it accepts. -/
theorem witness_EveryCodeWordRowCompletes :
    (DecInv (decFull 254) ∧ (decFull 254).width = .w9 ∧ 510 ≤ (decFull 254).nextCode) ∧
      (DecInv (decFull 766) ∧ (decFull 766).width = .w10 ∧ 1022 ≤ (decFull 766).nextCode) ∧
      (DecInv (decFull 1790) ∧ (decFull 1790).width = .w11 ∧ 2046 ≤ (decFull 1790).nextCode) ∧
      (DecInv (decFull 3840) ∧ (decFull 3840).width = .w12 ∧ 4095 ≤ (decFull 3840).nextCode ∧
        (decFull 3840).phase = .run ∧ (decFull 3840).prev ≠ none) :=
  ⟨⟨decFull_inv (by decide), rfl, by simp [decFull]⟩, ⟨decFull_inv (by decide), rfl, by simp [decFull]⟩,
    ⟨decFull_inv (by decide), rfl, by simp [decFull]⟩, decFull_inv (by decide), rfl, by simp [decFull], rfl,
    by simp [decFull]⟩
/-- One above the next code, and a first code that is no literal. -/
theorem witness_InvalidCodeWordRaisesDecodeError :
    ((257#12).toNat < 2 ^ CodeWidth.w9.toNat ∧ (decFull 0).phase = .run ∧ (decFull 0).width = .w9 ∧
        (257#12).toNat > (decFull 0).nextCode ∧ (decFull 0).prev ≠ none ∧
        (upRead (full 0 [0x80, 0x80]).up CodeWidth.w9.toNat).1 = some 257) ∧
      (256 ≤ (256#12).toNat ∧ State.reset.dec.prev = none ∧ State.reset.dec.width = .w9 ∧ State.reset.dec.phase = .run) := by
  decide
theorem witness_UnexpectedCodeWordsAreRefused :
    State.reset.dec.width ≠ .w10 ∧ State.reset.dec.width = .w9 ∧ { State.reset.dec with phase := .done }.phase ≠ .run := by
  decide
theorem witness_DecodeErrorExactlyOnInvalidCodes :
    (full 0 [0x20, 0xCB, 0x00]).Inv ∧ (full 0 [0x20, 0xCB, 0x00]).dec.phase = .run := ⟨full_inv (by decide) _, rfl⟩
/-- One bit too few, and an end already signalled. -/
theorem witness_DecStepEndsTheStreamWithoutError :
    (UpInv (full 0 [0x20]).up ∧ (full 0 [0x20]).dec.phase = .run ∧
        (upBits (full 0 [0x20]).up).length < (full 0 [0x20]).dec.width.toNat) ∧
      (UpInv { upAt 0 0 [] 0 with eos := true } ∧ { upAt 0 0 [] 0 with eos := true }.eos = true) :=
  ⟨⟨upAt_inv _, rfl, by decide⟩, ⟨by decide, by simp [upAt], fun _ => rfl, by simp [upAt]⟩, rfl⟩

/-- A block whose decoder has ended in error. -/
def ended : State := State.reset.setDec { State.reset.dec with phase := .error, status := .invalidCode, badcode := 300 }

theorem witness_EndedDecoderStaysUntilStart :
    ended.dec.phase ≠ .run ∧ (∃ t, exec .upStart ended = .next t) ∧ ∃ t, exec .encStart ended = .next t :=
  ⟨by decide, ⟨_, rfl⟩, _, rfl⟩
theorem witness_FullDecoderAcceptsEveryCode :
    (full 3840 []).Inv ∧ (full 3840 []).dec.nextCode = 4096 ∧ (full 3840 []).dec.phase = .run ∧
      (full 3840 []).dec.width = .w12 ∧ (4095#12).toNat < 2 ^ CodeWidth.w12.toNat :=
  ⟨full_inv (by decide) _, rfl, rfl, rfl, by decide⟩

/-! Both coders, the compact form, the ports. -/

theorem witness_DecompressOfCompressIsTheInput :
    ∃ u t, runEvents [.attachRaw [0x41, 0x42]] State.reset = .next u ∧ exec .compress u = .next t := ⟨_, _, rfl, rfl⟩
theorem witness_TruncatedStreamDecodesToAPrefix :
    ∃ u t, runEvents [.attachRaw [0x41, 0x42]] State.reset = .next u ∧ exec .compress u = .next t := ⟨_, _, rfl, rfl⟩
/-- An instruction of each pipeline that is no start, for the statements on growth, sinks and the two pipelines. -/
theorem witness_pipelines :
    (ofCompressor (.encByte 0x41) = true ∧ ∃ t, exec (.encByte 0x41) State.reset = .next t) ∧
      (ofDecompressor (.w9Lit 0x41) = true ∧ ∃ t, exec (.w9Lit 0x41) State.reset = .next t) :=
  ⟨⟨rfl, _, rfl⟩, rfl, _, rfl⟩

/-- A compact encoder and a compact decoder that have learned `256 = "AB"`. -/
def compactEncOne : CompactEnc := { links := [(65, 66)], nextCode := 257, width := .w9, cur := some 256 }
def compactDecOne : CompactDec := { links := [(65, 66)], nextCode := 257, width := .w9, prevcode := some 256 }

theorem linksInv_one : LinksInv [(65, 66)] 257 := by
  refine ⟨rfl, by decide, fun i x hx => ?_⟩
  cases i with
  | zero =>
    obtain rfl := Option.some.inj hx
    decide
  | succ i => simp at hx

theorem witness_CompactEncoderAgrees : CompactEncInv compactEncOne :=
  ⟨linksInv_one, by decide, rfl, fun c hc => by obtain rfl := Option.some.inj hc; decide⟩
/-- A state with the decoder the compact one stands for, a code that is accepted and one that is not. -/
theorem witness_CompactDecoderAgrees :
    CompactDecInv compactDecOne ∧
      (State.reset.setDec (compactDecOne.toDec State.reset.dec)).dec =
        compactDecOne.toDec (State.reset.setDec (compactDecOne.toDec State.reset.dec)).dec ∧
      (compactReceive compactDecOne 257).isSome = true ∧ compactReceive compactDecOne 258 = none :=
  ⟨⟨linksInv_one, fun c hc => by obtain rfl := Option.some.inj hc; decide⟩, rfl, by decide, by decide⟩
/-- A pulse that is performed and one that is refused. -/
theorem witness_PortPulsesPerformTheirOperations :
    (∃ t, exec (.encByte 0x41) State.reset = .next t) ∧
      exec (.encByte 0x41) (State.reset.setEnc { State.reset.enc with phase := .done }) = .refused .encPhaseDone :=
  ⟨⟨_, rfl⟩, rfl⟩
theorem witness_PortStreamingEqualsDecompress :
    HostEvent.reset ∈ [HostEvent.port .dStart, .reset, .command (commandWord 0x9 0 0)] ∧
      ∃ r, runEvents [.attachCompressed [0x20, 0xCB, 0x00]] State.reset = .next r ∧
        (nextOf (exec .decompress r)).map (·.dec.badcode) = some 300 := ⟨by decide, _, rfl, by decide⟩
/-- A byte that waits, kept by a start and by a reset. -/
theorem witness_NoByteIsDroppedFromAnOutputPort :
    sinkOwed (pkAt 0 0 [0x20]).out = [0x20] ∧ (∃ t, exec .encStart (State.reset.setPk (pkAt 0 0 [0x20])) = .next t) ∧
      (∃ t, runEvent .reset (State.reset.setPk (pkAt 0 0 [0x20])) = .next t) ∧ HostEvent.reset ≠ .port .cOut ∧
      HostEvent.reset ≠ .port .dOut := ⟨rfl, ⟨_, rfl⟩, ⟨_, rfl⟩, by decide⟩

end Sys2Proof.Tests.Slice0
end

section
/-! What a step runs (00_scope.md R17, 30_encoding.md R81), and the frame of each pipeline's instructions
(00_scope.md R2, R16). The frame is read off the model's gates: each gate says what its next state is, and the
whole-stream operations have their own laws in Laws/Run.lean. -/

namespace Sys2Proof.Machine

/-! ## The step -/

theorem step_of_events_cons {s : State} {e : HostEvent} {es : List HostEvent} (h : s.events = e :: es) :
    step s = runEvent e (s.setEvents es) := by
  simp only [step, h]

theorem runCommand_of_decodeCommand_ok {w : CommandWord} {i : Instr} (h : decodeCommand w = .ok i) (s : State) :
    runCommand w s = exec i s := by
  simp only [runCommand, h]

/-- Settles O6: the step takes the oldest act, and a command word that decodes is its instruction. -/
theorem stepRunsTheIssuedInstruction : Obligations.StepRunsTheIssuedInstruction := by
  intro s w es i hev hdec
  calc step s = runCommand w (s.setEvents es) := step_of_events_cons hev
    _ = exec i (s.setEvents es) := runCommand_of_decodeCommand_ok hdec _

/-! ## The frame of the compressor -/

/-- The decompressor's units and the host's pending acts are the same in both states. -/
structure SameDecompressor (s t : State) : Prop where
  up : t.up = s.up
  dec : t.dec = s.dec
  events : t.events = s.events

theorem sameDecompressor_of_hostPk {s t : State} {p : Pk} (h : hostPk s p = .next t) : SameDecompressor s t := by
  obtain ⟨-, rfl⟩ := hostPk_next.mp h
  exact ⟨rfl, rfl, rfl⟩

theorem sameDecompressor_of_execPkWrite {s t : State} {code : BitVec 12} {width : BitVec 4}
    (h : execPkWrite code width s = .next t) : SameDecompressor s t := by
  unfold execPkWrite at h
  split at h
  · exact sameDecompressor_of_hostPk h
  · cases h

theorem sameDecompressor_of_requireEncRun {s t r : State} (h : requireEncRun s r = .next t)
    (hr : SameDecompressor s r) : SameDecompressor s t := by
  obtain ⟨-, rfl⟩ := requireEncRun_next.mp h
  exact ⟨hr.up, hr.dec, hr.events⟩

theorem sameDecompressor_of_execEncStart {s t : State} (h : execEncStart s = .next t) : SameDecompressor s t := by
  cases h
  exact ⟨rfl, rfl, rfl⟩

theorem sameDecompressor_of_compress {s t : State} (h : exec .compress s = .next t) : SameDecompressor s t := by
  obtain ⟨t', ht', -, -, -, hup, hdec, hev, -⟩ := execCompress_spec s
  cases ht'.symm.trans h
  exact ⟨hup, hdec, hev⟩

/-- The frame of every completing instruction of the compressor. -/
theorem sameDecompressor_of_exec {i : Instr} {s t : State} (hi : ofCompressor i = true) (h : exec i s = .next t) :
    SameDecompressor s t := by
  cases i with
  | pkStart => exact sameDecompressor_of_hostPk h
  | pkWrite code width => exact sameDecompressor_of_execPkWrite h
  | pkFlush => exact sameDecompressor_of_hostPk h
  | encStart => exact sameDecompressor_of_execEncStart h
  | encByte b => exact sameDecompressor_of_requireEncRun h ⟨rfl, rfl, rfl⟩
  | encEnd => exact sameDecompressor_of_requireEncRun h ⟨rfl, rfl, rfl⟩
  | encAbort => exact sameDecompressor_of_requireEncRun h ⟨rfl, rfl, rfl⟩
  | compress => exact sameDecompressor_of_compress h
  | _ => cases hi

/-! ## The frame of the decompressor -/

/-- The compressor's units and the host's pending acts are the same in both states. -/
structure SameCompressor (s t : State) : Prop where
  pk : t.pk = s.pk
  enc : t.enc = s.enc
  events : t.events = s.events

theorem sameCompressor_of_hostUp {s t : State} {u : Up} {r : OpResult} (h : hostUp s u r = .next t) :
    SameCompressor s t := by
  obtain ⟨-, rfl⟩ := hostUp_next.mp h
  exact ⟨rfl, rfl, rfl⟩

theorem sameCompressor_of_execUpRead {s t : State} {width : BitVec 4} (h : execUpRead width s = .next t) :
    SameCompressor s t := by
  unfold execUpRead at h
  split at h
  · exact sameCompressor_of_hostUp h
  · cases h

theorem sameCompressor_of_receiveCodeWord {s t : State} {w : CodeWidth} {c : Code}
    (h : receiveCodeWord w c s = .next t) : SameCompressor s t := by
  obtain ⟨-, -, rfl⟩ := receiveCodeWord_next.mp h
  obtain ⟨hpk, -, henc, hev⟩ := decReceive_frame c s
  exact ⟨hpk, henc, hev⟩

theorem sameCompressor_of_execDecStart {s t : State} (h : execDecStart s = .next t) : SameCompressor s t := by
  cases h
  exact ⟨rfl, rfl, rfl⟩

theorem sameCompressor_of_execDecStep {s t : State} (h : execDecStep s = .next t) : SameCompressor s t := by
  obtain ⟨-, rfl⟩ := requireDecRun_next.mp h
  obtain ⟨hpk, henc, hev⟩ := decStepRun_frame s
  exact ⟨hpk, henc, hev⟩

theorem sameCompressor_of_decompress {s t : State} (h : exec .decompress s = .next t) : SameCompressor s t := by
  obtain ⟨k, hk, -⟩ := execDecompress_spec s
  cases hk.symm.trans h
  obtain ⟨hpk, henc, hev⟩ := decSteps_frame (k + 1) (startDec s)
  exact ⟨hpk, henc, hev⟩

/-- The frame of every completing instruction of the decompressor. -/
theorem sameCompressor_of_exec {i : Instr} {s t : State} (hi : ofDecompressor i = true) (h : exec i s = .next t) :
    SameCompressor s t := by
  cases i with
  | upStart => exact sameCompressor_of_hostUp h
  | upRead width => exact sameCompressor_of_execUpRead h
  | decStart => exact sameCompressor_of_execDecStart h
  | decStep => exact sameCompressor_of_execDecStep h
  | decompress => exact sameCompressor_of_decompress h
  | w9Lit _ | w9Dict _ | w10Lit _ | w10Dict _ | w11Lit _ | w11Dict _ | w12Lit _ | w12Dict _ =>
    exact sameCompressor_of_receiveCodeWord h
  | _ => cases hi

/-! ## The two pipelines -/

/-- The only instructions of neither pipeline are the reserved ones, and none of those completes (30_encoding.md
R88 (a)). -/
theorem ofCompressor_or_ofDecompressor_of_exec {i : Instr} {s t : State} (h : exec i s = .next t) :
    ofCompressor i = true ∨ ofDecompressor i = true := by
  cases i with
  | reservedD _ | reservedE _ | reservedF _ => cases h
  | pkStart | pkWrite _ _ | pkFlush | encStart | encByte _ | encEnd | encAbort | compress => exact .inl rfl
  | _ => exact .inr rfl

/-- Settles O53: the frame of each pipeline's instructions; the pending acts stay because a completing instruction
belongs to one of the two. -/
theorem pipelinesShareNoState : Obligations.PipelinesShareNoState := by
  intro i s t h
  refine ⟨?_, fun hi => ?_, fun hi => ?_⟩
  · rcases ofCompressor_or_ofDecompressor_of_exec h with hi | hi
    · exact (sameDecompressor_of_exec hi h).events
    · exact (sameCompressor_of_exec hi h).events
  · obtain ⟨hup, hdec, -⟩ := sameDecompressor_of_exec hi h
    exact ⟨hup, hdec⟩
  · obtain ⟨hpk, henc, -⟩ := sameCompressor_of_exec hi h
    exact ⟨hpk, henc⟩

end Sys2Proof.Machine
end

section
/-! What the registers of 10_state.md keep: the end-of-stream flag (R29), the phases (R22), and the dictionaries and
widths between two starts (R31, R33, R38). -/

namespace Sys2Proof.Machine

/-! ## End-of-stream -/

theorem execUpRead_next {s t : State} {width : BitVec 4} :
    execUpRead width s = .next t ↔ legalWidth width = true ∧
      hostUp s (upRead s.up width.toNat).2 (readResult (upRead s.up width.toNat).1) = .next t := by
  by_cases h : legalWidth width = true <;> simp [execUpRead, h]

/-- Settles O20: at end-of-stream the unpacker answers `EOS` with itself unchanged, and the read is accepted because its
width is legal and no stream is in progress. -/
theorem upReadAfterEndOfStreamChangesNothing : Obligations.UpReadAfterEndOfStreamChangesNothing := by
  intro s width heos hfree h1 h12
  refine execUpRead_next.mpr ⟨legalWidth_iff.mpr ⟨h1, h12⟩, ?_⟩
  rw [upRead_eos width.toNat heos]
  exact hostUp_next.mpr ⟨hfree, rfl⟩

/-! ## The phases -/

theorem requireEncRun_of_done {s : State} (h : s.enc.phase = .done) (r : State) :
    requireEncRun s r = .refused .encPhaseDone := by
  simp only [requireEncRun, h]

theorem requireDecRun_of_ne_run {s : State} (h : s.dec.phase ≠ .run) (r : State) :
    requireDecRun s r = .refused .decPhaseNotRun := if_neg h

/-- `ENC.BYTE`, `ENC.END` and `ENC.ABORT` stand behind the gate on `ENC.phase`. -/
theorem exec_eq_requireEncRun {b : Byte} {i : Instr} (hi : i ∈ [Instr.encByte b, .encEnd, .encAbort]) (s : State) :
    ∃ r, exec i s = requireEncRun s r := by
  simp only [List.mem_cons, List.not_mem_nil, or_false] at hi
  rcases hi with rfl | rfl | rfl
  · exact ⟨encByteRun b s, rfl⟩
  · exact ⟨encEndRun s, rfl⟩
  · exact ⟨(s.setPk (pkFlushed s.pk)).setEnc { s.enc with phase := .done }, rfl⟩

/-- Settles O24: the two `START`s have no gate, and every other operation of a coder is decided by its gate on the
phase. -/
theorem phasesDecideWhatIsAccepted : Obligations.PhasesDecideWhatIsAccepted := by
  intro s
  refine ⟨⟨startEnc s, rfl⟩, ⟨startDec s, rfl⟩, fun b i hi => ?_, fun hrun => ?_, fun hstop => ?_⟩
  · obtain ⟨r, hgate⟩ := exec_eq_requireEncRun hi s
    rw [hgate]
    exact ⟨fun hrun => ⟨_, requireEncRun_next.mpr ⟨hrun, rfl⟩⟩, fun hdone => requireEncRun_of_done hdone r⟩
  · exact ⟨decStepRun s, requireDecRun_next.mpr ⟨hrun, rfl⟩⟩
  · exact requireDecRun_of_ne_run hstop (decStepRun s)

/-! ## The encoder between two starts -/

/-- The dictionary of `e` is the beginning of that of `e'`, whose width is at least as large. -/
structure EncGrows (e e' : Enc) : Prop where
  dict : e.dict <+: e'.dict
  width : e.width.toNat ≤ e'.width.toNat

theorem encGrows_of_eq {e e' : Enc} (h : e' = e) : EncGrows e e' := by
  subst h
  exact ⟨List.prefix_rfl, Nat.le_refl _⟩

theorem enc_of_hostPk {s t : State} {p : Pk} (h : hostPk s p = .next t) : t.enc = s.enc := by
  obtain ⟨-, rfl⟩ := hostPk_next.mp h
  rfl

theorem execPkWrite_next {s t : State} {code : BitVec 12} {width : BitVec 4} :
    execPkWrite code width s = .next t ↔ legalWidth width = true ∧
      hostPk s (pkPutCode s.pk code width.toNat) = .next t := by
  by_cases h : legalWidth width = true <;> simp [execPkWrite, h]

theorem enc_of_execPkWrite {s t : State} {code : BitVec 12} {width : BitVec 4}
    (h : execPkWrite code width s = .next t) : t.enc = s.enc := by
  obtain ⟨-, hgate⟩ := execPkWrite_next.mp h
  exact enc_of_hostPk hgate

/-- A gated operation of the encoder grows it when the state behind the gate does. -/
theorem encGrows_of_requireEncRun {s t r : State} (h : requireEncRun s r = .next t) (hr : EncGrows s.enc r.enc) :
    EncGrows s.enc t.enc := by
  obtain ⟨-, rfl⟩ := requireEncRun_next.mp h
  exact hr

theorem encGrows_encByteRun (b : Byte) (s : State) : EncGrows s.enc (encByteRun b s).enc := by
  obtain ⟨hdict, hwidth⟩ := encAccept_grows s.enc b
  exact ⟨hdict, hwidth⟩

/-- 10_state.md R31, R33: only the two operations that start the encoder shrink its dictionary or its width. -/
theorem encGrows_of_exec {i : Instr} {s t : State} (h : exec i s = .next t) (hstart : i ≠ .encStart)
    (hcompress : i ≠ .compress) : EncGrows s.enc t.enc := by
  rcases ofCompressor_or_ofDecompressor_of_exec h with hi | hi
  · cases i with
    | pkStart => exact encGrows_of_eq (enc_of_hostPk h)
    | pkWrite code width => exact encGrows_of_eq (enc_of_execPkWrite h)
    | pkFlush => exact encGrows_of_eq (enc_of_hostPk h)
    | encStart => exact absurd rfl hstart
    | encByte b => exact encGrows_of_requireEncRun h (encGrows_encByteRun b s)
    | encEnd => exact encGrows_of_requireEncRun h ⟨List.prefix_rfl, Nat.le_refl _⟩
    | encAbort => exact encGrows_of_requireEncRun h ⟨List.prefix_rfl, Nat.le_refl _⟩
    | compress => exact absurd rfl hcompress
    | _ => cases hi
  · exact encGrows_of_eq (sameCompressor_of_exec hi h).enc

/-! ## The decoder between two starts -/

/-- The dictionary of `d` is the beginning of that of `d'`, whose width is at least as large. -/
structure DecGrows (d d' : Dec) : Prop where
  dict : d.dict <+: d'.dict
  width : d.width.toNat ≤ d'.width.toNat

theorem decGrows_of_eq {d d' : Dec} (h : d' = d) : DecGrows d d' := by
  subst h
  exact ⟨List.prefix_rfl, Nat.le_refl _⟩

theorem dec_of_hostUp {s t : State} {u : Up} {r : OpResult} (h : hostUp s u r = .next t) : t.dec = s.dec := by
  obtain ⟨-, rfl⟩ := hostUp_next.mp h
  rfl

theorem dec_of_execUpRead {s t : State} {width : BitVec 4} (h : execUpRead width s = .next t) : t.dec = s.dec := by
  obtain ⟨-, hgate⟩ := execUpRead_next.mp h
  exact dec_of_hostUp hgate

theorem decGrows_of_execDecStep {s t : State} (h : execDecStep s = .next t) : DecGrows s.dec t.dec := by
  obtain ⟨-, rfl⟩ := requireDecRun_next.mp h
  obtain ⟨hdict, hwidth, -⟩ := decStepRun_grows s
  exact ⟨hdict, hwidth⟩

theorem decGrows_of_receiveCodeWord {s t : State} {w : CodeWidth} {c : Code}
    (h : receiveCodeWord w c s = .next t) : DecGrows s.dec t.dec := by
  obtain ⟨-, -, rfl⟩ := receiveCodeWord_next.mp h
  obtain ⟨hdict, hwidth, -⟩ := decReceive_grows c s
  exact ⟨hdict, hwidth⟩

/-- 10_state.md R31, R38: only the two operations that start the decoder shrink its dictionary or its width. -/
theorem decGrows_of_exec {i : Instr} {s t : State} (h : exec i s = .next t) (hstart : i ≠ .decStart)
    (hdecompress : i ≠ .decompress) : DecGrows s.dec t.dec := by
  rcases ofCompressor_or_ofDecompressor_of_exec h with hi | hi
  · exact decGrows_of_eq (sameDecompressor_of_exec hi h).dec
  · cases i with
    | upStart => exact decGrows_of_eq (dec_of_hostUp h)
    | upRead width => exact decGrows_of_eq (dec_of_execUpRead h)
    | decStart => exact absurd rfl hstart
    | decStep => exact decGrows_of_execDecStep h
    | decompress => exact absurd rfl hdecompress
    | w9Lit _ | w9Dict _ | w10Lit _ | w10Dict _ | w11Lit _ | w11Dict _ | w12Lit _ | w12Dict _ =>
      exact decGrows_of_receiveCodeWord h
    | _ => cases hi

/-- Settles O51: an instruction of the other pipeline leaves a coder as it was, and of its own only its two starts do
not let it grow. -/
theorem dictionariesOnlyGrow : Obligations.DictionariesOnlyGrow := by
  intro i s t h
  refine ⟨fun hstart hcompress => ?_, fun hstart hdecompress => ?_⟩
  · obtain ⟨hdict, hwidth⟩ := encGrows_of_exec h hstart hcompress
    exact ⟨hdict, hwidth⟩
  · obtain ⟨hdict, hwidth⟩ := decGrows_of_exec h hstart hdecompress
    exact ⟨hdict, hwidth⟩

end Sys2Proof.Machine
end

section
/-! The compressed stream of `COMPRESS` (20_memory.md R57, R58, 30_encoding.md R72): the code words of the encoder, one
after the other, and the pad. The encoder's invariant asks for a source whose position lies in its content, and the
statement is about every state, so the run is first carried to the encoder with an empty source. -/

namespace Sys2Proof.Machine

/-! ## The code words do not depend on the source register -/

theorem encAcceptAll_src (e : Enc) (src : Source) (bs : ByteSeq) :
    encAcceptAll { e with src := src } bs = ({ (encAcceptAll e bs).1 with src := src }, (encAcceptAll e bs).2) := by
  induction bs generalizing e with
  | nil => rfl
  | cons b bs ih => simp only [encAcceptAll, encAccept_src, ih]

theorem encStreamCodes_src (e : Enc) (src : Source) (bs : ByteSeq) :
    encStreamCodes { e with src := src } bs = encStreamCodes e bs := by
  simp only [encStreamCodes, encAcceptAll_src]
  rfl

/-- The schedule of a whole stream from `ENC.START` on, wherever the source register points. -/
theorem encStreamCodes_restarted_schedule (e : Enc) (bs : ByteSeq) {k : Nat} {o : Code × CodeWidth}
    (ho : (encStreamCodes (restartedEnc e) bs)[k]? = some o) :
    o.2 = widthFor (min (256 + k) 4096) ∧ o.1.toNat < 2 ^ o.2.toNat := by
  have hinv : EncInv { restartedEnc e with src := attachedSource [] } :=
    encInv_restarted { e with src := attachedSource [] } (Nat.zero_le _)
  rw [← encStreamCodes_src _ (attachedSource [])] at ho
  simpa only [Nat.zero_add] using encStreamCodes_schedule hinv bs (n := 0) rfl ho

/-! ## A stream has a code word exactly when it has a byte -/

theorem encAcceptAll_match_ne {e : Enc} {bs : ByteSeq} (h : e.curMatch ≠ []) : (encAcceptAll e bs).1.curMatch ≠ [] := by
  induction bs generalizing e with
  | nil => exact h
  | cons b bs ih => exact ih (encAccept_match_ne e b)

/-- With no match there is nothing to write at the end; after a byte there is a match, and `ENC.END` writes its code. -/
theorem encStreamCodes_eq_nil_iff {e : Enc} (h : e.curMatch = []) (bs : ByteSeq) :
    encStreamCodes e bs = [] ↔ bs = [] := by
  cases bs with
  | nil => simp [encStreamCodes, encAcceptAll, h]
  | cons b bs =>
    have hm : (encAcceptAll e (b :: bs)).1.curMatch ≠ [] := encAcceptAll_match_ne (bs := bs) (encAccept_match_ne e b)
    simp [encStreamCodes, hm]

/-! ## The bits of the stream -/

theorem codeWordsBits_length (cs : List (Code × CodeWidth)) :
    (codeWordsBits cs).length = (cs.map (fun cw => cw.2.toNat)).sum := by
  simp [codeWordsBits, List.length_flatMap]

/-- Every byte that has gone out took 8 bits, so what is pending is what is left over of whole bytes. -/
theorem PkInv.cnt_eq {p : Pk} (h : PkInv p) : p.cnt = (pkBits p).length % 8 := by
  have hlen := pkBits_length p
  have hcnt := h.cnt_le
  omega

/-- A flushed run of code words from a fresh packer (40_bit_packer.md R102, R104). -/
theorem streamBits_pkFlushed_pkPutAll (p : Pk) (cs : List (Code × CodeWidth)) :
    streamBits (pkFlushed (pkPutAll (freshPk p) cs)).out.data =
      codeWordsBits cs ++ List.replicate ((8 - (cs.map (fun cw => cw.2.toNat)).sum % 8) % 8) false := by
  obtain ⟨hinv, hbits⟩ := pkPutAll_spec (freshPk p) cs (pkInv_fresh p)
  rw [pkBits_fresh, List.nil_append] at hbits
  obtain ⟨-, -, -, hflush, -⟩ := pkFlushed_spec _ hinv
  rw [hflush, hinv.cnt_eq, hbits, codeWordsBits_length]

/-- Settles O36: `COMPRESS` flushes a fresh packer that took the encoder's code words; their widths follow the encoder's
count, which grows by one with each code word up to the capacity. -/
theorem compressedStreamFollowsTheWidthSchedule : Obligations.CompressedStreamFollowsTheWidthSchedule := by
  rintro s cs rfl
  obtain ⟨t, hexec, -, hpk, -⟩ := execCompress_spec s
  refine ⟨t, hexec, ?_, fun k c w hk => encStreamCodes_restarted_schedule s.enc _ hk,
    encStreamCodes_eq_nil_iff rfl _⟩
  rw [hpk]
  exact streamBits_pkFlushed_pkPutAll s.pk _

end Sys2Proof.Machine
end

section
/-! The sinks and their output ports (20_memory.md R51, R66, R67 (b)). What an operation does to a sink is one of two
things: it appends and leaves the port side alone, or it starts a fresh sink that owes what the old one owed. The two
statements about sinks are read off this. -/

namespace Sys2Proof.Machine

/-! ## Appending to a sink -/

/-- `k'` is `k` with bytes appended, its port side unchanged (R51). -/
structure SinkAppended (k k' : Sink) : Prop where
  data : k.data <+: k'.data
  taken : k'.taken = k.taken
  backlog : k'.backlog = k.backlog

theorem SinkAppended.rfl {k : Sink} : SinkAppended k k := ⟨List.prefix_rfl, by rfl, by rfl⟩

theorem SinkAppended.trans {k k' k'' : Sink} (h : SinkAppended k k') (h' : SinkAppended k' k'') : SinkAppended k k'' :=
  ⟨h.data.trans h'.data, h'.taken.trans h.taken, h'.backlog.trans h.backlog⟩

theorem SinkAppended.owed {k k' : Sink} (h : SinkAppended k k') : sinkOwed k <+: sinkOwed k' :=
  sinkOwed_append h.taken h.backlog h.data

/-! ## The packer's sink -/

theorem sinkAppended_pkPutCode (p : Pk) (c : Code) (w : Nat) : SinkAppended p.out (pkPutCode p c w).out := by
  obtain ⟨htaken, hbacklog⟩ := pkPutCode_port p c w
  exact ⟨pkPutCode_appends p c w, htaken, hbacklog⟩

theorem sinkAppended_pkFlushed (p : Pk) : SinkAppended p.out (pkFlushed p).out := by
  obtain ⟨htaken, hbacklog⟩ := pkFlushed_port p
  exact ⟨pkFlushed_appends p, htaken, hbacklog⟩

theorem sinkAppended_pkPutAll (p : Pk) (cs : List (Code × CodeWidth)) : SinkAppended p.out (pkPutAll p cs).out := by
  induction cs generalizing p with
  | nil => exact .rfl
  | cons cw cs ih => exact (sinkAppended_pkPutCode p cw.1 cw.2.toNat).trans (ih _)

theorem sinkAppended_encByteRun (b : Byte) (s : State) : SinkAppended s.pk.out (encByteRun b s).pk.out := by
  simp only [encByteRun, setPk_pk, pkPutEmitted_eq]
  exact sinkAppended_pkPutAll s.pk _

theorem sinkAppended_encEndRun (s : State) : SinkAppended s.pk.out (encEndRun s).pk.out := by
  simp only [encEndRun, setEnc_pk, setPk_pk]
  refine SinkAppended.trans ?_ (sinkAppended_pkFlushed _)
  split
  · exact .rfl
  · exact sinkAppended_pkPutCode s.pk _ _

theorem pk_of_hostPk {s t : State} {p : Pk} (h : hostPk s p = .next t) : t.pk = p := by
  obtain ⟨-, rfl⟩ := hostPk_next.mp h
  rfl

theorem pk_of_execPkWrite {s t : State} {code : BitVec 12} {width : BitVec 4} (h : execPkWrite code width s = .next t) :
    t.pk = pkPutCode s.pk code width.toNat := by
  obtain ⟨-, hgate⟩ := execPkWrite_next.mp h
  exact pk_of_hostPk hgate

theorem pk_of_requireEncRun {s t r : State} (h : requireEncRun s r = .next t) : t.pk = r.pk := by
  obtain ⟨-, rfl⟩ := requireEncRun_next.mp h
  rfl

/-- Every completing instruction but the three that start the packer appends to its sink. -/
theorem sinkAppended_pk_of_exec {i : Instr} {s t : State} (h : exec i s = .next t) (hpk : i ≠ .pkStart)
    (henc : i ≠ .encStart) (hcompress : i ≠ .compress) : SinkAppended s.pk.out t.pk.out := by
  rcases ofCompressor_or_ofDecompressor_of_exec h with hi | hi
  · cases i with
    | pkStart => exact absurd rfl hpk
    | pkWrite code width => exact pk_of_execPkWrite h ▸ sinkAppended_pkPutCode s.pk _ _
    | pkFlush => exact pk_of_hostPk h ▸ sinkAppended_pkFlushed s.pk
    | encStart => exact absurd rfl henc
    | encByte b => exact pk_of_requireEncRun h ▸ sinkAppended_encByteRun b s
    | encEnd => exact pk_of_requireEncRun h ▸ sinkAppended_encEndRun s
    | encAbort => exact pk_of_requireEncRun h ▸ sinkAppended_pkFlushed s.pk
    | compress => exact absurd rfl hcompress
    | _ => cases hi
  · exact (sameCompressor_of_exec hi h).pk ▸ .rfl

/-! ## The decoder's sink -/

theorem sinkAppended_decReceive (c : Code) (s : State) : SinkAppended s.dec.out (decReceive c s).dec.out := by
  obtain ⟨htaken, hbacklog⟩ := decReceive_port c s
  exact ⟨(decReceive_grows c s).2.2, htaken, hbacklog⟩

theorem sinkAppended_decStepRun (s : State) : SinkAppended s.dec.out (decStepRun s).dec.out := by
  rcases decStepRun_cases s with ⟨u, -, heq⟩ | ⟨c, u, -, heq⟩ <;> rw [heq]
  · exact .rfl
  · exact sinkAppended_decReceive c (s.setUp u)

/-- Every completing instruction but the two that start the decoder appends to its sink. -/
theorem sinkAppended_dec_of_exec {i : Instr} {s t : State} (h : exec i s = .next t) (hstart : i ≠ .decStart)
    (hdecompress : i ≠ .decompress) : SinkAppended s.dec.out t.dec.out := by
  rcases ofCompressor_or_ofDecompressor_of_exec h with hi | hi
  · exact (sameDecompressor_of_exec hi h).dec ▸ .rfl
  · cases i with
    | upStart => exact dec_of_hostUp h ▸ .rfl
    | upRead width => exact dec_of_execUpRead h ▸ .rfl
    | decStart => exact absurd rfl hstart
    | decStep =>
      obtain ⟨-, rfl⟩ := requireDecRun_next.mp h
      exact sinkAppended_decStepRun s
    | decompress => exact absurd rfl hdecompress
    | w9Lit _ | w9Dict _ | w10Lit _ | w10Dict _ | w11Lit _ | w11Dict _ | w12Lit _ | w12Dict _ =>
      obtain ⟨-, -, rfl⟩ := receiveCodeWord_next.mp h
      exact sinkAppended_decReceive _ s
    | _ => cases hi

/-- Settles O52: an instruction that does not start a unit only appends to the unit's sink. -/
theorem sinksAreAppendOnly : Obligations.SinksAreAppendOnly := by
  intro i s t h
  exact ⟨fun hpk henc hcompress => (sinkAppended_pk_of_exec h hpk henc hcompress).data,
    fun hstart hdecompress => (sinkAppended_dec_of_exec h hstart hdecompress).data⟩

/-! ## The bytes that wait at an output port -/

theorem sinkOwed_startEnc_pk (s : State) : sinkOwed (startEnc s).pk.out = sinkOwed s.pk.out :=
  sinkOwed_fresh s.pk.out

theorem sinkOwed_startDec_dec (s : State) : sinkOwed (startDec s).dec.out = sinkOwed s.dec.out :=
  sinkOwed_fresh s.dec.out

/-- The bytes that wait at each of the two output ports go on waiting, in order and before any new byte. -/
structure OwedKept (s t : State) : Prop where
  pk : sinkOwed s.pk.out <+: sinkOwed t.pk.out
  dec : sinkOwed s.dec.out <+: sinkOwed t.dec.out

theorem OwedKept.rfl {s : State} : OwedKept s s := ⟨List.prefix_rfl, List.prefix_rfl⟩

theorem OwedKept.trans {s t u : State} (h : OwedKept s t) (h' : OwedKept t u) : OwedKept s u :=
  ⟨h.pk.trans h'.pk, h.dec.trans h'.dec⟩

theorem owedKept_setUp (s : State) (u : Up) : OwedKept s (s.setUp u) := ⟨List.prefix_rfl, List.prefix_rfl⟩

theorem owedKept_startEnc (s : State) : OwedKept s (startEnc s) :=
  ⟨(sinkOwed_startEnc_pk s).symm ▸ List.prefix_rfl, List.prefix_rfl⟩

theorem owedKept_startDec (s : State) : OwedKept s (startDec s) :=
  ⟨List.prefix_rfl, (sinkOwed_startDec_dec s).symm ▸ List.prefix_rfl⟩

theorem owedKept_decSteps (n : Nat) (s : State) : OwedKept s (decSteps n s) := by
  obtain ⟨hpk, -⟩ := decSteps_frame n s
  exact ⟨hpk ▸ List.prefix_rfl, decSteps_owed n s⟩

/-- `COMPRESS` starts a fresh sink and then appends to it (R67 (b)). -/
theorem owed_pk_of_compress {s t : State} (h : exec .compress s = .next t) :
    sinkOwed s.pk.out <+: sinkOwed t.pk.out := by
  obtain ⟨t', ht', -, hpk, -⟩ := execCompress_spec s
  cases ht'.symm.trans h
  rw [hpk, ← sinkOwed_fresh s.pk.out]
  exact ((sinkAppended_pkPutAll (freshPk s.pk) _).trans (sinkAppended_pkFlushed _)).owed

theorem owed_pk_of_exec {i : Instr} {s t : State} (h : exec i s = .next t) :
    sinkOwed s.pk.out <+: sinkOwed t.pk.out := by
  by_cases hpk : i = .pkStart
  · subst hpk
    rw [pk_of_hostPk h]
    exact (sinkOwed_fresh s.pk.out).symm ▸ List.prefix_rfl
  · by_cases henc : i = .encStart
    · subst henc
      cases h
      exact (owedKept_startEnc s).pk
    · by_cases hcompress : i = .compress
      · subst hcompress
        exact owed_pk_of_compress h
      · exact (sinkAppended_pk_of_exec h hpk henc hcompress).owed

theorem owed_dec_of_exec {i : Instr} {s t : State} (h : exec i s = .next t) :
    sinkOwed s.dec.out <+: sinkOwed t.dec.out := by
  by_cases hstart : i = .decStart
  · subst hstart
    cases h
    exact (owedKept_startDec s).dec
  · by_cases hdecompress : i = .decompress
    · subst hdecompress
      obtain ⟨k, hk, -⟩ := execDecompress_spec s
      cases hk.symm.trans h
      exact ((owedKept_startDec s).trans (owedKept_decSteps _ _)).dec
    · exact (sinkAppended_dec_of_exec h hstart hdecompress).owed

theorem owedKept_of_exec {i : Instr} {s t : State} (h : exec i s = .next t) : OwedKept s t :=
  ⟨owed_pk_of_exec h, owed_dec_of_exec h⟩

/-! ## The acts of the host -/

/-- A command word that completes is an instruction that completes. -/
theorem runCommand_next {w : CommandWord} {s t : State} (h : runCommand w s = .next t) : ∃ i, exec i s = .next t := by
  unfold runCommand at h
  split at h
  · exact ⟨_, h⟩
  · cases h

/-- A pulse performs its operation or is ignored (R67 (d)). -/
theorem portPulse_next {i : Instr} {s t : State} (h : portPulse i s = .next t) : exec i s = .next t ∨ t = s := by
  unfold portPulse at h
  split at h
  · rename_i r hr
    cases h
    exact .inl hr
  · cases h
  · cases h
    exact .inr rfl

theorem owedKept_of_portPulse {i : Instr} {s t : State} (h : portPulse i s = .next t) : OwedKept s t := by
  rcases portPulse_next h with hexec | rfl
  · exact owedKept_of_exec hexec
  · exact .rfl

theorem owedKept_selfStepped (s : State) : OwedKept s (selfStepped s) := by
  obtain ⟨k, -, hk, -⟩ := selfSteps_eq (upBitsAvailable s.up + 1) s
  rw [selfStepped, hk]
  exact owedKept_decSteps k s

theorem owedKept_of_portDIn {b : Byte} {s t : State} (h : portDIn b s = .next t) : OwedKept s t := by
  have hfirst : OwedKept s (selfStepped (s.setUp (portFed s.up))) :=
    (owedKept_setUp s _).trans (owedKept_selfStepped _)
  unfold portDIn at h
  split at h
  · simp only at h
    split at h
    · cases h
      exact hfirst.trans ((owedKept_setUp _ _).trans (owedKept_selfStepped _))
    · cases h
      exact hfirst
  · cases h
    exact .rfl

/-- The loop of `DECOMPRESS` is steps of the decoder, whatever the unpacker holds. -/
theorem decompressLoop_next {n : Nat} {s t : State} (h : decompressLoop n s = .next t) : ∃ k, t = decSteps k s := by
  induction n generalizing s with
  | zero => cases h
  | succ n ih =>
    simp only [decompressLoop] at h
    split at h
    · obtain ⟨k, hk⟩ := ih h
      exact ⟨k + 1, hk⟩
    · cases h
      exact ⟨1, rfl⟩

theorem owedKept_of_portDInEnd {s t : State} (h : portDInEnd s = .next t) : OwedKept s t := by
  unfold portDInEnd at h
  split at h
  · obtain ⟨k, rfl⟩ := decompressLoop_next h
    exact (owedKept_setUp s _).trans (owedKept_decSteps k _)
  · cases h
    exact .rfl

/-- Every port event but a transfer on an output port keeps what waits at both ports. -/
theorem owedKept_of_portEvent {e : PortEvent} {s t : State} (h : portEvent e s = .next t) (hc : e ≠ .cOut)
    (hd : e ≠ .dOut) : OwedKept s t := by
  cases e with
  | cStart => exact owedKept_of_portPulse (i := .encStart) h
  | cIn b => exact owedKept_of_portPulse (i := .encByte b) h
  | cInEnd => exact owedKept_of_portPulse (i := .encEnd) h
  | cAbort => exact owedKept_of_portPulse (i := .encAbort) h
  | cOut => exact absurd rfl hc
  | dStart =>
    exact (owedKept_setUp s { s.up with src := attachedSource [], fed := true }).trans
      (owedKept_of_portPulse (i := .decStart) h)
  | dIn b => exact owedKept_of_portDIn h
  | dInEnd => exact owedKept_of_portDInEnd h
  | dOut => exact absurd rfl hd

/-- Every act of the host but a transfer on an output port keeps what waits at both ports. -/
theorem owedKept_of_runEvent {e : HostEvent} {s t : State} (h : runEvent e s = .next t) (hc : e ≠ .port .cOut)
    (hd : e ≠ .port .dOut) : OwedKept s t := by
  cases e with
  | command w =>
    obtain ⟨i, hi⟩ := runCommand_next h
    exact owedKept_of_exec hi
  | reset =>
    cases h
    exact (owedKept_startEnc s).trans (owedKept_startDec _)
  | attachRaw data =>
    cases h
    exact ⟨List.prefix_rfl, List.prefix_rfl⟩
  | attachCompressed data =>
    cases h
    exact ⟨List.prefix_rfl, List.prefix_rfl⟩
  | port e => exact owedKept_of_portEvent h (fun heq => hc (heq ▸ rfl)) (fun heq => hd (heq ▸ rfl))

theorem runEvent_cOut (s : State) :
    runEvent (.port .cOut) s = .next (s.setPk { s.pk with out := sinkTake s.pk.out }) := rfl

theorem runEvent_dOut (s : State) :
    runEvent (.port .dOut) s = .next (s.setDec { s.dec with out := sinkTake s.dec.out }) := rfl

/-- Settles O60: an act other than the two transfers keeps what waits at both ports, and a transfer on one port does not
touch the sink of the other. -/
theorem noByteIsDroppedFromAnOutputPort : Obligations.NoByteIsDroppedFromAnOutputPort := by
  refine ⟨fun i s t h => ⟨owed_pk_of_exec h, owed_dec_of_exec h⟩, fun e s t h => ⟨fun hc => ?_, fun hd => ?_⟩⟩
  · by_cases hd : e = .port .dOut
    · subst hd
      cases h
      exact List.prefix_rfl
    · exact (owedKept_of_runEvent h hc hd).pk
  · by_cases hc : e = .port .cOut
    · subst hc
      cases h
      exact List.prefix_rfl
    · exact (owedKept_of_runEvent h hc hd).dec

/-! ## A transfer on an output port -/

theorem sinkTake_data (k : Sink) : (sinkTake k).data = k.data := by
  obtain ⟨n, bl, h⟩ := sinkTake_eq k
  rw [h]

theorem cDone_iff (s : State) :
    cDone s = true ↔ s.enc.phase = .done ∧ s.pk.out.data.drop s.pk.out.taken = [] := by
  rw [cDone, Bool.and_eq_true, beq_iff_eq, decide_eq_true_iff, List.drop_eq_nil_iff]

theorem dDone_iff (s : State) :
    dDone s = true ↔ s.dec.phase = .done ∧ s.dec.out.data.drop s.dec.out.taken = [] := by
  rw [dDone, Bool.and_eq_true, beq_iff_eq, decide_eq_true_iff, List.drop_eq_nil_iff]

theorem dError_iff (s : State) :
    dError s = true ↔ s.dec.phase = .error ∧ s.dec.out.data.drop s.dec.out.taken = [] := by
  rw [dError, Bool.and_eq_true, beq_iff_eq, decide_eq_true_iff, List.drop_eq_nil_iff]

/-- Settles O59: the port shows the head of the bytes that wait, and a transfer takes that head off them. -/
theorem outputPortsTransferTheOldestByte : Obligations.OutputPortsTransferTheOldestByte := by
  intro s
  refine ⟨⟨_, runEvent_cOut s, sinkTake_data _, sinkOwed_sinkTake _, List.head?_eq_none_iff, rfl⟩,
    ⟨_, runEvent_dOut s, sinkTake_data _, sinkOwed_sinkTake _, List.head?_eq_none_iff, rfl⟩,
    cDone_iff s, dDone_iff s, dError_iff s⟩

/-! ## The pulses -/

theorem portPulse_of_next {i : Instr} {s t : State} (h : exec i s = .next t) : portPulse i s = .next t := by
  simp only [portPulse, h]

theorem portPulse_of_refused {i : Instr} {s : State} {r : Refusal} (h : exec i s = .refused r) :
    portPulse i s = .next s := by
  simp only [portPulse, h]

/-- The compressor's port events that are pulses of an instruction (R66). -/
theorem runEvent_port_eq_portPulse {b : Byte} {ei : PortEvent × Instr}
    (h : ei ∈ [(PortEvent.cStart, Instr.encStart), (.cIn b, .encByte b), (.cInEnd, .encEnd), (.cAbort, .encAbort)])
    (s : State) : runEvent (.port ei.1) s = portPulse ei.2 s := by
  simp only [List.mem_cons, List.not_mem_nil, or_false] at h
  rcases h with rfl | rfl | rfl | rfl <;> rfl

/-- Settles O57: each event is the pulse of its instruction, and `d_start` puts a fresh source before `DEC.START`. -/
theorem portPulsesPerformTheirOperations : Obligations.PortPulsesPerformTheirOperations := by
  intro s b
  refine ⟨fun ei hei => ⟨fun t h => ?_, fun r h => ?_⟩, ⟨_, portPulse_of_next (i := .decStart) rfl, rfl⟩⟩
  · rw [runEvent_port_eq_portPulse hei, portPulse_of_next h]
  · rw [runEvent_port_eq_portPulse hei, portPulse_of_refused h]

end Sys2Proof.Machine
end

section
/-! Streaming through the ports against `DECOMPRESS` (20_memory.md R66, R67; logs 11, 12). The reference run is that of
`DECOMPRESS` on the bytes transferred so far. A port state follows it: some number of steps, each of which finds its
bits in what has been transferred, leads the reference run to the same unpacker and decoder, but for what the host has
taken from the sink and where the source comes from. Such steps are not changed by bytes that arrive later, so at
`d_in_end` they are the first steps of `DECOMPRESS` on the whole sequence. -/

namespace Sys2Proof.Machine

/-! ## States that a step of the decoder does not tell apart -/

/-- The state with another mark of where the compressed source comes from (20_memory.md R67 (a); log 11). -/
def State.setFed (s : State) (f : Bool) : State := s.setUp { s.up with fed := f }

theorem decStepRun_setFed (s : State) (f : Bool) : decStepRun (s.setFed f) = (decStepRun s).setFed f := by
  have hread : upRead (s.setFed f).up s.dec.width.toNat =
      ((upRead s.up s.dec.width.toNat).1, { (upRead s.up s.dec.width.toNat).2 with fed := f }) := upRead_setFed _ _ f
  have hdec : (s.setFed f).dec = s.dec := rfl
  rcases hr : upRead s.up s.dec.width.toNat with ⟨o, u⟩
  rw [hr] at hread
  cases o with
  | none =>
    simp only [decStepRun, hdec, hread, hr]
    rfl
  | some c =>
    simp only [decStepRun, hdec, hread, hr]
    rw [decReceive_setUp, State.setFed, decReceive_setUp, decReceive_setUp]
    rfl

theorem decStepRun_fed (s : State) : (decStepRun s).up.fed = s.up.fed := by
  have h := congrArg (fun t => t.up.fed) (decStepRun_setFed s s.up.fed)
  exact h

theorem decSteps_fed (k : Nat) (s : State) : (decSteps k s).up.fed = s.up.fed := by
  induction k generalizing s with
  | zero => rfl
  | succ k ih => exact (ih _).trans (decStepRun_fed s)

/-- The state with the port side of the decoder's sink and the mark of its source put to fixed values. -/
def State.unported (s : State) : State := (s.setTaken 0 []).setFed false

theorem decStepRun_unported (s : State) : decStepRun s.unported = (decStepRun s).unported := by
  rw [State.unported, decStepRun_setFed, decStepRun_setTaken]
  rfl

/-- The decompressors of the two states are the same to a step: same unpacker but for the mark of its source, same
decoder but for the port side of its sink. -/
structure SameStream (s t : State) : Prop where
  up : s.unported.up = t.unported.up
  dec : s.unported.dec = t.unported.dec

theorem SameStream.trans {s t r : State} (h : SameStream s t) (h' : SameStream t r) : SameStream s r :=
  ⟨h.up.trans h'.up, h.dec.trans h'.dec⟩

theorem SameStream.decStepRun {s t : State} (h : SameStream s t) : SameStream (decStepRun s) (decStepRun t) := by
  obtain ⟨hup, hdec⟩ := decStepRun_congr h.up h.dec
  rw [decStepRun_unported, decStepRun_unported] at hup hdec
  exact ⟨hup, hdec⟩

theorem SameStream.decSteps {s t : State} (h : SameStream s t) (k : Nat) :
    SameStream (decSteps k s) (decSteps k t) := by
  induction k generalizing s t with
  | zero => exact h
  | succ k ih => exact ih h.decStepRun

theorem SameStream.phase {s t : State} (h : SameStream s t) : s.dec.phase = t.dec.phase :=
  congrArg (fun d => d.phase) h.dec

theorem decStepReady_unported (s : State) : decStepReady s.unported = decStepReady s := rfl

theorem SameStream.ready {s t : State} (h : SameStream s t) : decStepReady s = decStepReady t := by
  rw [← decStepReady_unported s, ← decStepReady_unported t]
  simp only [decStepReady, h.up, h.dec]

theorem upInv_unported {s : State} : UpInv s.unported.up ↔ UpInv s.up :=
  ⟨fun h => ⟨h.left_le, h.buf_low, h.eos_left, h.pos_le⟩, fun h => ⟨h.left_le, h.buf_low, h.eos_left, h.pos_le⟩⟩

theorem SameStream.upInv {s t : State} (h : SameStream s t) (ht : UpInv t.up) : UpInv s.up :=
  upInv_unported.mp (h.up ▸ upInv_unported.mpr ht)

theorem addBytes_unported (s : State) (x : ByteSeq) : (s.addBytes x).unported = s.unported.addBytes x := rfl

theorem SameStream.addBytes {s t : State} (h : SameStream s t) (x : ByteSeq) :
    SameStream (s.addBytes x) (t.addBytes x) := by
  refine ⟨?_, h.dec⟩
  rw [addBytes_unported, addBytes_unported, State.addBytes, State.addBytes, setUp_up, setUp_up, h.up]

theorem sameStream_setTaken (s : State) (n : Nat) (bl : ByteSeq) : SameStream (s.setTaken n bl) s :=
  ⟨by rfl, by rfl⟩

/-! ## Steps that find their bits -/

/-- The first `k` steps from `o` find their bits, or an end-of-stream already signalled. -/
def ReadyFor (k : Nat) (o : State) : Prop := ∀ j, j < k → decStepReady (decSteps j o) = true

/-- Bits that are there are there when more bytes have come. -/
theorem decStepReady_addBytes {s : State} (x : ByteSeq) (h : decStepReady s = true) :
    decStepReady (s.addBytes x) = true := by
  have hup : upBitsAvailable s.up ≤ upBitsAvailable (s.addBytes x).up := by
    simp only [upBitsAvailable, State.addBytes, setUp_up, List.length_append]
    omega
  simp only [decStepReady, Bool.and_eq_true, Bool.or_eq_true, decide_eq_true_eq] at h ⊢
  exact ⟨h.1, h.2.imp id fun hw => hw.trans hup⟩

theorem decSteps_add (m n : Nat) (s : State) : decSteps (m + n) s = decSteps n (decSteps m s) := by
  induction n with
  | zero => rfl
  | succ n ih => rw [← Nat.add_assoc, decSteps_succ, ih, decSteps_succ]

theorem ReadyFor.add {m n : Nat} {o : State} (hm : ReadyFor m o) (hn : ReadyFor n (decSteps m o)) :
    ReadyFor (m + n) o := by
  intro j hj
  by_cases hlt : j < m
  · exact hm j hlt
  · obtain ⟨i, rfl⟩ := Nat.exists_eq_add_of_le (Nat.le_of_not_lt hlt)
    rw [decSteps_add]
    exact hn i (by omega)

theorem ReadyFor.addBytes {k : Nat} {o : State} (h : ReadyFor k o) (x : ByteSeq) (hu : UpInv o.up)
    (he : o.up.eos = false) : ReadyFor k (o.addBytes x) := by
  intro j hj
  rw [decSteps_addBytes j x hu he fun i hi => h i (hi.trans hj)]
  exact decStepReady_addBytes x (h j hj)

/-- Such steps keep the unpacker's invariant; none of them meets the end of the source. -/
theorem ReadyFor.upInv {k : Nat} {o : State} (h : ReadyFor k o) (hu : UpInv o.up) : UpInv (decSteps k o).up := by
  induction k with
  | zero => exact hu
  | succ k ih =>
    rw [decSteps_succ]
    exact decStepRun_upInv (ih fun j hj => h j (by omega))

/-! ## A port state that tracks the reference run -/

/-- `p` stands where some number of steps that find their bits lead from `o`. -/
def Tracks (o p : State) : Prop := ∃ k, ReadyFor k o ∧ SameStream p (decSteps k o)

theorem Tracks.of_sameStream {o p q : State} (h : Tracks o p) (hq : SameStream q p) : Tracks o q := by
  obtain ⟨k, hready, hsame⟩ := h
  exact ⟨k, hready, hq.trans hsame⟩

/-- The self-issued steps track on (R66). -/
theorem Tracks.selfStepped {o p : State} (h : Tracks o p) : Tracks o (selfStepped p) := by
  obtain ⟨k, hready, hsame⟩ := h
  obtain ⟨n, -, hsteps, hself⟩ := selfSteps_eq (upBitsAvailable p.up + 1) p
  refine ⟨k + n, hready.add fun j hj => ?_, ?_⟩
  · rw [← (hsame.decSteps j).ready]
    exact hself j hj
  · rw [Machine.selfStepped, hsteps, decSteps_add]
    exact hsame.decSteps n

/-- A byte that arrives at both ends of the tracking. -/
theorem Tracks.addBytes {o p : State} (h : Tracks o p) (x : ByteSeq) (hu : UpInv o.up) (he : o.up.eos = false) :
    Tracks (o.addBytes x) (p.addBytes x) := by
  obtain ⟨k, hready, hsame⟩ := h
  refine ⟨k, hready.addBytes x hu he, ?_⟩
  rw [decSteps_addBytes k x hu he hready]
  exact hsame.addBytes x

theorem selfStepped_fed (s : State) : (selfStepped s).up.fed = s.up.fed := by
  obtain ⟨n, -, hsteps, -⟩ := selfSteps_eq (upBitsAvailable s.up + 1) s
  rw [selfStepped, hsteps, decSteps_fed]

/-! ## The events of the port while a stream runs -/

theorem runEvent_dIn (b : Byte) (p : State) : runEvent (.port (.dIn b)) p = portDIn b p := rfl

theorem portDIn_of_ended {p : State} (b : Byte) (h : p.dec.phase ≠ .run) : portDIn b p = .next p := if_neg h

/-- The steps that can finish before the byte is transferred end the stream: the byte is not taken. -/
theorem portDIn_of_ends {p : State} (b : Byte) (h : p.dec.phase = .run)
    (h' : (selfStepped (p.setUp (portFed p.up))).dec.phase ≠ .run) :
    portDIn b p = .next (selfStepped (p.setUp (portFed p.up))) := by
  rw [portDIn, if_pos h]
  exact if_neg h'

theorem portDIn_of_runs {p : State} (b : Byte) (h : p.dec.phase = .run)
    (h' : (selfStepped (p.setUp (portFed p.up))).dec.phase = .run) :
    portDIn b p = .next (selfStepped ((selfStepped (p.setUp (portFed p.up))).arrive b)) := by
  rw [portDIn, if_pos h]
  exact if_pos h'

theorem runEvent_dInEnd (p : State) : runEvent (.port .dInEnd) p = portDInEnd p := rfl

theorem portDInEnd_of_ended {p : State} (h : p.dec.phase ≠ .run) : portDInEnd p = .next p := if_neg h

theorem portDInEnd_of_run {p : State} (h : p.dec.phase = .run) :
    portDInEnd p = decompressLoop (upBitsAvailable (portFed p.up) + 1) (p.setUp (portFed p.up)) := if_pos h

/-- The state in which `DECOMPRESS` issues its first `DEC.STEP` on the bytes `x`. -/
def opened (s : State) (x : ByteSeq) : State :=
  startDec (s.setUp { s.up with src := attachedSource x, fed := false })

theorem opened_addBytes (s : State) (x y : ByteSeq) : (opened s x).addBytes y = opened s (x ++ y) := rfl

theorem opened_upInv (s : State) (x : ByteSeq) : UpInv (opened s x).up := upInv_restarted _

theorem opened_eos (s : State) (x : ByteSeq) : (opened s x).up.eos = false := rfl

/-- After the bytes `x` on `d_in` the decoder is that of the reference run on `x`, and while it runs so is the unpacker
as `d_in` feeds it. After an error the bytes on `d_in` are no longer transferred and the unpacker stays behind. -/
def Follows (s : State) (x : ByteSeq) (p : State) : Prop :=
  ∃ u, Tracks (opened s x) (p.setUp u) ∧ (p.dec.phase = .run → u = portFed p.up)

theorem Follows.tracks_run {s p : State} {x : ByteSeq} (h : Follows s x p) (hrun : p.dec.phase = .run) :
    Tracks (opened s x) (p.setUp (portFed p.up)) := by
  obtain ⟨u, htracks, hu⟩ := h
  exact hu hrun ▸ htracks

/-- A state in which a `START` has just been performed follows the empty sequence. -/
theorem follows_of_started {s p : State} {u : Up} (hup : p.up = restartedUp u) (hdec : p.dec = freshDec s.dec) :
    Follows s [] p := by
  refine ⟨portFed p.up, ⟨0, fun j hj => absurd hj (Nat.not_lt_zero j), ?_, ?_⟩, fun _ => rfl⟩
  · rw [hup, portFed_restarted]
    rfl
  · simp only [State.unported, State.setTaken, State.setFed, setUp_dec, setDec_dec, hdec]
    rfl

/-- An output transfer changes the port side of the sink alone (R66). -/
theorem Follows.dOut {s p : State} {x : ByteSeq} (h : Follows s x p) :
    ∃ p', runEvent (.port .dOut) p = .next p' ∧ Follows s x p' := by
  obtain ⟨u, htracks, hu⟩ := h
  obtain ⟨n, bl, htake⟩ := sinkTake_eq p.dec.out
  have hevent : runEvent (.port .dOut) p = .next (p.setTaken n bl) := by
    rw [runEvent_dOut, htake]
    rfl
  exact ⟨_, hevent, u, htracks.of_sameStream (sameStream_setTaken (p.setUp u) n bl), hu⟩

/-- A state whose source is already that of `d_in` follows when it tracks. -/
theorem Tracks.follows {s p : State} {x : ByteSeq} (h : Tracks (opened s x) p) (hfed : p.up.fed = true) :
    Follows s x p := ⟨p.up, h, fun _ => (portFed_of_fed hfed).symm⟩

/-- When the decoder has ended, a byte on `d_in` is not transferred, and the reference run on one byte more is where it
was. -/
theorem Follows.of_ended {s p : State} {x : ByteSeq} (h : Follows s x p) (b : Byte) (hstop : p.dec.phase ≠ .run) :
    Follows s (x ++ [b]) p := by
  obtain ⟨u, htracks, -⟩ := h
  have hmore := htracks.addBytes [b] (opened_upInv s x) (opened_eos s x)
  rw [opened_addBytes] at hmore
  exact ⟨_, hmore, fun hrun => absurd hrun hstop⟩

/-- A byte on `d_in` (R66, R67 (a)). -/
theorem Follows.dIn {s p : State} {x : ByteSeq} (h : Follows s x p) (b : Byte) :
    ∃ p', runEvent (.port (.dIn b)) p = .next p' ∧ Follows s (x ++ [b]) p' := by
  rw [runEvent_dIn]
  by_cases hrun : p.dec.phase = .run
  · have hfirst := (h.tracks_run hrun).selfStepped
    have hfed : (selfStepped (p.setUp (portFed p.up))).up.fed = true :=
      (selfStepped_fed _).trans (portFed_fed p.up)
    by_cases hrun' : (selfStepped (p.setUp (portFed p.up))).dec.phase = .run
    · have hmore := (hfirst.addBytes [b] (opened_upInv s x) (opened_eos s x)).selfStepped
      rw [opened_addBytes, ← arrive_eq] at hmore
      exact ⟨_, portDIn_of_runs b hrun hrun', hmore.follows ((selfStepped_fed _).trans hfed)⟩
    · exact ⟨_, portDIn_of_ends b hrun hrun', (hfirst.follows hfed).of_ended b hrun'⟩
  · exact ⟨p, portDIn_of_ended b hrun, h.of_ended b hrun⟩

/-! ## The end of the stream -/

/-- The run from `o` ends with its step `k`, and not before. -/
def EndsAt (k : Nat) (o : State) : Prop :=
  (∀ j, j < k → (decSteps j o).dec.phase = .run) ∧ (decSteps k o).dec.phase ≠ .run

theorem EndsAt.unique {m n : Nat} {o : State} (hm : EndsAt m o) (hn : EndsAt n o) : m = n := by
  rcases Nat.lt_trichotomy m n with h | h | h
  · exact absurd (hn.1 m h) hm.2
  · exact h
  · exact absurd (hm.1 n h) hn.2

/-- A run of the loop of `DECOMPRESS` from a running decoder goes to the end. -/
theorem decompressLoop_endsAt {s : State} (hu : UpInv s.up) (hrun : s.dec.phase = .run) :
    ∃ k, decompressLoop (upBitsAvailable s.up + 1) s = .next (decSteps k s) ∧ EndsAt k s := by
  obtain ⟨k, hloop, hend, hbefore⟩ := decompressLoop_ends _ s hu (Nat.lt_succ_self _) hrun
  refine ⟨k + 1, hloop, decSteps_running hrun hbefore, ?_⟩
  rcases hend with ⟨-, hphase⟩ | ⟨-, hphase⟩ <;> rw [hphase] <;> decide

theorem ReadyFor.running {k : Nat} {o : State} (h : ReadyFor k o) : ∀ j, j < k → (decSteps j o).dec.phase = .run :=
  fun j hj => decStepReady_run (h j hj)

/-- At `d_in_end` the decoder goes on to the end of the reference run, where `DECOMPRESS` ends (R66). -/
theorem Follows.dInEnd {s p : State} {x : ByteSeq} (h : Follows s x p) :
    ∃ t k, runEvent (.port .dInEnd) p = .next t ∧ EndsAt k (opened s x) ∧
      t.unported.dec = (decSteps k (opened s x)).unported.dec := by
  rw [runEvent_dInEnd]
  by_cases hrun : p.dec.phase = .run
  · obtain ⟨k, hready, hsame⟩ := h.tracks_run hrun
    obtain ⟨n, hloop, hbefore, hend⟩ :=
      decompressLoop_endsAt (hsame.upInv (hready.upInv (opened_upInv s x))) hrun
    refine ⟨decSteps n (p.setUp (portFed p.up)), k + n, (portDInEnd_of_run hrun).trans hloop,
      ⟨fun j hj => ?_, ?_⟩, ?_⟩
    · by_cases hlt : j < k
      · exact hready.running j hlt
      · obtain ⟨i, rfl⟩ := Nat.exists_eq_add_of_le (Nat.le_of_not_lt hlt)
        rw [decSteps_add, ← (hsame.decSteps i).phase]
        exact hbefore i (by omega)
    · rw [decSteps_add, ← (hsame.decSteps n).phase]
      exact hend
    · rw [decSteps_add]
      exact (hsame.decSteps n).dec
  · obtain ⟨u, ⟨k, hready, hsame⟩, -⟩ := h
    exact ⟨p, k, portDInEnd_of_ended hrun, ⟨hready.running, hsame.phase ▸ hrun⟩, hsame.dec⟩

/-! ## The whole stream -/

theorem runEvents_append (es fs : List HostEvent) {s t : State} (h : runEvents es s = .next t) :
    runEvents (es ++ fs) s = runEvents fs t := by
  induction es generalizing s with
  | nil =>
    cases h
    rfl
  | cons e es ih =>
    simp only [List.cons_append, runEvents] at h ⊢
    cases he : runEvent e s with
    | next r =>
      rw [he] at h
      exact ih h
    | fault r =>
      rw [he] at h
      cases h
    | refused r =>
      rw [he] at h
      cases h

theorem runEvents_cons {e : HostEvent} {s r : State} (h : runEvent e s = .next r) (es : List HostEvent) :
    runEvents (e :: es) s = runEvents es r := by
  simp only [runEvents, h]

theorem Follows.dOuts {s p : State} {x : ByteSeq} (h : Follows s x p) (n : Nat) :
    ∃ p', runEvents (List.replicate n (.port .dOut)) p = .next p' ∧ Follows s x p' := by
  induction n generalizing p with
  | zero => exact ⟨p, rfl, h⟩
  | succ n ih =>
    obtain ⟨p₁, hevent, hfollows⟩ := h.dOut
    rw [List.replicate_succ, runEvents_cons hevent]
    exact ih hfollows

/-- A byte with its place in the stream, and the output transfers that the schedule puts after it. -/
def byteThenTakes (takes : List Nat) (bi : Byte × Nat) : List HostEvent :=
  .port (.dIn bi.1) :: List.replicate (takes.getD bi.2 0) (.port .dOut)

theorem Follows.byteThenTakes {s p : State} {x : ByteSeq} (h : Follows s x p) (takes : List Nat) (bi : Byte × Nat) :
    ∃ p', runEvents (byteThenTakes takes bi) p = .next p' ∧ Follows s (x ++ [bi.1]) p' := by
  obtain ⟨p₁, hevent, hfollows⟩ := h.dIn bi.1
  rw [Machine.byteThenTakes, runEvents_cons hevent]
  exact hfollows.dOuts _

theorem Follows.bytes {s p : State} {x : ByteSeq} (h : Follows s x p) (takes : List Nat) (bis : List (Byte × Nat)) :
    ∃ p', runEvents (bis.flatMap (Machine.byteThenTakes takes)) p = .next p' ∧ Follows s (x ++ bis.map (·.1)) p' := by
  induction bis generalizing x p with
  | nil => exact ⟨p, rfl, by simpa using h⟩
  | cons bi bis ih =>
    obtain ⟨p₁, hevents, hfollows⟩ := h.byteThenTakes takes bi
    rw [List.flatMap_cons, runEvents_append _ _ hevents]
    simpa using ih hfollows

/-- Each of the three starts begins a stream for the port (R67 (a), 70_reset_and_hazards.md R191). -/
theorem follows_of_start {s : State} {start : HostEvent}
    (h : start ∈ [HostEvent.port .dStart, .reset, .command (commandWord 0x9 0 0)]) :
    ∃ p, runEvent start s = .next p ∧ Follows s [] p := by
  simp only [List.mem_cons, List.not_mem_nil, or_false] at h
  rcases h with rfl | rfl | rfl
  · exact ⟨_, rfl, follows_of_started rfl rfl⟩
  · exact ⟨_, rfl, follows_of_started rfl rfl⟩
  · have hword : decodeCommand (commandWord 0x9 0 0) = .ok .decStart := by decide
    exact ⟨_, runCommand_of_decodeCommand_ok hword s, follows_of_started (s := s) (u := s.up) rfl rfl⟩

/-- `DECOMPRESS` on an attached sequence is the reference run to its end (43_lzw_decoder.md R148). -/
theorem decompress_endsAt {s r q : State} {data : ByteSeq} (hr : runEvents [.attachCompressed data] s = .next r)
    (hq : exec .decompress r = .next q) : ∃ k, EndsAt k (opened s data) ∧ q = decSteps k (opened s data) := by
  obtain ⟨k, hloop, hend⟩ := decompressLoop_endsAt (opened_upInv s data) rfl
  cases hr
  cases hloop.symm.trans hq
  exact ⟨k, hend, rfl⟩

/-- Settles O58: the port follows the reference run from the start on, byte by byte and past every output transfer, and
at `d_in_end` both have ended with the same step. -/
theorem portStreamingEqualsDecompress : Obligations.PortStreamingEqualsDecompress := by
  intro s r q start data takes hstart hr hq
  obtain ⟨p₀, hevent, hfollows₀⟩ := follows_of_start (s := s) hstart
  obtain ⟨p₁, hevents, hfollows₁⟩ := hfollows₀.bytes takes data.zipIdx
  rw [List.nil_append, List.zipIdx_map_fst] at hfollows₁
  obtain ⟨t, k, hlast, hend, hdec⟩ := hfollows₁.dInEnd
  obtain ⟨n, hend', rfl⟩ := decompress_endsAt hr hq
  obtain rfl := hend.unique hend'
  refine ⟨t, ?_, ?_, ?_, ?_, ?_, ?_⟩
  · calc runEvents (start :: data.zipIdx.flatMap (byteThenTakes takes) ++ [.port .dInEnd]) s
        = runEvents (data.zipIdx.flatMap (byteThenTakes takes) ++ [.port .dInEnd]) p₀ := runEvents_cons hevent _
      _ = runEvents [.port .dInEnd] p₁ := runEvents_append _ _ hevents
      _ = .next t := runEvents_cons hlast []
  · exact congrArg (fun d => d.out.data) hdec
  · exact congrArg (fun d => d.phase) hdec
  · exact congrArg (fun d => statusBits d.status) hdec
  · exact congrArg (fun d => d.badcode) hdec
  · exact congrArg (fun d => d.dict) hdec

end Sys2Proof.Machine
end

section
/-! The encodings (30_encoding.md R71, R81): decoding and encoding are inverse to each other, and a command word is
rejected exactly for an unused field. What the decoder makes of a command word is said once for each operation number
with operands; the ten operations without operands share one equation. -/

namespace Sys2Proof

/-! ## The decoder of command words, by operation number -/

/-- The operations without operands, with their numbers (R80). -/
def plainOperations : List (BitVec 4 × Instr) :=
  [(0x0, .pkStart), (0x2, .pkFlush), (0x3, .upStart), (0x5, .encStart), (0x7, .encEnd), (0x8, .encAbort),
    (0x9, .decStart), (0xA, .decStep), (0xB, .compress), (0xC, .decompress)]

/-- The reserved operations, with their numbers and the low 16 bits of the word (R88 (a)). -/
def reservedOperations (payload : BitVec 16) : List (BitVec 4 × Instr) :=
  [(0xD, .reservedD payload), (0xE, .reservedE payload), (0xF, .reservedF payload)]

variable {w : CommandWord}

theorem decodeCommand_plain {i : Instr} (h : (w.extractLsb' 16 4, i) ∈ plainOperations) :
    decodeCommand w = noOperands i w := by
  generalize hop : w.extractLsb' 16 4 = op at h
  simp only [plainOperations, List.mem_cons, Prod.mk.injEq, List.not_mem_nil, or_false] at h
  rcases h with ⟨rfl, rfl⟩ | ⟨rfl, rfl⟩ | ⟨rfl, rfl⟩ | ⟨rfl, rfl⟩ | ⟨rfl, rfl⟩ | ⟨rfl, rfl⟩ | ⟨rfl, rfl⟩ | ⟨rfl, rfl⟩ |
    ⟨rfl, rfl⟩ | ⟨rfl, rfl⟩ <;> simp only [decodeCommand, hop] <;> rfl

theorem decodeCommand_pkWrite (h : w.extractLsb' 16 4 = 0x1) :
    decodeCommand w = .ok (.pkWrite (w.extractLsb' 0 12) (w.extractLsb' 12 4)) := by
  simp only [decodeCommand, h]
  rfl

theorem decodeCommand_upRead (h : w.extractLsb' 16 4 = 0x4) :
    decodeCommand w =
      if w.extractLsb' 0 12 = 0#12 then .ok (.upRead (w.extractLsb' 12 4)) else .error (.unusedFieldNotZero 0x4) := by
  simp only [decodeCommand, h]
  rfl

theorem decodeCommand_encByte (h : w.extractLsb' 16 4 = 0x6) :
    decodeCommand w =
      if w.extractLsb' 8 8 = 0#8 then .ok (.encByte (w.extractLsb' 0 8)) else .error (.unusedFieldNotZero 0x6) := by
  simp only [decodeCommand, h]
  rfl

theorem decodeCommand_reserved {i : Instr} (h : (w.extractLsb' 16 4, i) ∈ reservedOperations (w.extractLsb' 0 16)) :
    decodeCommand w = .ok i := by
  generalize hop : w.extractLsb' 16 4 = op at h
  simp only [reservedOperations, List.mem_cons, Prod.mk.injEq, List.not_mem_nil, or_false] at h
  rcases h with ⟨rfl, rfl⟩ | ⟨rfl, rfl⟩ | ⟨rfl, rfl⟩ <;> simp only [decodeCommand, hop] <;> rfl

/-- The sixteen operation numbers (R80): plain, `PK.WRITE`, `UP.READ`, `ENC.BYTE` or reserved. -/
theorem opNumber_cases (payload : BitVec 16) (op : BitVec 4) :
    (∃ i, (op, i) ∈ plainOperations) ∨ op = 0x1 ∨ op = 0x4 ∨ op = 0x6 ∨
      ∃ i, (op, i) ∈ reservedOperations payload := by
  have hall : ∀ op : BitVec 4, op ∈ plainOperations.map (·.1) ∨ op = 0x1 ∨ op = 0x4 ∨ op = 0x6 ∨
      op ∈ (reservedOperations payload).map (·.1) := by
    simp only [plainOperations, reservedOperations, List.map_cons, List.map_nil]
    decide
  simpa using hall op

/-! ## Decoding an encoded instruction -/

/-- Bits 15:8 of the word of `ENC.BYTE` are zero (R81). -/
theorem commandWord_byte_high (op : BitVec 4) (b : BitVec 8) :
    (commandWord op 0 (0#4 ++ b)).extractLsb' 8 8 = 0#8 := by
  refine BitVec.eq_of_toNat_eq ?_
  rw [extract_toNat, commandWord_toNat, zeros_append_toNat]
  have := b.isLt
  have := op.isLt
  simp only [BitVec.ofNat_eq_ofNat, BitVec.toNat_ofNat]
  omega

theorem commandWord_byte (op width : BitVec 4) (b : BitVec 8) :
    (commandWord op width (0#4 ++ b)).extractLsb' 0 8 = b := by
  rw [commandWord, BitVec.extractLsb'_append_eq_of_add_le (by decide), BitVec.extractLsb'_append_eq_right]

/-- A reserved word decodes to the reserved operation with its low 16 bits (R88 (a)). -/
theorem decodeCommand_reservedWord {op : BitVec 4} {payload : BitVec 16} {i : Instr}
    (h : (op, i) ∈ reservedOperations payload) : decodeCommand (op ++ payload) = .ok i := by
  refine decodeCommand_reserved ?_
  rw [BitVec.extractLsb'_append_eq_left, BitVec.extractLsb'_append_eq_right]
  exact h

/-- Decoding the encoding of an operation gives it back, whatever its operands. -/
theorem decode_encode_of_operation {i : Instr} (h : i.isCodeWord = false) : decode (encode i) = .ok i := by
  cases i with
  | pkWrite code width =>
    rw [encode, decode, decodeCommand_pkWrite (commandWord_op _ _ _), commandWord_code, commandWord_width]
  | upRead width =>
    rw [encode, decode, decodeCommand_upRead (commandWord_op _ _ _), commandWord_code, commandWord_width]
    rfl
  | encByte b =>
    rw [encode, decode, decodeCommand_encByte (commandWord_op _ _ _), commandWord_byte_high, commandWord_byte,
      if_pos rfl]
  | reservedD payload | reservedE payload | reservedF payload =>
    exact decodeCommand_reservedWord (by simp [reservedOperations])
  | w9Lit _ | w9Dict _ | w10Lit _ | w10Dict _ | w11Lit _ | w11Dict _ | w12Lit _ | w12Dict _ => cases h
  | _ => rfl

/-- Settles O2: an operation's fields are read back from its command word; a code word is a literal's exactly below 256,
where a well-formed learned entry is not. -/
theorem decodeOfEncodeIsIdentity : Obligations.DecodeOfEncodeIsIdentity := by
  intro i hwf
  cases i with
  | w9Lit b | w10Lit b | w11Lit b | w12Lit b =>
    simp only [encode, decode, decodeCode9_eq, decodeCode10_eq, decodeCode11_eq, decodeCode12_eq, zeros_append_toNat,
      zeros_append_setWidth, if_pos b.isLt]
  | w9Dict c | w10Dict c | w11Dict c | w12Dict c =>
    have hlearned : ¬ c.toNat < 256 := Nat.not_lt.mpr (of_decide_eq_true hwf)
    simp only [encode, decode, decodeCode9_eq, decodeCode10_eq, decodeCode11_eq, decodeCode12_eq, if_neg hlearned]
  | _ => exact decode_encode_of_operation rfl

/-! ## Encoding a decoded word -/

theorem encode_plain : ∀ oi ∈ plainOperations, encode oi.2 = .command (commandWord oi.1 0 0) := by decide

theorem encode_reserved {op : BitVec 4} {payload : BitVec 16} {i : Instr} (h : (op, i) ∈ reservedOperations payload) :
    encode i = .command (op ++ payload) := by
  simp only [reservedOperations, List.mem_cons, Prod.mk.injEq, List.not_mem_nil, or_false] at h
  rcases h with ⟨rfl, rfl⟩ | ⟨rfl, rfl⟩ | ⟨rfl, rfl⟩ <;> rfl

theorem noOperands_eq_ok {i j : Instr} : noOperands i w = .ok j ↔ w.extractLsb' 0 16 = 0#16 ∧ i = j := by
  by_cases h : w.extractLsb' 0 16 = 0#16 <;> simp [noOperands, h]

/-- A word whose bits 15:8 are zero has width 0 and a byte as its code (R81). -/
theorem byteFields_of_high_zero (h : w.extractLsb' 8 8 = 0#8) :
    w.extractLsb' 12 4 = 0#4 ∧ w.extractLsb' 0 12 = 0#4 ++ w.extractLsb' 0 8 := by
  simp only [← BitVec.toNat_inj, extract_toNat, zeros_append_toNat, BitVec.toNat_ofNat] at h ⊢
  omega

theorem encode_of_decodeCommand {i : Instr} (h : decodeCommand w = .ok i) : encode i = .command w := by
  have heta := commandWord_eta w
  rcases opNumber_cases (w.extractLsb' 0 16) (w.extractLsb' 16 4) with ⟨j, hj⟩ | hop | hop | hop | ⟨j, hj⟩
  · rw [decodeCommand_plain hj, noOperands_eq_ok] at h
    obtain ⟨hzero, rfl⟩ := h
    obtain ⟨hwidth, hcode⟩ := (low16_eq_zero_iff w).mp hzero
    rw [hwidth, hcode] at heta
    exact (encode_plain _ hj).trans (congrArg Encoded.command heta)
  · rw [decodeCommand_pkWrite hop] at h
    cases h
    rw [hop] at heta
    exact congrArg Encoded.command heta
  · rw [decodeCommand_upRead hop] at h
    split at h
    case isTrue hcode =>
      cases h
      rw [hop, hcode] at heta
      exact congrArg Encoded.command heta
    case isFalse => cases h
  · rw [decodeCommand_encByte hop] at h
    split at h
    case isTrue hhigh =>
      cases h
      obtain ⟨hwidth, hcode⟩ := byteFields_of_high_zero hhigh
      rw [hop, hwidth, hcode] at heta
      exact congrArg Encoded.command heta
    case isFalse => cases h
  · rw [decodeCommand_reserved hj] at h
    cases h
    rw [encode_reserved hj, reservedWord_eta]

theorem decode_encodedOfCode (w : CodeWidth) (c : Code) : decode (encodedOfCode w c) = .ok (instrOfCode w c) := by
  cases w <;> rfl

/-- The word of a literal is that of its byte's code; the word of a learned entry is its code (R71). -/
theorem encode_instrOfCode {w : CodeWidth} {c : Code} (hc : c.toNat < 2 ^ w.toNat) :
    encode (instrOfCode w c) = encodedOfCode w c := by
  by_cases hlit : c.toNat < 256
  · have hbyte := congrArg (encodedOfCode w) (Machine.literalCode_of_lt hlit)
    rw [instrOfCode_literal hlit]
    cases w with
    | w9 => exact ((Laws.EncodedForm.w9Lit _).2 _ rfl).trans hbyte
    | w10 => exact ((Laws.EncodedForm.w10Lit _).2 _ rfl).trans hbyte
    | w11 => exact ((Laws.EncodedForm.w11Lit _).2 _ rfl).trans hbyte
    | w12 => exact ((Laws.EncodedForm.w12Lit _).2 _ rfl).trans hbyte
  · rw [instrOfCode_learned (Nat.le_of_not_lt hlit) hc]
    cases w <;> rfl

/-- A code word taken as a code fits its width. -/
theorem setWidth_lt_two_pow {n : Nat} (w : BitVec n) : (w.setWidth 12).toNat < 2 ^ n := by
  rw [BitVec.toNat_setWidth]
  exact (Nat.mod_le _ _).trans_lt w.isLt

/-- A word is a command word, or the word of a code that fits its width (R71). -/
theorem encoded_cases (e : Encoded) :
    (∃ w, e = .command w) ∨ ∃ (w : CodeWidth) (c : Code), c.toNat < 2 ^ w.toNat ∧ e = encodedOfCode w c := by
  cases e with
  | command w => exact .inl ⟨w, rfl⟩
  | code9 w => exact .inr ⟨.w9, w.setWidth 12, setWidth_lt_two_pow w, by simp [encodedOfCode]⟩
  | code10 w => exact .inr ⟨.w10, w.setWidth 12, setWidth_lt_two_pow w, by simp [encodedOfCode]⟩
  | code11 w => exact .inr ⟨.w11, w.setWidth 12, setWidth_lt_two_pow w, by simp [encodedOfCode]⟩
  | code12 w => exact .inr ⟨.w12, w, w.isLt, rfl⟩

/-- Settles O3: a command word is put together again from the fields it was read by, a code word from its code. -/
theorem encodeOfDecodeIsIdentity : Obligations.EncodeOfDecodeIsIdentity := by
  intro e i h
  rcases encoded_cases e with ⟨w, rfl⟩ | ⟨w, c, hc, rfl⟩
  · exact encode_of_decodeCommand h
  · cases (decode_encodedOfCode w c).symm.trans h
    exact encode_instrOfCode hc

/-! ## Unused fields -/

/-- A check that lets `i` pass rejects exactly when it fails. -/
theorem check_rejects {p : Prop} [Decidable p] {i : Instr} {e : DecodeReject} :
    (∃ r, (if p then Except.ok i else .error e) = .error r) ↔ ¬ p := by
  by_cases h : p <;> simp [h]

theorem noOperands_rejects {i : Instr} : (∃ r, noOperands i w = .error r) ↔ w.extractLsb' 0 16 ≠ 0#16 := check_rejects

/-- A field that the operation of the word does not use is non-zero (R81). -/
def UnusedFieldSet (w : CommandWord) : Prop :=
  ((w.extractLsb' 16 4).toNat ∈ [0x0, 0x2, 0x3, 0x5, 0x7, 0x8, 0x9, 0xA, 0xB, 0xC] ∧ w.extractLsb' 0 16 ≠ 0#16) ∨
    ((w.extractLsb' 16 4).toNat = 0x4 ∧ w.extractLsb' 0 12 ≠ 0#12) ∨
    ((w.extractLsb' 16 4).toNat = 0x6 ∧ w.extractLsb' 8 8 ≠ 0#8)

theorem plainOperations_number {op : BitVec 4} {i : Instr} (h : (op, i) ∈ plainOperations) :
    op.toNat ∈ [0x0, 0x2, 0x3, 0x5, 0x7, 0x8, 0x9, 0xA, 0xB, 0xC] :=
  List.mem_map_of_mem (f := fun oi => oi.1.toNat) h

theorem reservedOperations_number {op : BitVec 4} {payload : BitVec 16} {i : Instr}
    (h : (op, i) ∈ reservedOperations payload) : 0xD ≤ op.toNat := by
  simp only [reservedOperations, List.mem_cons, Prod.mk.injEq, List.not_mem_nil, or_false] at h
  rcases h with ⟨rfl, -⟩ | ⟨rfl, -⟩ | ⟨rfl, -⟩ <;> decide

theorem decodeCommand_rejects : (∃ r, decodeCommand w = .error r) ↔ UnusedFieldSet w := by
  unfold UnusedFieldSet
  rcases opNumber_cases (w.extractLsb' 0 16) (w.extractLsb' 16 4) with ⟨j, hj⟩ | hop | hop | hop | ⟨j, hj⟩
  · have hnumber := plainOperations_number hj
    have hother : (w.extractLsb' 16 4).toNat ≠ 0x4 ∧ (w.extractLsb' 16 4).toNat ≠ 0x6 := by
      simp only [List.mem_cons, List.not_mem_nil, or_false] at hnumber
      omega
    rw [decodeCommand_plain hj, noOperands_rejects]
    simp only [hnumber, hother, true_and, false_and, or_false]
  · simp [decodeCommand_pkWrite hop, hop]
  · rw [decodeCommand_upRead hop, check_rejects]
    simp [hop]
  · rw [decodeCommand_encByte hop, check_rejects]
    simp [hop]
  · have hnumber := reservedOperations_number hj
    have hother : (w.extractLsb' 16 4).toNat ∉ [0x0, 0x2, 0x3, 0x5, 0x7, 0x8, 0x9, 0xA, 0xB, 0xC] ∧
        (w.extractLsb' 16 4).toNat ≠ 0x4 ∧ (w.extractLsb' 16 4).toNat ≠ 0x6 := by
      simp only [List.mem_cons, List.not_mem_nil, or_false]
      omega
    simp only [decodeCommand_reserved hj, hother, false_and, or_false, reduceCtorEq, exists_false]

/-- Settles O4: the decoder checks the fields that an operation does not use and nothing else, and the host's act passes
its rejection on. -/
theorem unusedFieldsAreRefused : Obligations.UnusedFieldsAreRefused := by
  intro w s
  refine ⟨decodeCommand_rejects, ?_⟩
  rintro ⟨⟨op⟩, hreject⟩
  simp only [Machine.runEvent, Machine.runCommand, hreject]

/-! ## The code words of a width, and the listed words -/

/-- Settles O5: the encoding is the code's word; below 256 the instruction is the literal of the width, from 256 on the
learned entry. -/
theorem codeWordsSplitIntoLiteralsAndEntries : Obligations.CodeWordsSplitIntoLiteralsAndEntries := by
  intro w c hc
  refine ⟨encode_instrOfCode hc, ?_⟩
  by_cases hlit : c.toNat < 256
  · rw [instrOfCode_literal hlit]
    cases w <;> simp [hlit, Instr.wellFormed, Instr.isCodeWord]
  · rw [instrOfCode_learned (Nat.le_of_not_lt hlit) hc]
    cases w <;> simp only [CodeWidth.toNat] at hc <;>
      simp [hlit, Instr.wellFormed, Instr.isCodeWord, Config.firstCode] <;> omega

/-- Settles O1: twenty-three closed words, each decoded by computation. -/
theorem specWordsDecodeAsListed : Obligations.SpecWordsDecodeAsListed := by
  unfold Obligations.SpecWordsDecodeAsListed
  decide

end Sys2Proof
end

section
/-! Refusals and the code words at the decoder (30_encoding.md R72, R73, R87, R88; 43_lzw_decoder.md R142, R143). -/

namespace Sys2Proof.Machine

/-! ## The packer and the unpacker at a host's hand -/

theorem legalWidth_eq_false {width : BitVec 4} (h : width.toNat = 0 ∨ 12 < width.toNat) : legalWidth width = false := by
  rw [← Bool.not_eq_true, legalWidth_iff]
  omega

theorem execPkWrite_of_legal {width : BitVec 4} (h : legalWidth width = true) (code : Code) (s : State) :
    execPkWrite code width s = hostPk s (pkPutCode s.pk code width.toNat) := if_pos h

theorem execPkWrite_of_illegal {width : BitVec 4} (h : legalWidth width = false) (code : Code) (s : State) :
    execPkWrite code width s = .refused .widthOutOfRange := by
  simp [execPkWrite, h]

theorem execUpRead_of_legal {width : BitVec 4} (h : legalWidth width = true) (s : State) :
    execUpRead width s = hostUp s (upRead s.up width.toNat).2 (readResult (upRead s.up width.toNat).1) := if_pos h

theorem execUpRead_of_illegal {width : BitVec 4} (h : legalWidth width = false) (s : State) :
    execUpRead width s = .refused .widthOutOfRange := by
  simp [execUpRead, h]

/-- Settles O22: a width of 0 or above 12 is not legal, and both operations ask for that before anything else. -/
theorem illegalWidthsAreRefused : Obligations.IllegalWidthsAreRefused := by
  intro s code width hwidth
  have hillegal := legalWidth_eq_false hwidth
  exact ⟨execPkWrite_of_illegal hillegal code s, execUpRead_of_illegal hillegal s⟩

/-- Settles O15: at a legal width the packer takes the bits below it, which are the same; an illegal one is refused for
either code. -/
theorem pkWriteIgnoresHighBits : Obligations.PkWriteIgnoresHighBits := by
  intro s code code' width hbits
  change execPkWrite code width s = execPkWrite code' width s
  cases hlegal : legalWidth width with
  | true => rw [execPkWrite_of_legal hlegal, execPkWrite_of_legal hlegal, pkPutCode_congr _ hbits]
  | false => rw [execPkWrite_of_illegal hlegal, execPkWrite_of_illegal hlegal]

theorem encInProgress_eq_true {s : State} : s.encInProgress = true ↔ s.enc.phase = .run ∧ s.enc.curMatch ≠ [] := by
  simp [State.encInProgress]

theorem decInProgress_eq_true {s : State} : s.decInProgress = true ↔ s.dec.phase = .run ∧ s.dec.prev ≠ none := by
  simp [State.decInProgress]

theorem hostPk_refused {s : State} {p : Pk} :
    hostPk s p = .refused .encStreamInProgress ↔ s.enc.phase = .run ∧ s.enc.curMatch ≠ [] := by
  rw [← encInProgress_eq_true]
  cases h : s.encInProgress <;> simp [hostPk, h]

theorem hostUp_refused {s : State} {u : Up} {r : OpResult} :
    hostUp s u r = .refused .decStreamInProgress ↔ s.dec.phase = .run ∧ s.dec.prev ≠ none := by
  rw [← decInProgress_eq_true]
  cases h : s.decInProgress <;> simp [hostUp, h]

theorem hostPk_completes {s : State} (p : Pk) (h : ¬ (s.enc.phase = .run ∧ s.enc.curMatch ≠ [])) :
    ∃ t, hostPk s p = .next t := by
  rw [← encInProgress_eq_true, Bool.not_eq_true] at h
  exact ⟨_, hostPk_next.mpr ⟨h, rfl⟩⟩

theorem hostUp_completes {s : State} (u : Up) (r : OpResult) (h : ¬ (s.dec.phase = .run ∧ s.dec.prev ≠ none)) :
    ∃ t, hostUp s u r = .next t := by
  rw [← decInProgress_eq_true, Bool.not_eq_true] at h
  exact ⟨_, hostUp_next.mpr ⟨h, rfl⟩⟩

/-- At a legal width a host's packer operation stands behind the gate of R88 (e) alone. -/
theorem exec_eq_hostPk {code : Code} {width : BitVec 4} (hlegal : legalWidth width = true) {i : Instr}
    (hi : i ∈ [Instr.pkStart, .pkWrite code width, .pkFlush]) (s : State) : ∃ p, exec i s = hostPk s p := by
  simp only [List.mem_cons, List.not_mem_nil, or_false] at hi
  rcases hi with rfl | rfl | rfl
  · exact ⟨freshPk s.pk, rfl⟩
  · exact ⟨_, execPkWrite_of_legal hlegal code s⟩
  · exact ⟨pkFlushed s.pk, rfl⟩

/-- At a legal width a host's unpacker operation stands behind the gate of R88 (e) alone. -/
theorem exec_eq_hostUp {width : BitVec 4} (hlegal : legalWidth width = true) {i : Instr}
    (hi : i ∈ [Instr.upStart, .upRead width]) (s : State) : ∃ u r, exec i s = hostUp s u r := by
  simp only [List.mem_cons, List.not_mem_nil, or_false] at hi
  rcases hi with rfl | rfl
  · exact ⟨restartedUp s.up, .none, rfl⟩
  · exact ⟨_, _, execUpRead_of_legal hlegal s⟩

/-- Settles O23: with a legal width the five operations are decided by the gate of the owning coder. -/
theorem directChannelUseIsRefusedInAStream : Obligations.DirectChannelUseIsRefusedInAStream := by
  intro s code width h1 h12
  have hlegal := legalWidth_iff.mpr ⟨h1, h12⟩
  refine ⟨fun i hi => ?_, fun i hi => ?_⟩
  · obtain ⟨p, hgate⟩ := exec_eq_hostPk hlegal hi s
    rw [hgate]
    exact ⟨hostPk_refused, hostPk_completes p⟩
  · obtain ⟨u, r, hgate⟩ := exec_eq_hostUp hlegal hi s
    rw [hgate]
    exact ⟨hostUp_refused, hostUp_completes u r⟩

/-- Settles O25: no reserved operation number has a meaning. -/
theorem reservedOperationsAreRefused : Obligations.ReservedOperationsAreRefused :=
  fun _ _ => ⟨rfl, rfl, rfl⟩

/-! ## Code words at the decoder -/

/-- The instruction of a code, whether the code fits the width or not, is some code word of that width (R71). -/
theorem exec_instrOfCode_eq_receiveCodeWord (w : CodeWidth) (c : Code) :
    ∃ c', ∀ s, exec (instrOfCode w c) s = receiveCodeWord w c' s := by
  cases w with
  | w9 =>
    rw [instrOfCode, decodeCode9]
    split <;> exact ⟨_, fun _ => rfl⟩
  | w10 =>
    rw [instrOfCode, decodeCode10]
    split <;> exact ⟨_, fun _ => rfl⟩
  | w11 =>
    rw [instrOfCode, decodeCode11]
    split <;> exact ⟨_, fun _ => rfl⟩
  | w12 =>
    rw [instrOfCode, decodeCode12]
    split <;> exact ⟨_, fun _ => rfl⟩

theorem receiveCodeWord_of_width_ne {w : CodeWidth} {s : State} (h : s.dec.width ≠ w) (c : Code) :
    receiveCodeWord w c s = .refused .codeWordWidth := if_neg h

theorem receiveCodeWord_of_width {w : CodeWidth} {s : State} (h : s.dec.width = w) (c : Code) :
    receiveCodeWord w c s = requireDecRun s (decReceive c s) := if_pos h

/-- Settles O43: the width is asked for first, then the phase, and the code plays no part. -/
theorem unexpectedCodeWordsAreRefused : Obligations.UnexpectedCodeWordsAreRefused := by
  intro s w c
  obtain ⟨c', hexec⟩ := exec_instrOfCode_eq_receiveCodeWord w c
  rw [hexec]
  refine ⟨fun hwidth => receiveCodeWord_of_width_ne hwidth c', fun hwidth hstop => ?_⟩
  rw [receiveCodeWord_of_width hwidth]
  exact requireDecRun_of_ne_run hstop _

theorem decLearn_out (d : Dec) (p e : ByteSeq) : (decLearn d p e).out = { d.out with data := d.out.data ++ e } :=
  sinkAppendAll_eq d.out e

theorem decLearn_prev (d : Dec) (p e : ByteSeq) : (decLearn d p e).prev = some e := rfl

/-- The sequence a code resolves to is not empty, and a literal resolves to its byte (10_state.md R37). -/
theorem decResolve_sequence {d : Dec} (h : DecInv d) {p e : ByteSeq} {c : Code} (hresolve : decResolve d p c = some e) :
    e ≠ [] ∧ (c.toNat < 256 → e = [c.setWidth 8]) := by
  obtain ⟨hnext, -⟩ := h.next_le
  rcases decResolve_cases d p c with ⟨hpresent, heq⟩ | ⟨hnew, heq⟩ | ⟨-, heq⟩ <;> rw [hresolve] at heq <;> cases heq
  · exact ⟨seqOf?_ne_nil h.dict_wf h.ext (h.present hpresent), fun hlit => seqOf_of_some (seqOf?_literal _ hlit)⟩
  · exact ⟨List.concat_ne_nil _ _, fun hlit => by omega⟩

/-- A literal, or from the second code on any code up to `next_code`, is accepted: a sequence that is not empty, and the
byte itself for a literal, is emitted and remembered (R73, 43_lzw_decoder.md R142, R143). -/
theorem decReceive_accepts {s : State} (h : DecInv s.dec) {c : Code} (hc : c.toNat ≤ s.dec.nextCode)
    (hfirst : c.toNat < 256 ∨ s.dec.prev ≠ none) :
    ∃ e, e ≠ [] ∧ (c.toNat < 256 → e = [c.setWidth 8]) ∧ (decReceive c s).result = .continue ∧
      (decReceive c s).dec.out.data = s.dec.out.data ++ e ∧ (decReceive c s).dec.prev = some e := by
  rcases decReceive_cases c s with ⟨-, hlit, heq⟩ | ⟨p, e, hp, hresolve, heq⟩ | ⟨⟨hundef, hlearned⟩ | ⟨p, -, hlarge⟩, -⟩
  · rw [heq]
    exact ⟨[c.setWidth 8], List.cons_ne_nil _ _, fun _ => rfl, rfl, rfl, rfl⟩
  · rw [heq]
    obtain ⟨hne, hbyte⟩ := decResolve_sequence h hresolve
    refine ⟨e, hne, hbyte, rfl, ?_, decLearn_prev _ _ _⟩
    simp only [setResult_dec, setDec_dec, decLearn_out]
  · rcases hfirst with hlit | hdefined
    · omega
    · exact absurd hundef hdefined
  · omega

/-- The four literal rows are the code words of the byte's code. -/
theorem exec_literal_row {w : CodeWidth} {b : Byte} {i : Instr}
    (hi : (w, i) ∈ [(CodeWidth.w9, Instr.w9Lit b), (.w10, .w10Lit b), (.w11, .w11Lit b), (.w12, .w12Lit b)])
    (s : State) : exec i s = receiveCodeWord w (literalCode b) s := by
  simp only [List.mem_cons, Prod.mk.injEq, List.not_mem_nil, or_false] at hi
  rcases hi with ⟨rfl, rfl⟩ | ⟨rfl, rfl⟩ | ⟨rfl, rfl⟩ | ⟨rfl, rfl⟩ <;> rfl

/-- The four rows of learned entries are the code words of their codes. -/
theorem exec_learned_row {w : CodeWidth} {c : Code} {i : Instr}
    (hi : (w, i) ∈ [(CodeWidth.w9, Instr.w9Dict (c.setWidth 9)), (.w10, .w10Dict (c.setWidth 10)),
      (.w11, .w11Dict (c.setWidth 11)), (.w12, .w12Dict c)])
    (hlearned : 256 ≤ c.toNat) (hc : c.toNat < 2 ^ w.toNat) (s : State) : exec i s = receiveCodeWord w c s := by
  rw [← exec_instrOfCode hc s, instrOfCode_learned hlearned hc]
  simp only [List.mem_cons, Prod.mk.injEq, List.not_mem_nil, or_false] at hi
  rcases hi with ⟨rfl, rfl⟩ | ⟨rfl, rfl⟩ | ⟨rfl, rfl⟩ | ⟨rfl, rfl⟩ <;> rfl

/-- Settles O41: each row is the receipt of its code at its width, which the decoder accepts. -/
theorem everyCodeWordRowCompletes : Obligations.EveryCodeWordRowCompletes := by
  intro s hinv hrun
  refine ⟨fun w b i hi hwidth => ?_, fun w c i hi hwidth hc hlearned hnext hdefined => ?_⟩
  · have hbyte : (literalCode b).toNat < 256 := literalCode_toNat b ▸ b.isLt
    obtain ⟨e, -, hlit, hresult, hout, hprev⟩ :=
      decReceive_accepts hinv (hbyte.le.trans hinv.next_le.1) (.inl hbyte)
    rw [hlit hbyte, literalCode_setWidth] at hout hprev
    exact ⟨_, (exec_literal_row hi s).trans (receiveCodeWord_next.mpr ⟨hwidth, hrun, rfl⟩), hresult, hout, hprev⟩
  · obtain ⟨e, hne, -, hresult, hout, hprev⟩ := decReceive_accepts hinv hnext (.inr hdefined)
    obtain ⟨b, e', rfl⟩ := List.exists_cons_of_ne_nil hne
    exact ⟨_, b, e', (exec_learned_row hi hlearned hc s).trans (receiveCodeWord_next.mpr ⟨hwidth, hrun, rfl⟩), hresult,
      hout, hprev⟩

end Sys2Proof.Machine
end

section
/-! `DEC.STEP` is the fetch of a code word and its execution (log 5), so a code word that is placed in the source is what
the next step runs (logs 6, 7; 30_encoding.md R71, R72, 10_state.md R22). -/

namespace Sys2Proof.Machine

/-! ## `DEC.STEP` as the fetch of a code word -/

/-- A `DEC.STEP` that reads a code runs its code word on the state after the read. -/
theorem exec_decStep_of_code {s : State} {c : Code} {u : Up} (hrun : s.dec.phase = .run) (hu : UpInv s.up)
    (hread : upRead s.up s.dec.width.toNat = (some c, u)) :
    c.toNat < 2 ^ s.dec.width.toNat ∧ exec .decStep s = exec (instrOfCode s.dec.width c) (s.setUp u) := by
  obtain ⟨h9, h12⟩ := codeWidth_range s.dec.width
  have hc := upRead_fits hu (by omega) h12 hread
  refine ⟨hc, ?_⟩
  calc exec .decStep s = .next (decStepRun s) := requireDecRun_next.mpr ⟨hrun, rfl⟩
    _ = .next (decReceive c (s.setUp u)) := by simp only [decStepRun, hread]
    _ = receiveCodeWord s.dec.width c (s.setUp u) := (receiveCodeWord_run (s := s.setUp u) c hrun).symm
    _ = exec (instrOfCode s.dec.width c) (s.setUp u) := (exec_instrOfCode hc _).symm

/-- Settles O9: a code that is read fits its width, so receiving it is running its code word; at end-of-stream there is
nothing to run. -/
theorem decStepFetchesAndRunsACodeWord : Obligations.DecStepFetchesAndRunsACodeWord := by
  intro s hrun
  refine ⟨fun c u hread hu => exec_decStep_of_code hrun hu hread, fun u hread => ?_⟩
  refine requireDecRun_next.mpr ⟨hrun, ?_⟩
  simp only [decStepRun, hread, setUp_dec]

/-! ## One code word in the source -/

/-- The unpacker at the beginning of the bytes that the packer makes of one code word (log 7). -/
def codeWordUp (p : Pk) (w : CodeWidth) (c : Code) : Up :=
  { buf := 0#8, left := 0, eos := false,
    src := attachedSource (pkFlushed (pkPutCode (freshPk p) c w.toNat)).out.data, fed := false }

theorem codeWordUp_inv (p : Pk) (w : CodeWidth) (c : Code) : UpInv (codeWordUp p w c) :=
  upInv_restarted (codeWordUp p w c)

/-- It can deliver the bits of the code, then the pad up to the second whole byte. -/
theorem upBits_codeWordUp (p : Pk) (w : CodeWidth) (c : Code) :
    upBits (codeWordUp p w c) = codeBits c w.toNat ++ List.replicate (16 - w.toNat) false := by
  have hpad : (8 - w.toNat % 8) % 8 = 16 - w.toNat := by cases w <;> decide
  calc upBits (codeWordUp p w c)
      = streamBits (pkFlushed (pkPutAll (freshPk p) [(c, w)])).out.data := upBits_restarted (codeWordUp p w c)
    _ = codeBits c w.toNat ++ List.replicate (16 - w.toNat) false := by
        rw [streamBits_pkFlushed_pkPutAll]
        simp [hpad]

theorem codeWordUp_bytes (p : Pk) (w : CodeWidth) (c : Code) : (codeWordUp p w c).src.data.length = 2 := by
  have hlen := congrArg List.length (upBits_codeWordUp p w c)
  have h12 := (codeWidth_range w).2
  rw [upBits_length (codeWordUp_inv p w c).mid.left_le, List.length_append, codeBits_length,
    List.length_replicate] at hlen
  simp only [upBitsAvailable, codeWordUp, attachedSource] at hlen ⊢
  omega

/-- Reading it gives the code, pulls both bytes and leaves the rest of the second. -/
theorem upRead_codeWordUp (p : Pk) {w : CodeWidth} {c : Code} (hc : c.toNat < 2 ^ w.toNat) :
    ∃ u, upRead (codeWordUp p w c) w.toNat = (some c, u) ∧ u.left = 16 - w.toNat ∧ u.eos = false ∧ u.src.pos = 2 := by
  obtain ⟨h9, h12⟩ := codeWidth_range w
  have hbits := upBits_codeWordUp p w c
  obtain ⟨c', u, hread, hvalue, hrest, hu, heos, hdata⟩ :=
    upRead_some (codeWordUp_inv p w c) rfl (by omega) h12 (by simp [hbits])
  have hcode : c' = c := by
    refine BitVec.eq_of_toNat_eq ?_
    rw [hvalue, hbits, List.take_left' (codeBits_length _ _), bitsValue_codeBits_of_lt hc]
  have havailable : upBitsAvailable u = 16 - w.toNat := by
    rw [← upBits_length hu.mid.left_le, hrest, hbits, List.drop_left' (codeBits_length _ _), List.length_replicate]
  have hpos := hu.pos_le
  rw [upBitsAvailable, hdata, codeWordUp_bytes] at havailable
  rw [hdata, codeWordUp_bytes] at hpos
  exact ⟨u, hcode ▸ hread, by omega, heos, by omega⟩

/-! ## The placed word -/

theorem step_placeCommand {s : State} {w : CommandWord} {i : Instr} (h : decodeCommand w = .ok i) :
    step (placeCommand s w) = exec i s :=
  calc step (placeCommand s w) = runCommand w s := step_of_events_cons (s := placeCommand s w) rfl
    _ = exec i s := runCommand_of_decodeCommand_ok h s

theorem placeCodeWord_eq (s : State) (w : CodeWidth) (c : Code) :
    placeCodeWord s w c =
      placeCommand ((s.setUp (codeWordUp s.pk w c)).setDec { s.dec with width := w }) (commandWord 0xA 0 0) := rfl

/-- The placed `DEC.STEP` reads the placed code word and runs it. -/
theorem step_placeCodeWord {s : State} {w : CodeWidth} {c : Code} (hrun : s.dec.phase = .run)
    (hc : c.toNat < 2 ^ w.toNat) :
    ∃ u : Up, u.left = 16 - w.toNat ∧ u.eos = false ∧ u.src.pos = 2 ∧
      step (placeCodeWord s w c) = exec (instrOfCode w c) ((s.setUp u).setDec { s.dec with width := w }) := by
  obtain ⟨u, hread, hleft, heos, hpos⟩ := upRead_codeWordUp s.pk hc
  obtain ⟨-, hexec⟩ :=
    exec_decStep_of_code (s := (s.setUp (codeWordUp s.pk w c)).setDec { s.dec with width := w }) hrun
      (codeWordUp_inv s.pk w c) hread
  refine ⟨u, hleft, heos, hpos, ?_⟩
  rw [placeCodeWord_eq, step_placeCommand (i := .decStep) (by decide)]
  exact hexec

theorem decodeTableWord_eq_some {nbits w : Nat} {i : Instr} :
    decodeTableWord nbits w = some i ↔ ∃ e, tableWord nbits w = some e ∧ decode e = .ok i := by
  cases ht : tableWord nbits w with
  | none => simp [decodeTableWord, ht]
  | some e => cases hd : decode e <;> simp [decodeTableWord, ht, hd]

theorem isCodeWord_of_decodeCommand {w : CommandWord} {i : Instr} (h : decodeCommand w = .ok i) :
    i.isCodeWord = false := by
  have henc := encode_of_decodeCommand h
  cases i with
  | w9Lit _ | w9Dict _ | w10Lit _ | w10Dict _ | w11Lit _ | w11Dict _ | w12Lit _ | w12Dict _ => cases henc
  | _ => rfl

/-- A code that fits its width is placed as itself. -/
theorem placeWord_encodedOfCode {w : CodeWidth} {c : Code} (hc : c.toNat < 2 ^ w.toNat) (s : State) :
    placeWord s (encodedOfCode w c) = placeCodeWord s w c := by
  have hback : (c.setWidth w.toNat).setWidth 12 = c := by
    refine BitVec.eq_of_toNat_eq ?_
    rw [BitVec.toNat_setWidth, BitVec.toNat_setWidth, Nat.mod_eq_of_lt hc, Nat.mod_eq_of_lt c.isLt]
  have hplace := congrArg (placeCodeWord s w) hback
  cases w with
  | w9 | w10 | w11 => exact hplace
  | w12 => rfl

/-- Settles O8: a placed command word is the oldest act of the host; a placed code word is what the placed `DEC.STEP`
reads. -/
theorem stepRunsThePlacedWord : Obligations.StepRunsThePlacedWord := by
  intro s nbits w i h
  obtain ⟨e, htable, hdecode⟩ := decodeTableWord_eq_some.mp h
  have hplaced : s.withFetchWord nbits w = placeWord s e := by simp only [State.withFetchWord, htable]
  rw [hplaced]
  rcases encoded_cases e with ⟨v, rfl⟩ | ⟨width, c, hc, rfl⟩
  · have hoperation := isCodeWord_of_decodeCommand hdecode
    exact ⟨fun _ => step_placeCommand hdecode, fun hword => absurd hword (by simp [hoperation])⟩
  · cases (decode_encodedOfCode width c).symm.trans hdecode
    obtain ⟨-, -, hword, -⟩ := codeWordsSplitIntoLiteralsAndEntries width c hc
    rw [placeWord_encodedOfCode hc]
    refine ⟨fun hoperation => absurd hword (by simp [hoperation]), fun _ hrun => ?_⟩
    obtain ⟨u, hleft, heos, hpos, hstep⟩ := step_placeCodeWord hrun hc
    exact ⟨u, width, hleft, heos, hpos, hstep⟩

end Sys2Proof.Machine
end

section
/-! The packer at a host's hand (40_bit_packer.md R100 to R102): with no compression in progress the gate of R88 (e) is
open, and the next state is the old one with the packer of the shared operation, whose laws are in Laws/Packer.lean. -/

namespace Sys2Proof.Machine

theorem hostPk_of_not_inProgress {s : State} (h : s.encInProgress = false) (p : Pk) :
    hostPk s p = .next ((s.setPk p).setResult .none) := hostPk_next.mpr ⟨h, rfl⟩

/-- With no bit pending a flush does nothing at all (R102). -/
theorem pkFlushed_of_cnt_zero {p : Pk} (h : p.cnt = 0) : pkFlushed p = p := by simp [pkFlushed, h]

/-- Settles O14: the gates are open, and the packer is the one after the loop over the low bits of the code. -/
theorem pkWriteAcceptsTheLowBits : Obligations.PkWriteAcceptsTheLowBits := by
  intro s code width hinv hidle h1 h12
  have hexec : exec (.pkWrite code width) s =
      .next ((s.setPk (pkPutCode s.pk code width.toNat)).setResult .none) :=
    (execPkWrite_of_legal (legalWidth_iff.mpr ⟨h1, h12⟩) code s).trans (hostPk_of_not_inProgress hidle _)
  obtain ⟨hinv', hbits, -, -⟩ := pkPutCode_spec s.pk code width.toNat hinv
  obtain ⟨hcnt, hlength⟩ := pkPutCode_counts s.pk code width.toNat hinv
  obtain ⟨hprefix, htaken, hbacklog⟩ := sinkAppended_pkPutCode s.pk code width.toNat
  exact ⟨_, hexec, hbits, hcnt, hinv'.acc_lt, hlength, hprefix, htaken, hbacklog, rfl⟩

/-- Settles O16: the gate is open, and the packer is the flushed one, which is the old one when no bit is pending. -/
theorem pkFlushPadsTheLastByte : Obligations.PkFlushPadsTheLastByte := by
  refine ⟨by decide, fun s hinv hidle => ?_⟩
  obtain ⟨-, hcnt, hacc, hbits, -, -⟩ := pkFlushed_spec s.pk hinv
  obtain ⟨htaken, hbacklog⟩ := pkFlushed_port s.pk
  exact ⟨_, hostPk_of_not_inProgress hidle (pkFlushed s.pk), hbits, hcnt, hacc, htaken, hbacklog,
    pkFlushed_of_cnt_zero, rfl⟩

/-- Settles O13: the gate is open, and the packer is the fresh one. -/
theorem pkStartGivesAnEmptyPacker : Obligations.PkStartGivesAnEmptyPacker :=
  ⟨by decide, fun s hidle => ⟨_, hostPk_of_not_inProgress hidle (freshPk s.pk), rfl, rfl, rfl, rfl⟩⟩

end Sys2Proof.Machine
end

section
/-! A compressed stream cut short (41_bit_unpacker.md R114; 43_lzw_decoder.md R150, R151). What is kept of the bytes
delivers a beginning of the bits of the stream, which are the encoder's code words and the pad; a fresh decoder takes
those code words to the data, and the bits that no longer make a whole code word end the stream. -/

namespace Sys2Proof.Machine

/-- A fresh decoder takes all the codes of a stream from `ENC.START` on, and its output is the data (R150). -/
theorem decTakesAll_encStreamCodes (d : Dec) (e : Enc) (data : ByteSeq) :
    ∃ d', decTakesAll (freshDec d) (encStreamCodes (restartedEnc e) data) = some d' ∧ d'.out.data = data := by
  have he : EncInv { restartedEnc e with src := attachedSource [] } :=
    encInv_restarted { e with src := attachedSource [] } (Nat.zero_le _)
  obtain ⟨d', htakes, hout⟩ := (lag_fresh _ _ rfl rfl).takesAll he (decInv_fresh d) data
  rw [encStreamCodes_src] at htakes
  exact ⟨d', htakes, hout⟩

theorem encStreamCodes_restarted_fits (e : Enc) (data : ByteSeq) :
    ∀ cw ∈ encStreamCodes (restartedEnc e) data, cw.1.toNat < 2 ^ cw.2.toNat := by
  intro cw hmem
  obtain ⟨k, hk⟩ := List.mem_iff_getElem?.mp hmem
  exact (encStreamCodes_restarted_schedule e data hk).2

/-- The bits that `COMPRESS` leaves in its sink: the code words of its source, and a pad of less than a byte (R58). -/
theorem streamBits_of_compress {s t : State} (h : exec .compress s = .next t) :
    ∃ pad < 8, streamBits t.pk.out.data =
      codeWordsBits (encStreamCodes (restartedEnc s.enc) (sourceRest s.enc.src)) ++ List.replicate pad false := by
  obtain ⟨t', ht', -, hpk, -⟩ := execCompress_spec s
  cases ht'.symm.trans h
  rw [hpk]
  exact ⟨_, Nat.mod_lt _ (by decide), streamBits_pkFlushed_pkPutAll s.pk _⟩

/-- `DECOMPRESS` of an attached source that holds the bits of a stream, or the first of them, ends with `DONE` and the
data, or the beginning of it (R150, R151). -/
theorem decompress_of_streamBits_prefix {s : State} (hfed : s.up.fed = false) (e : Enc) (data : ByteSeq) {pad : Nat}
    (hpad : pad < 8)
    (hbits : streamBits s.up.src.data <+:
      codeWordsBits (encStreamCodes (restartedEnc e) data) ++ List.replicate pad false) :
    ∃ q, exec .decompress s = .next q ∧ q.result = .done ∧ q.dec.phase = .done ∧ q.dec.out.data <+: data ∧
      (streamBits s.up.src.data = codeWordsBits (encStreamCodes (restartedEnc e) data) ++ List.replicate pad false →
        q.dec.out.data = data) := by
  obtain ⟨d', htakes, hout⟩ := decTakesAll_encStreamCodes s.dec e data
  have hup : upBits (startDec s).up = streamBits s.up.src.data := by
    simp only [startDec, setResult_up, setUp_up, upBits_restarted, hfed, Bool.false_eq_true, if_false]
  rw [← hup] at hbits ⊢
  have hloop := decompressLoop_codes _ pad hpad _ (startDec s) (upInv_restarted s.up) rfl (decInv_fresh s.dec) rfl
    (encStreamCodes_restarted_fits e data) htakes (Nat.lt_succ_self _) hbits
  rw [hout] at hloop
  exact hloop

/-- Settles O50: a cut of the bytes is a cut of the bits, and the decoder ends where the bits do. -/
theorem truncatedStreamDecodesToAPrefix : Obligations.TruncatedStreamDecodesToAPrefix := by
  intro s t u data n hattach hcompress
  cases hattach
  obtain ⟨pad, hpad, hstream⟩ := streamBits_of_compress hcompress
  have hcut : streamBits (t.pk.out.data.take n) <+: streamBits t.pk.out.data := by
    obtain ⟨rest, hrest⟩ := List.take_prefix n t.pk.out.data
    exact ⟨streamBits rest, by rw [← streamBits_append, hrest]⟩
  refine ⟨_, rfl, ?_⟩
  obtain ⟨q, hexec, hdone, -, hprefix, -⟩ :=
    decompress_of_streamBits_prefix (s := t.setUp { t.up with src := attachedSource (t.pk.out.data.take n), fed := false })
      rfl _ data hpad (hstream ▸ hcut)
  exact ⟨q, hexec, hdone, hprefix⟩

end Sys2Proof.Machine
end

section
/-! The unpacker at a host's hand (41_bit_unpacker.md R110, R111; 30_encoding.md R76): with no decompression in progress
the gate of R88 (e) is open, and the next state is the old one with the unpacker of the shared operation, whose laws are
in Laws/Unpacker.lean, and the result of the read. -/

namespace Sys2Proof.Machine

theorem hostUp_of_not_inProgress {s : State} (h : s.decInProgress = false) (u : Up) (r : OpResult) :
    hostUp s u r = .next ((s.setUp u).setResult r) := hostUp_next.mpr ⟨h, rfl⟩

/-- Settles O18: the gate is open, and the unpacker is the restarted one. -/
theorem upStartBeginsAtTheFirstByte : Obligations.UpStartBeginsAtTheFirstByte :=
  ⟨by decide, fun s hidle =>
    ⟨_, hostUp_of_not_inProgress hidle (restartedUp s.up) .none, rfl, rfl, rfl, rfl, rfl, rfl, rfl⟩⟩

/-- Between operations less than a byte is in the buffer, so `w` bits fewer to deliver means that just the bytes needed
for the bits past the buffer have been pulled (R111). -/
theorem pos_of_upBits_drop {u u' : Up} {w : Nat} (h : UpInv u) (h' : UpInv u') (hdata : u'.src.data = u.src.data)
    (hw : w ≤ (upBits u).length) (hdrop : upBits u' = (upBits u).drop w) :
    u'.src.pos = u.src.pos + (w - u.left + 7) / 8 := by
  have hlen := congrArg List.length hdrop
  rw [List.length_drop, upBits_length h'.mid.left_le, upBits_length h.mid.left_le] at hlen
  rw [upBits_length h.mid.left_le] at hw
  rw [upBitsAvailable, upBitsAvailable, hdata] at hlen
  rw [upBitsAvailable] at hw
  have hleft := h.left_le
  have hleft' := h'.left_le
  have hpos := h.pos_le
  have hpos' := hdata ▸ h'.pos_le
  omega

/-- With no bit to deliver the source has been read to its end. -/
theorem pos_of_upBits_nil {u : Up} (h : UpInv u) (hnil : upBits u = []) : u.src.pos = u.src.data.length := by
  have hlen := congrArg List.length hnil
  rw [upBits_length h.mid.left_le, upBitsAvailable, List.length_nil] at hlen
  have hpos := h.pos_le
  omega

/-- A host's read that is accepted puts the unpacker and the result of `UP.READ` into the state, and nothing else. -/
theorem exec_upRead_of_upRead {s : State} {width : BitVec 4} {o : Option Code} {u : Up}
    (hidle : s.decInProgress = false) (h1 : 1 ≤ width.toNat) (h12 : width.toNat ≤ 12)
    (hread : upRead s.up width.toNat = (o, u)) :
    exec (.upRead width) s = .next ((s.setUp u).setResult (readResult o)) :=
  calc exec (.upRead width) s
      = hostUp s (upRead s.up width.toNat).2 (readResult (upRead s.up width.toNat).1) :=
        execUpRead_of_legal (legalWidth_iff.mpr ⟨h1, h12⟩) s
    _ = hostUp s u (readResult o) := by rw [hread]
    _ = .next ((s.setUp u).setResult (readResult o)) := hostUp_of_not_inProgress hidle u _

/-- Settles O19: with enough bits the loop gathers the next ones, with too few it runs into the end of the source; how
far the position has moved follows from how many bits are left. -/
theorem upReadReturnsTheNextBits : Obligations.UpReadReturnsTheNextBits := by
  intro s width hinv heos hidle h1 h12
  have hfed := upRead_fed s.up width.toNat
  by_cases henough : width.toNat ≤ (upBits s.up).length
  · obtain ⟨c, u, hread, hvalue, hdrop, hinv', heos', hdata⟩ := upRead_some hinv heos h1 h12 henough
    rw [hread] at hfed
    exact ⟨_, exec_upRead_of_upRead hidle h1 h12 hread, rfl, hdata, hfed, hinv',
      fun _ => ⟨⟨c, rfl, hvalue⟩, hdrop, heos', pos_of_upBits_drop hinv hinv' hdata henough hdrop⟩,
      fun hfew => absurd henough (Nat.not_le.mpr hfew)⟩
  · obtain ⟨u, hread, hnil, hinv', hleft, heos', hdata⟩ := upRead_none hinv heos (Nat.not_le.mp henough)
    rw [hread] at hfed
    exact ⟨_, exec_upRead_of_upRead hidle h1 h12 hread, rfl, hdata, hfed, hinv',
      fun hmany => absurd hmany henough,
      fun _ => ⟨rfl, heos', hleft, hnil, (pos_of_upBits_nil hinv' hnil).trans (congrArg List.length hdata)⟩⟩

end Sys2Proof.Machine
end

section
/-! The encoder at a host's hand (42_lzw_encoder.md R121 to R129). In phase `RUN` the gate of R88 (d) is open, and what
`ENC.BYTE` does is one of the cases of `encAccept_cases`. `COMPRESS` is read off the laws of Laws/Run.lean: its loop is
a run of `ENC.BYTE`s, and its bytes are determined by its code words. -/

namespace Sys2Proof.Machine

/-! ## `ENC.START` -/

/-- With nothing learned the only keys are the 256 single bytes. -/
theorem codeOf?_nil_of_length_ne_one {k : ByteSeq} (h : k.length ≠ 1) : Dict.codeOf? [] k = none := by
  match k with
  | [] | _ :: _ :: _ => rfl
  | [_] => exact absurd rfl h

/-- Settles O26: `ENC.START` has no gate, and its dictionary has no learned entry. -/
theorem encStartBeginsAFreshStream : Obligations.EncStartBeginsAFreshStream :=
  ⟨by decide, fun s => ⟨startEnc s, rfl, fun _ => rfl, fun _ => codeOf?_nil_of_length_ne_one, rfl, rfl, rfl, rfl, rfl,
    rfl, rfl, rfl, rfl⟩⟩

/-! ## `ENC.BYTE` -/

/-- In phase `RUN` `ENC.BYTE` puts into the state the encoder that accepted the byte, and the packer that took what it
wrote. -/
theorem exec_encByte_of_encAccept {s : State} {b : Byte} {e : Enc} {o : Option (Code × CodeWidth)}
    (hrun : s.enc.phase = .run) (h : encAccept s.enc b = (e, o)) :
    exec (.encByte b) s = .next (((s.setEnc e).setPk (pkPutEmitted s.pk o)).setResult .none) := by
  refine requireEncRun_next.mpr ⟨hrun, ?_⟩
  rw [encByteRun, h]

theorem encAccept_seeds {e : Enc} (hm : e.curMatch = []) (b : Byte) :
    encAccept e b = ({ e with curMatch := [b] }, none) := by simp [encAccept, hm]

theorem encAccept_extends {e : Enc} {b : Byte} (hm : e.curMatch ≠ [])
    (hk : e.dict.isKey (e.curMatch ++ [b]) = true) :
    encAccept e b = ({ e with curMatch := e.curMatch ++ [b] }, none) := by simp [encAccept, hm, hk]

theorem encAccept_emits {e : Enc} {b : Byte} (hm : e.curMatch ≠ [])
    (hk : e.dict.isKey (e.curMatch ++ [b]) = false) :
    encAccept e b = ({ encLearn e (e.curMatch ++ [b]) with curMatch := [b] }, some (encEmitted e)) := by
  simp [encAccept, hm, hk]

/-- Settles O27: with an empty match the byte is the match and nothing is written. -/
theorem encByteSeedsTheMatch : Obligations.EncByteSeedsTheMatch :=
  ⟨fun b => decode_encode_of_operation (i := .encByte b) rfl,
    fun _ b hrun hm => exec_encByte_of_encAccept hrun (encAccept_seeds hm b)⟩

/-- R123 (ii), (iii) in the form of the statement: below capacity the candidate is appended and the width promoted on the
incremented count, at capacity nothing is learned. -/
theorem encLearn_registers (e : Enc) (cand : ByteSeq) :
    (e.nextCode < 4096 →
      (encLearn e cand).dict = e.dict ++ [(codeOfCount e.nextCode, cand)] ∧
      (encLearn e cand).nextCode = e.nextCode + 1 ∧
      (encLearn e cand).width = nextWidth e.width (e.nextCode + 1) 12) ∧
    (e.nextCode = 4096 →
      (encLearn e cand).dict = e.dict ∧ (encLearn e cand).nextCode = e.nextCode ∧ (encLearn e cand).width = e.width) := by
  refine ⟨fun hlt => ?_, fun hfull => ?_⟩
  · rw [encLearn_lt cand hlt]
    exact ⟨rfl, rfl, rfl⟩
  · rw [encLearn_ge cand hfull.ge]
    exact ⟨rfl, rfl, rfl⟩

/-- `encLearn` leaves the phase and the source alone. -/
theorem encLearn_frame (e : Enc) (cand : ByteSeq) :
    (encLearn e cand).phase = e.phase ∧ (encLearn e cand).src = e.src := by
  by_cases hlt : e.nextCode < 4096
  · rw [encLearn_lt cand hlt]
    exact ⟨rfl, rfl⟩
  · rw [encLearn_ge cand (Nat.not_lt.mp hlt)]
    exact ⟨rfl, rfl⟩

/-- Settles O28: the two cases of a byte after a match; a match of a good encoder is a key, so it has a code. -/
theorem encByteExtendsOrEmits : Obligations.EncByteExtendsOrEmits := by
  intro s b hpk henc hrun hm
  refine ⟨fun hkey => exec_encByte_of_encAccept hrun (encAccept_extends hm hkey), fun hnokey => ?_⟩
  obtain ⟨hinv, hbits, -, -⟩ := pkPutCode_spec s.pk (s.enc.dict.codeOf s.enc.curMatch) s.enc.width.toNat hpk
  obtain ⟨htaken, hbacklog⟩ := pkPutCode_port s.pk (s.enc.dict.codeOf s.enc.curMatch) s.enc.width.toNat
  obtain ⟨hbelow, hfull⟩ := encLearn_registers s.enc (s.enc.curMatch ++ [b])
  obtain ⟨hphase, hsrc⟩ := encLearn_frame s.enc (s.enc.curMatch ++ [b])
  exact ⟨_, _, exec_encByte_of_encAccept hrun (encAccept_emits hm hnokey), codeOf?_of_isKey (henc.match_isKey hm),
    hbits, hinv, htaken, hbacklog, hbelow, hfull, rfl, hphase, hsrc, rfl⟩

/-- At capacity a byte changes the match alone (R129). -/
theorem encAccept_of_full {e : Enc} (h : e.nextCode = 4096) (b : Byte) :
    ∃ m o, encAccept e b = ({ e with curMatch := m }, o) := by
  rcases encAccept_cases e b with ⟨-, heq⟩ | ⟨-, -, heq⟩ | ⟨-, -, heq⟩
  · exact ⟨_, _, heq⟩
  · exact ⟨_, _, heq⟩
  · rw [encLearn_ge _ h.ge] at heq
    exact ⟨_, _, heq⟩

/-- Settles O33: at capacity a byte changes the match alone. -/
theorem encoderDictionaryFreezesAtCapacity : Obligations.EncoderDictionaryFreezesAtCapacity := by
  intro s b hfull hrun
  obtain ⟨m, o, haccept⟩ := encAccept_of_full hfull b
  exact ⟨_, exec_encByte_of_encAccept hrun haccept, rfl, hfull, rfl⟩

/-! ## `ENC.END` and `ENC.ABORT` -/

/-- `ENC.END` writes the code words of a stream with no byte to come, and flushes. -/
theorem encEndRun_eq (s : State) :
    encEndRun s =
      (s.setPk (pkFlushed (pkPutAll s.pk (encStreamCodes s.enc [])))).setEnc { s.enc with phase := .done } := by
  by_cases hm : s.enc.curMatch = [] <;> simp [encEndRun, encStreamCodes, encAcceptAll, hm, pkPutEmitted_eq, pkPutAll]

theorem encStreamCodes_nil_of_match_nil {e : Enc} (hm : e.curMatch = []) : encStreamCodes e [] = [] :=
  (encStreamCodes_eq_nil_iff hm []).mpr rfl

theorem encStreamCodes_nil_of_match_ne {e : Enc} (hm : e.curMatch ≠ []) : encStreamCodes e [] = [encEmitted e] := by
  simp [encStreamCodes, encAcceptAll, hm]

/-- A flush after some code words completes the last byte: what is pending is what the accepted bits leave over of whole
bytes (R102, R104). -/
theorem streamBits_pkFlushed_pkPutAll_of_pkInv {p : Pk} (h : PkInv p) (cs : List (Code × CodeWidth)) :
    streamBits (pkFlushed (pkPutAll p cs)).out.data =
      pkBits p ++ codeWordsBits cs ++
        List.replicate ((8 - (p.cnt + (codeWordsBits cs).length) % 8) % 8) false := by
  obtain ⟨hinv, hbits⟩ := pkPutAll_spec p cs h
  obtain ⟨-, -, -, hflush, -⟩ := pkFlushed_spec _ hinv
  have hcnt : (pkPutAll p cs).cnt = (p.cnt + (codeWordsBits cs).length) % 8 := by
    rw [hinv.cnt_eq, hbits, List.length_append, pkBits_length]
    omega
  rw [hflush, hbits, hcnt]

/-- Settles O29: the gate is open, and the packer flushes after the code word of the match, if there is one. -/
theorem encEndWritesTheLastCodeAndFlushes : Obligations.EncEndWritesTheLastCodeAndFlushes := by
  refine ⟨by decide, fun s hpk henc hrun => ?_⟩
  have hexec : exec .encEnd s = .next ((encEndRun s).setResult .none) := requireEncRun_next.mpr ⟨hrun, rfl⟩
  obtain ⟨-, htaken, hbacklog⟩ := sinkAppended_encEndRun s
  rw [encEndRun_eq] at hexec htaken hbacklog
  obtain ⟨-, hcnt, hacc, -⟩ := pkFlushed_spec _ (pkPutAll_spec s.pk (encStreamCodes s.enc []) hpk).1
  refine ⟨_, codeWordsBits (encStreamCodes s.enc []), hexec, fun hm => ?_, fun hm => ?_,
    streamBits_pkFlushed_pkPutAll_of_pkInv hpk _, hcnt, hacc, htaken, hbacklog, rfl⟩
  · rw [encStreamCodes_nil_of_match_nil hm, codeWordsBits_nil]
  · refine ⟨_, codeOf?_of_isKey (henc.match_isKey hm), ?_⟩
    rw [encStreamCodes_nil_of_match_ne hm, encEmitted, codeWordsBits_cons, codeWordsBits_nil, List.append_nil]

/-- Settles O30: the gate is open, and the packer is the flushed one. -/
theorem encAbortFlushesAndDropsTheMatch : Obligations.EncAbortFlushesAndDropsTheMatch := by
  refine ⟨by decide, fun s hpk hrun => ?_⟩
  obtain ⟨-, hcnt, hacc, hbits, -⟩ := pkFlushed_spec s.pk hpk
  obtain ⟨htaken, hbacklog⟩ := pkFlushed_port s.pk
  exact ⟨_, requireEncRun_next.mpr ⟨hrun, rfl⟩, hbits, hcnt, hacc, htaken, hbacklog, rfl⟩

/-! ## `COMPRESS` -/

theorem encBytes_phase (bs : ByteSeq) (s : State) :
    (bs.foldl (fun s b => encByteRun b s) s).enc.phase = s.enc.phase := by
  induction bs generalizing s with
  | nil => rfl
  | cons b bs ih => exact (ih (encByteRun b s)).trans (encAccept_frame s.enc b).1

/-- A whole stream issued by a host: no operation of it is refused, because `ENC.START` sets phase `RUN` and `ENC.BYTE`
keeps it. -/
theorem execAll_encStream (bs : ByteSeq) (s : State) :
    execAll (.encStart :: bs.map .encByte ++ [.encEnd]) s =
      .next ((encEndRun (bs.foldl (fun s b => encByteRun b s) (startEnc s))).setResult .none) := by
  have hend : exec .encEnd (bs.foldl (fun s b => encByteRun b s) (startEnc s)) =
      .next ((encEndRun (bs.foldl (fun s b => encByteRun b s) (startEnc s))).setResult .none) :=
    requireEncRun_next.mpr ⟨encBytes_phase bs (startEnc s), rfl⟩
  calc execAll (.encStart :: bs.map .encByte ++ [.encEnd]) s
      = execAll (bs.map .encByte ++ [.encEnd]) (startEnc s) := rfl
    _ = execAll [.encEnd] (bs.foldl (fun s b => encByteRun b s) (startEnc s)) := execAll_encBytes bs _ _ rfl rfl
    _ = .next ((encEndRun (bs.foldl (fun s b => encByteRun b s) (startEnc s))).setResult .none) := by
        simp only [execAll, hend]

/-- `ENC.END` does not look at the source. -/
theorem encEndRun_src (s : State) (src : Source) :
    encEndRun (s.setEnc { s.enc with src := src }) =
      (encEndRun s).setEnc { (encEndRun s).enc with src := src } := rfl

theorem pos_add_sourceRest_length (src : Source) :
    src.pos + (sourceRest src).length = max src.pos src.data.length := by
  rw [sourceRest, List.length_drop]
  omega

/-- `COMPRESS` is the same run of operations on a source that ends exhausted. -/
theorem exec_compress_eq (s : State) :
    exec .compress s =
      .next (((encEndRun ((sourceRest s.enc.src).foldl (fun s b => encByteRun b s) (startEnc s))).setResult .none).setEnc
        { (encEndRun ((sourceRest s.enc.src).foldl (fun s b => encByteRun b s) (startEnc s))).enc with
          src := { s.enc.src with pos := max s.enc.src.pos s.enc.src.data.length } }) := by
  have hlength : (startEnc s).enc.src.data.length - (startEnc s).enc.src.pos = (sourceRest s.enc.src).length :=
    List.length_drop.symm
  have hloop := compressLoop_eq _ (startEnc s) (rfl : sourceRest (startEnc s).enc.src = sourceRest s.enc.src)
  rw [show (startEnc s).enc.src = s.enc.src from rfl, pos_add_sourceRest_length] at hloop
  simp only [exec, execCompress, hlength, hloop, encEndRun_src]
  rfl

/-- Settles O34: both runs end with the same `ENC.END`, and it does not look at the source. -/
theorem compressIsItsFixedSequence : Obligations.CompressIsItsFixedSequence :=
  fun s => ⟨_, execAll_encStream (sourceRest s.enc.src) s, exec_compress_eq s⟩

/-- The packer after a flushed stream depends on its code words alone: the bits of the bytes are the code words and the
pad, and nothing is pending. -/
theorem pkFlushed_pkPutAll_freshPk_congr (p p' : Pk) (cs : List (Code × CodeWidth)) :
    (pkFlushed (pkPutAll (freshPk p) cs)).out.data = (pkFlushed (pkPutAll (freshPk p') cs)).out.data ∧
      (pkFlushed (pkPutAll (freshPk p) cs)).acc = (pkFlushed (pkPutAll (freshPk p') cs)).acc ∧
      (pkFlushed (pkPutAll (freshPk p) cs)).cnt = (pkFlushed (pkPutAll (freshPk p') cs)).cnt := by
  obtain ⟨-, hcnt, hacc, -⟩ := pkFlushed_spec _ (pkPutAll_spec _ cs (pkInv_fresh p)).1
  obtain ⟨-, hcnt', hacc', -⟩ := pkFlushed_spec _ (pkPutAll_spec _ cs (pkInv_fresh p')).1
  refine ⟨streamBits_injective ?_, hacc.trans hacc'.symm, hcnt.trans hcnt'.symm⟩
  rw [streamBits_pkFlushed_pkPutAll, streamBits_pkFlushed_pkPutAll]

/-- A restarted encoder remembers nothing but its source. -/
theorem restartedEnc_eq (e e' : Enc) : restartedEnc e = { restartedEnc e' with src := e.src } := rfl

/-- Settles O35: the code words and the encoder are those of a restarted encoder on the same bytes, whatever its source
register, and the packer is determined by the code words. -/
theorem compressDependsOnItsSourceAlone : Obligations.CompressDependsOnItsSourceAlone := by
  intro s s' t t' hrest h h'
  obtain ⟨u, hu, -, hpk, henc, -⟩ := execCompress_spec s
  obtain ⟨u', hu', -, hpk', henc', -⟩ := execCompress_spec s'
  cases hu.symm.trans h
  cases hu'.symm.trans h'
  rw [hrest, restartedEnc_eq s.enc s'.enc, encStreamCodes_src] at hpk
  rw [hrest, restartedEnc_eq s.enc s'.enc, encAcceptAll_src] at henc
  obtain ⟨hdata, hacc, hcnt⟩ :=
    pkFlushed_pkPutAll_freshPk_congr s.pk s'.pk (encStreamCodes (restartedEnc s'.enc) (sourceRest s'.enc.src))
  rw [hpk, hpk', henc, henc']
  exact ⟨hdata, hacc, hcnt, rfl, rfl, rfl, rfl, rfl⟩

end Sys2Proof.Machine
end

section
/-! The decoder at a host's hand (43_lzw_decoder.md R141 to R150). A code word is received as a code, and what the
decoder does with it is read off `decLearn` and `decResolve`; `DEC.STEP` runs the code word it reads, and `DECOMPRESS` is
a run of `DEC.STEP`s that ends before its bound. -/

namespace Sys2Proof.Machine

/-! ## The round trip -/

/-- Settles O49: the sink of `COMPRESS` holds the bits of the encoder's code words, which a fresh decoder, one entry
behind the encoder, takes to the data. -/
theorem decompressOfCompressIsTheInput : Obligations.DecompressOfCompressIsTheInput := by
  intro s t u data hattach hcompress
  cases hattach
  obtain ⟨pad, hpad, hstream⟩ := streamBits_of_compress hcompress
  refine ⟨_, rfl, ?_⟩
  obtain ⟨q, hexec, hresult, hphase, -, hwhole⟩ :=
    decompress_of_streamBits_prefix (s := t.setUp { t.up with src := attachedSource t.pk.out.data, fed := false })
      rfl _ data hpad ⟨[], (List.append_nil _).trans hstream⟩
  exact ⟨q, hexec, hresult, hphase, hwhole hstream⟩

/-! ## `DEC.START` and `DECOMPRESS` -/

/-- With nothing learned only the 256 literals are present (10_state.md R37). -/
theorem seqOf?_nil (c : Code) : Dict.seqOf? [] c = if c.toNat < 256 then some [c.setWidth 8] else none := rfl

/-- Settles O37: `DEC.START` has no gate, and its dictionary has no learned entry. -/
theorem decStartBeginsAFreshStream : Obligations.DecStartBeginsAFreshStream :=
  ⟨by decide, fun s => ⟨startDec s, rfl, seqOf?_nil, rfl, rfl, rfl, rfl, rfl, rfl, rfl, rfl, rfl, rfl, rfl, rfl, rfl,
    rfl⟩⟩

/-- `DEC.START` and the first steps of a decoder that runs before each of them. -/
theorem execAll_decStart_decSteps {n : Nat} {s : State}
    (hrun : ∀ j, j < n → (decSteps j (startDec s)).dec.phase = .run) :
    execAll (.decStart :: List.replicate n .decStep) s = .next (decSteps n (startDec s)) :=
  execAll_decSteps n (startDec s) hrun

/-- Settles O48: the loop of `DECOMPRESS` ends before its bound, since each step that continues consumes bits, and no
step before the last one leaves phase `RUN`. -/
theorem decompressEndsAndIsItsFixedSequence : Obligations.DecompressEndsAndIsItsFixedSequence := by
  intro s
  obtain ⟨n, hexec, hend, hcontinue⟩ := execDecompress_spec s
  have hrun := decSteps_running (s := startDec s) rfl hcontinue
  refine ⟨_, hexec, hend, n, execAll_decStart_decSteps hrun, fun k r hk hr => ?_⟩
  cases (execAll_decStart_decSteps fun j hj => hrun j (by omega)).symm.trans hr
  exact (hcontinue k hk).1

/-! ## The first code word -/

theorem decReceive_first {s : State} {c : Code} (hprev : s.dec.prev = none) (hc : c.toNat < 256) :
    decReceive c s =
      (s.setDec
        { s.dec with
          out := { s.dec.out with data := s.dec.out.data ++ [c.setWidth 8] }
          prev := some [c.setWidth 8] }).setResult .continue := by
  rcases decReceive_cases c s with ⟨-, -, heq⟩ | ⟨p, -, hp, -⟩ | ⟨⟨-, hlearned⟩ | ⟨p, hp, -⟩, -⟩
  · exact heq
  · exact absurd (hprev.symm.trans hp) (by simp)
  · omega
  · exact absurd (hprev.symm.trans hp) (by simp)

theorem literal_fits {c : Code} (hc : c.toNat < 256) (w : CodeWidth) : c.toNat < 2 ^ w.toNat :=
  have h8 : 8 ≤ w.toNat := (Nat.le_succ 8).trans (codeWidth_range w).1
  hc.trans_le (Nat.pow_le_pow_right (n := 2) (by decide) h8)

/-- Settles O38: a literal's code fits every width, and the first code is received without learning. -/
theorem firstCodeWordEmitsItsByte : Obligations.FirstCodeWordEmitsItsByte := by
  intro s w c hc hrun hwidth hprev
  rw [exec_instrOfCode (literal_fits hc w)]
  exact receiveCodeWord_next.mpr ⟨hwidth, hrun, decReceive_first hprev hc⟩

/-! ## A later code word -/

theorem decReceive_later {s : State} {c : Code} {p e : ByteSeq} (hprev : s.dec.prev = some p)
    (hresolve : decResolve s.dec p c = some e) :
    decReceive c s = (s.setDec (decLearn s.dec p e)).setResult .continue := by
  simp only [decReceive, hprev, hresolve]

/-- R143 step 3 at a good decoder: a code up to `next_code` resolves to a sequence with a first byte, the entry of a
present code, and the previous string with its own first byte appended for the next code (KWKWK). -/
theorem decResolve_of_le {d : Dec} (h : DecInv d) {p : ByteSeq} (hprev : d.prev = some p) {c : Code}
    (hc : c.toNat ≤ d.nextCode) :
    ∃ (f x : Byte) (p' e' : ByteSeq), p = f :: p' ∧ decResolve d p c = some (x :: e') ∧
      (c.toNat < d.nextCode → d.dict.seqOf? c = some (x :: e')) ∧ (c.toNat = d.nextCode → x :: e' = p ++ [f]) := by
  obtain ⟨f, p', rfl⟩ := List.exists_cons_of_ne_nil (h.prev_ne hprev)
  rcases decResolve_cases d (f :: p') c with ⟨hlt, hresolve⟩ | ⟨heq, hresolve⟩ | ⟨hgt, -⟩
  · obtain ⟨x, e', hseq⟩ := List.exists_cons_of_ne_nil (decResolve_sequence h hresolve).1
    rw [hseq] at hresolve
    exact ⟨f, x, p', e', rfl, hresolve, fun _ => hseq ▸ h.present hlt, fun heq => absurd heq hlt.ne⟩
  · exact ⟨f, f, p', p' ++ [f], rfl, hresolve, fun hlt => absurd heq hlt.ne, fun _ => rfl⟩
  · omega

/-- R143 steps 5 and 6, R145, R146: below capacity the previous string with the first byte of the sequence is appended,
at capacity nothing is, and the width is promoted on the count after that plus one. -/
theorem decLearn_registers (d : Dec) (p : ByteSeq) (x : Byte) (e' : ByteSeq) :
    (d.nextCode < 4096 →
      (decLearn d p (x :: e')).dict = d.dict ++ [(codeOfCount d.nextCode, p ++ [x])] ∧
      (decLearn d p (x :: e')).nextCode = d.nextCode + 1) ∧
    (d.nextCode = 4096 →
      (decLearn d p (x :: e')).dict = d.dict ∧ (decLearn d p (x :: e')).nextCode = d.nextCode) ∧
    (decLearn d p (x :: e')).width = nextWidth d.width ((decLearn d p (x :: e')).nextCode + 1) 12 := by
  refine ⟨fun hlt => ?_, fun hfull => ?_, rfl⟩
  · rw [decLearn_lt p _ hlt]
    exact ⟨rfl, rfl⟩
  · rw [decLearn_ge p _ hfull.ge]
    exact ⟨rfl, rfl⟩

/-- Learning leaves the phase, the status and the bad code alone. -/
theorem decLearn_frame (d : Dec) (p e : ByteSeq) :
    (decLearn d p e).phase = d.phase ∧ (decLearn d p e).status = d.status ∧
      (decLearn d p e).badcode = d.badcode := by
  by_cases hlt : d.nextCode < 4096
  · rw [decLearn_lt p e hlt]
    exact ⟨rfl, rfl, rfl⟩
  · rw [decLearn_ge p e (Nat.not_lt.mp hlt)]
    exact ⟨rfl, rfl, rfl⟩

/-- Settles O39: a code up to `next_code` resolves to a sequence, and the decoder learns from it and the previous
string. -/
theorem laterCodeWordEmitsAndLearns : Obligations.LaterCodeWordEmitsAndLearns := by
  intro s w c p hinv hfits hrun hwidth hprev hc
  obtain ⟨f, x, p', e', hp, hresolve, hpresent, hnew⟩ := decResolve_of_le hinv hprev hc
  have hexec : exec (instrOfCode w c) s = .next ((s.setDec (decLearn s.dec p (x :: e'))).setResult .continue) :=
    (exec_instrOfCode hfits s).trans (receiveCodeWord_next.mpr ⟨hwidth, hrun, decReceive_later hprev hresolve⟩)
  have hout := decLearn_out s.dec p (x :: e')
  obtain ⟨hbelow, hfull, hpromoted⟩ := decLearn_registers s.dec p x e'
  obtain ⟨hphase, hstatus, hbadcode⟩ := decLearn_frame s.dec p (x :: e')
  exact ⟨_, f, x, p', e', hexec, hp, hpresent, hnew, rfl, (congrArg Sink.data hout :),
    (congrArg Sink.taken hout :), (congrArg Sink.backlog hout :), hbelow, hfull, hpromoted, decLearn_prev _ _ _, hphase,
    hstatus, hbadcode, rfl⟩

/-! ## `DEC.STEP` by the class of its code -/

theorem classOf_of_literal (d : Dec) {c : Code} (hlit : c.toNat < 256) : d.classOf c = .lit := if_pos hlit

theorem classOf_of_prev_none {d : Dec} {c : Code} (hlearned : 256 ≤ c.toNat) (hprev : d.prev = none) :
    d.classOf c = .invalid := by
  simp [Dec.classOf, classOf, Config.nLiterals, hprev, hlearned]

theorem classOf_of_prev_some {d : Dec} {c : Code} {p : ByteSeq} (hlearned : 256 ≤ c.toNat) (hprev : d.prev = some p) :
    d.classOf c = if c.toNat < d.nextCode then .ref else if c.toNat = d.nextCode then .kwkwk else .invalid := by
  simp [Dec.classOf, classOf, Config.nLiterals, hprev, Nat.not_lt.mpr hlearned]

/-- R73's table: the first code of a stream is of a class that is not `INVALID` when it is a literal. -/
theorem literal_of_classOf_of_prev_none {d : Dec} {c : Code} (hprev : d.prev = none) (h : d.classOf c ≠ .invalid) :
    c.toNat < 256 :=
  Nat.not_le.mp fun hlearned => h (classOf_of_prev_none hlearned hprev)

/-- R73's table, the rows of a later code. -/
theorem classOf_later_cases {d : Dec} (hinv : DecInv d) {c : Code} {p : ByteSeq} (hprev : d.prev = some p) :
    (d.classOf c = .lit ∧ c.toNat < d.nextCode ∧ c.toNat < 256) ∨ (d.classOf c = .ref ∧ c.toNat < d.nextCode) ∨
      (d.classOf c = .kwkwk ∧ c.toNat = d.nextCode) ∨ (d.classOf c = .invalid ∧ d.nextCode < c.toNat) := by
  by_cases hlit : c.toNat < 256
  · exact .inl ⟨classOf_of_literal d hlit, hlit.trans_le hinv.next_le.1, hlit⟩
  · rw [classOf_of_prev_some (Nat.not_lt.mp hlit) hprev]
    rcases Nat.lt_trichotomy c.toNat d.nextCode with hlt | heq | hgt
    · exact .inr (.inl ⟨if_pos hlt, hlt⟩)
    · exact .inr (.inr (.inl ⟨by rw [if_neg heq.not_lt, if_pos heq], heq⟩))
    · exact .inr (.inr (.inr ⟨by rw [if_neg hgt.not_gt, if_neg hgt.ne'], hgt⟩))

/-- The sequence that R73's table gives a later code of each class. -/
theorem classOf_later_sequence {d : Dec} (hinv : DecInv d) {f : Byte} {p' e : ByteSeq} {c : Code}
    (hprev : d.prev = some (f :: p')) (hpresent : c.toNat < d.nextCode → d.dict.seqOf? c = some e)
    (hnew : c.toNat = d.nextCode → e = f :: p' ++ [f]) :
    (d.classOf c = .lit → e = [c.setWidth 8]) ∧ (d.classOf c = .ref → d.dict.seqOf? c = some e) ∧
      (d.classOf c = .kwkwk → ∃ g q, d.prev = some (g :: q) ∧ e = g :: q ++ [g]) := by
  rcases classOf_later_cases hinv (c := c) hprev with
    ⟨hclass, hlt, hlit⟩ | ⟨hclass, hlt⟩ | ⟨hclass, heq⟩ | ⟨hclass, -⟩ <;> rw [hclass]
  · have hentry := (seqOf?_literal d.dict hlit).symm.trans (hpresent hlt)
    exact ⟨fun _ => (Option.some.inj hentry).symm, nofun, nofun⟩
  · exact ⟨nofun, fun _ => hpresent hlt, nofun⟩
  · exact ⟨nofun, nofun, fun _ => ⟨f, p', hprev, hnew heq⟩⟩
  · exact ⟨nofun, nofun, nofun⟩

theorem le_next_of_classOf {d : Dec} (hinv : DecInv d) {c : Code} {p : ByteSeq} (hprev : d.prev = some p)
    (h : d.classOf c ≠ .invalid) : c.toNat ≤ d.nextCode := by
  rcases classOf_later_cases hinv (c := c) hprev with ⟨-, hlt, -⟩ | ⟨-, hlt⟩ | ⟨-, heq⟩ | ⟨hclass, -⟩
  · exact hlt.le
  · exact hlt.le
  · exact heq.le
  · exact absurd hclass h

/-- Settles O40: `DEC.STEP` runs the code word it reads, which is a first or a later one by the previous string. -/
theorem decStepEmitsWhatItsCodeNames : Obligations.DecStepEmitsWhatItsCodeNames := by
  intro s c u hinv hrun hread hvalid
  obtain ⟨hfits, hexec⟩ := exec_decStep_of_code hrun hinv.up hread
  cases hprev : s.dec.prev with
  | none =>
    have hlit := literal_of_classOf_of_prev_none hprev hvalid
    have hclass := classOf_of_literal s.dec hlit
    have hfirst := firstCodeWordEmitsItsByte (s.setUp u) _ c hlit hrun rfl hprev
    rw [hclass]
    exact ⟨_, [c.setWidth 8], hexec.trans hfirst, fun _ => rfl, nofun, nofun, rfl, rfl, rfl, hrun,
      (if_pos (.inl rfl)).symm, rfl⟩
  | some p =>
    have hle := le_next_of_classOf hinv.dec hprev hvalid
    obtain ⟨t, f, x, p', e', hlater, rfl, hpresent, hnew, hresult, hdata, -, -, hbelow, hfull, -, hprev', hphase, -, -,
      hframe⟩ := laterCodeWordEmitsAndLearns (s.setUp u) _ c p hinv.dec hfits hrun rfl hprev hle
    obtain ⟨hlit, href, hkwkwk⟩ := classOf_later_sequence hinv.dec hprev hpresent hnew
    refine ⟨t, x :: e', hexec.trans hlater, hlit, href, hprev ▸ hkwkwk, hresult, hdata, hprev',
      hphase.trans hrun, ?_, hframe⟩
    by_cases hcap : s.dec.nextCode = 4096
    · rw [if_pos (.inr hcap)]
      exact (hfull hcap).2
    · rw [if_neg (by simp [hcap])]
      exact (hbelow (lt_of_le_of_ne hinv.dec.next_le.2 hcap)).2

end Sys2Proof.Machine
end

section
/-! Errors, end-of-stream and the idle block (60_exceptions.md R171, R172, R175 to R177, R185). Which codes raise
`DecodeError` is said once about `decReceive`, and what a read past the last bits leaves once about `upRead`;
`DEC.STEP` is a read and then, for a code, `decReceive`. -/

namespace Sys2Proof.Machine

/-! ## Nothing pending -/

theorem step_of_events_nil {s : State} (h : s.events = []) : step s = .next s := by
  simp only [step, h]

/-- Settles O7: with no act of the host to take, the step is the identity. -/
theorem stepWithNothingPendingKeepsTheState : Obligations.StepWithNothingPendingKeepsTheState :=
  fun _ hidle => step_of_events_nil hidle

/-! ## Invalid codes -/

/-- R175 (2): the first code of a stream is tested before the dictionary is looked at. -/
theorem decReceive_first_invalid {s : State} {c : Code} (hprev : s.dec.prev = none) (hlearned : 256 ≤ c.toNat) :
    decReceive c s = raiseDecodeError c s := by
  simp only [decReceive, hprev]
  exact if_pos hlearned

theorem decResolve_of_gt {d : Dec} (p : ByteSeq) {c : Code} (hlarge : d.nextCode < c.toNat) :
    decResolve d p c = none := by
  rcases decResolve_cases d p c with ⟨hlt, -⟩ | ⟨heq, -⟩ | ⟨-, hnone⟩
  · omega
  · omega
  · exact hnone

/-- R175 (5): a later code that is neither present nor the next one. -/
theorem decReceive_later_invalid {s : State} {c : Code} (hprev : s.dec.prev ≠ none)
    (hlarge : s.dec.nextCode < c.toNat) : decReceive c s = raiseDecodeError c s := by
  obtain ⟨p, hp⟩ := Option.ne_none_iff_exists'.mp hprev
  simp only [decReceive, hp, decResolve_of_gt p hlarge]

/-- Settles O42: received as a code word or after the read of `DEC.STEP`, an invalid code does what trap entry does
(R176) and nothing else. -/
theorem invalidCodeWordRaisesDecodeError : Obligations.InvalidCodeWordRaisesDecodeError := by
  rintro s w c hfits hrun rfl hinvalid
  have hraise : ∀ u, decReceive c (s.setUp u) = raiseDecodeError c (s.setUp u) := fun u =>
    hinvalid.elim (fun ⟨hlarge, hprev⟩ => decReceive_later_invalid hprev hlarge)
      (fun ⟨hlearned, hprev⟩ => decReceive_first_invalid hprev hlearned)
  refine ⟨?_, fun u hread => requireDecRun_next.mpr ⟨hrun, ?_⟩⟩
  · rw [exec_instrOfCode hfits]
    exact receiveCodeWord_next.mpr ⟨rfl, hrun, hraise s.up⟩
  · simp only [decStepRun, hread]
    exact hraise u

/-! ## `DecodeError` and the class `INVALID` -/

/-- R73's table, first code: `INVALID` from 256 on. -/
theorem classOf_first_invalid_iff {d : Dec} {c : Code} (hprev : d.prev = none) :
    d.classOf c = .invalid ↔ 256 ≤ c.toNat := by
  refine ⟨fun hclass => Nat.not_lt.mp fun hlit => ?_, fun hlearned => classOf_of_prev_none hlearned hprev⟩
  cases (classOf_of_literal d hlit).symm.trans hclass

/-- R73's table, later code: `INVALID` above `next_code`. -/
theorem classOf_later_invalid_iff {d : Dec} (hinv : DecInv d) {c : Code} (hprev : d.prev ≠ none) :
    d.classOf c = .invalid ↔ d.nextCode < c.toNat := by
  obtain ⟨p, hp⟩ := Option.ne_none_iff_exists'.mp hprev
  rcases classOf_later_cases hinv (c := c) hp with
    ⟨hclass, hlt, -⟩ | ⟨hclass, hlt⟩ | ⟨hclass, heq⟩ | ⟨hclass, hgt⟩ <;> rw [hclass]
  · exact iff_of_false nofun hlt.not_gt
  · exact iff_of_false nofun hlt.not_gt
  · exact iff_of_false nofun heq.not_gt
  · exact iff_of_true rfl hgt

/-- A code raises `DecodeError` exactly when it is of class `INVALID` (R172). -/
theorem decReceive_result_error_iff {s : State} (hinv : DecInv s.dec) (c : Code) :
    (decReceive c s).result = .error ↔ s.dec.classOf c = .invalid := by
  by_cases hprev : s.dec.prev = none
  · rw [classOf_first_invalid_iff hprev]
    by_cases hlearned : 256 ≤ c.toNat
    · rw [decReceive_first_invalid hprev hlearned]
      exact iff_of_true rfl hlearned
    · rw [decReceive_first hprev (Nat.not_le.mp hlearned)]
      exact iff_of_false nofun hlearned
  · rw [classOf_later_invalid_iff hinv hprev]
    by_cases hlarge : s.dec.nextCode < c.toNat
    · rw [decReceive_later_invalid hprev hlarge]
      exact iff_of_true rfl hlarge
    · obtain ⟨e, -, -, hcontinue, -⟩ := decReceive_accepts hinv (Nat.not_lt.mp hlarge) (.inr hprev)
      rw [hcontinue]
      exact iff_of_false nofun hlarge

/-- Settles O44: a step that reads no code answers `DONE`; one that reads a code answers as `decReceive` does, never
`DONE`, and `ERROR` for the class `INVALID` alone. -/
theorem decodeErrorExactlyOnInvalidCodes : Obligations.DecodeErrorExactlyOnInvalidCodes := by
  intro s hinv hrun
  refine ⟨decStepRun s, requireDecRun_next.mpr ⟨hrun, rfl⟩, ?_⟩
  rcases decStepRun_cases s with ⟨u, hread, heq⟩ | ⟨c, u, hread, heq⟩ <;> rw [heq, hread]
  · exact ⟨iff_of_false nofun nofun, iff_of_true rfl ⟨u, rfl⟩, .inr (.inl rfl)⟩
  · have herror : (decReceive c (s.setUp u)).result = .error ↔ s.dec.classOf c = .invalid :=
      decReceive_result_error_iff (s := s.setUp u) hinv.dec c
    refine ⟨?_, ?_⟩
    · rw [herror]
      exact ⟨fun hclass => ⟨c, u, rfl, hclass⟩, fun ⟨_, _, hsame, hclass⟩ => by cases hsame; exact hclass⟩
    · rcases decReceive_result c (s.setUp u) with ⟨hresult, -⟩ | ⟨hresult, -⟩ <;> rw [hresult]
      · exact ⟨iff_of_false nofun nofun, .inr (.inr rfl)⟩
      · exact ⟨iff_of_false nofun nofun, .inl rfl⟩

/-! ## End-of-stream -/

/-- The unpacker at end-of-stream: nothing is left in its buffer, and the source is read to its end unless the end was
signalled before (41_bit_unpacker.md R111, R114; 10_state.md R29). -/
def endedUp (u : Up) : Up :=
  { buf := 0#8
    left := 0
    eos := true
    src := { u.src with pos := if u.eos then u.src.pos else u.src.data.length }
    fed := u.fed }

/-- With no bit left in the buffer all its bits are 0 (10_state.md R27). -/
theorem UpInv.buf_eq_zero {u : Up} (h : UpInv u) (hleft : u.left = 0) : u.buf = 0#8 := by
  have hdvd : 2 ^ 8 ∣ u.buf.toNat := by simpa [hleft] using h.buf_low
  exact BitVec.eq_of_toNat_eq (Nat.eq_zero_of_dvd_of_lt hdvd u.buf.isLt)

/-- An unpacker with nothing in its buffer, end-of-stream signalled and its source where `endedUp` has it is `endedUp`. -/
theorem eq_endedUp {u u' : Up} (h : UpInv u') (hleft : u'.left = 0) (heos : u'.eos = true)
    (hdata : u'.src.data = u.src.data) (hpos : u'.src.pos = if u.eos then u.src.pos else u.src.data.length)
    (hfed : u'.fed = u.fed) : u' = endedUp u := by
  have hbuf := h.buf_eq_zero hleft
  rcases u' with ⟨buf, left, eos, ⟨data, pos⟩, fed⟩
  simp only [endedUp, Up.mk.injEq, Source.mk.injEq]
  exact ⟨hbuf, hleft, heos, ⟨hdata, hpos⟩, hfed⟩

/-- A read with too few bits left, or after the end, is answered `EOS` and leaves the unpacker at its end (R111, R114). -/
theorem upRead_of_ended {u : Up} {w : Nat} (h : UpInv u) (hend : (upBits u).length < w ∨ u.eos = true) :
    upRead u w = (none, endedUp u) := by
  cases heos : u.eos with
  | true =>
    have hsame : u = endedUp u := eq_endedUp h (h.eos_left heos) heos rfl (if_pos heos).symm rfl
    rw [← hsame]
    exact upRead_eos w heos
  | false =>
    have hrunning : u.eos ≠ true := by simp [heos]
    obtain ⟨u', hread, hnil, hinv, hleft, heos', hdata⟩ := upRead_none h heos (hend.resolve_right hrunning)
    have hpos : u'.src.pos = u.src.data.length := hdata ▸ pos_of_upBits_nil hinv hnil
    have hfed : u'.fed = u.fed := by simpa only [hread] using upRead_fed u w
    rw [hread, eq_endedUp hinv hleft heos' hdata (hpos.trans (if_neg hrunning).symm) hfed]

/-- Settles O45: the read of such a step is answered `EOS`, which ends the stream (R171). -/
theorem decStepEndsTheStreamWithoutError : Obligations.DecStepEndsTheStreamWithoutError := by
  intro s hinv hrun hend
  obtain ⟨-, hdone⟩ := decStepFetchesAndRunsACodeWord s hrun
  exact hdone (endedUp s.up) (upRead_of_ended hinv hend)

/-! ## An ended decoder -/

/-- Outside `RUN` nothing that stands behind the gate on `DEC.phase` completes (30_encoding.md R88 (d)). -/
theorem requireDecRun_not_next {s r t : State} (hstop : s.dec.phase ≠ .run) : requireDecRun s r ≠ .next t :=
  fun h => hstop (requireDecRun_next.mp h).1

theorem receiveCodeWord_not_next {s t : State} {w : CodeWidth} {c : Code} (hstop : s.dec.phase ≠ .run) :
    receiveCodeWord w c s ≠ .next t := by
  intro h
  obtain ⟨-, hrun, -⟩ := receiveCodeWord_next.mp h
  exact hstop hrun

/-- Settles O46: the compressor's instructions and the two of the unpacker have no part in the decoder; the steps of the
decoder and its code words do not complete outside `RUN`. -/
theorem endedDecoderStaysUntilStart : Obligations.EndedDecoderStaysUntilStart := by
  intro i s t hstop hstart hdecompress h
  rcases ofCompressor_or_ofDecompressor_of_exec h with hi | hi
  · exact (sameDecompressor_of_exec hi h).dec
  · cases i with
    | upStart => exact dec_of_hostUp h
    | upRead width => exact dec_of_execUpRead h
    | decStart => exact absurd rfl hstart
    | decStep => exact absurd h (requireDecRun_not_next hstop)
    | decompress => exact absurd rfl hdecompress
    | w9Lit _ | w9Dict _ | w10Lit _ | w10Dict _ | w11Lit _ | w11Dict _ | w12Lit _ | w12Dict _ =>
      exact absurd h (receiveCodeWord_not_next hstop)
    | _ => cases hi

end Sys2Proof.Machine
end

section
/-! Reset (70_reset_and_hazards.md R190). A reset in any state is the block's reset, which is `ENC.START` followed by
`DEC.START`. The invariant of the state after reset is that of four units that have just been started. -/

namespace Sys2Proof.Machine

/-! ## Reset in any state -/

theorem step_of_events_reset {s : State} {es : List HostEvent} (h : s.events = .reset :: es) :
    step s = .next (resetBlock (s.setEvents es)) := step_of_events_cons h

theorem execAll_encStart_decStart (s : State) : execAll [.encStart, .decStart] s = .next (resetBlock s) := rfl

/-- Settles O10: the step is the block's reset, both dictionaries then have no learned entry, and every other register
is one that `startEnc` or `startDec` writes. -/
theorem resetGivesTheListedValues : Obligations.ResetGivesTheListedValues := by
  intro s es h
  exact ⟨resetBlock (s.setEvents es), step_of_events_reset h, execAll_encStart_decStart _,
    -- the packer and the unpacker
    rfl, rfl, rfl, rfl, rfl, rfl, rfl, rfl, rfl,
    -- the encoder
    seqOf?_nil, rfl, rfl, rfl, rfl, rfl,
    -- the decoder
    seqOf?_nil, rfl, rfl, rfl, rfl, rfl, rfl, rfl⟩

/-! ## The state after reset -/

/-- Settles O11: each unit of the reset state is what its own `START` leaves. -/
theorem invariantHoldsAtReset : Obligations.InvariantHoldsAtReset :=
  ⟨pkInv_fresh State.reset.pk, upInv_restarted State.reset.up, encInv_restarted State.reset.enc (Nat.le_refl 0),
    decInv_fresh State.reset.dec⟩

end Sys2Proof.Machine
end

section
/-! Every step keeps the invariant of the block. The invariant is the conjunction of those of the four units, so an act
of the host keeps it when it keeps the invariant of each unit it writes; the laws of the shared operations say that they
do. The steps of the decoder that `DECOMPRESS` and the port binding take are steps of a running decoder. -/

namespace Sys2Proof.Machine

/-! ## Writing one unit -/

theorem State.Inv.setPk {s : State} (h : s.Inv) {p : Pk} (hp : PkInv p) : (s.setPk p).Inv := ⟨hp, h.up, h.enc, h.dec⟩

theorem State.Inv.setUp {s : State} (h : s.Inv) {u : Up} (hu : UpInv u) : (s.setUp u).Inv := ⟨h.pk, hu, h.enc, h.dec⟩

theorem State.Inv.setEnc {s : State} (h : s.Inv) {e : Enc} (he : EncInv e) : (s.setEnc e).Inv :=
  ⟨h.pk, h.up, he, h.dec⟩

theorem State.Inv.setDec {s : State} (h : s.Inv) {d : Dec} (hd : DecInv d) : (s.setDec d).Inv :=
  ⟨h.pk, h.up, h.enc, hd⟩

theorem State.Inv.setResult {s : State} (h : s.Inv) (r : OpResult) : (s.setResult r).Inv :=
  ⟨h.pk, h.up, h.enc, h.dec⟩

theorem State.Inv.setEvents {s : State} (h : s.Inv) (es : List HostEvent) : (s.setEvents es).Inv :=
  ⟨h.pk, h.up, h.enc, h.dec⟩

/-! ## The compressor's instructions -/

theorem stateInv_of_hostPk {s t : State} {p : Pk} (hinv : s.Inv) (hp : PkInv p) (h : hostPk s p = .next t) : t.Inv := by
  obtain ⟨-, rfl⟩ := hostPk_next.mp h
  exact (hinv.setPk hp).setResult .none

theorem stateInv_of_execPkWrite {s t : State} {code : BitVec 12} {width : BitVec 4} (hinv : s.Inv)
    (h : execPkWrite code width s = .next t) : t.Inv := by
  obtain ⟨-, hgate⟩ := execPkWrite_next.mp h
  exact stateInv_of_hostPk hinv (pkPutCode_spec s.pk code width.toNat hinv.pk).1 hgate

theorem stateInv_of_requireEncRun {s t r : State} (hr : r.Inv) (h : requireEncRun s r = .next t) : t.Inv := by
  obtain ⟨-, rfl⟩ := requireEncRun_next.mp h
  exact hr.setResult .none

theorem encByteRun_stateInv {s : State} (h : s.Inv) (b : Byte) : (encByteRun b s).Inv :=
  (h.setEnc (encAccept_inv h.enc b)).setPk (pkPutEmitted_spec s.pk _ h.pk).1

/-- Neither the phase nor a position inside the source plays a part in the rest of the encoder's invariant. -/
theorem EncInv.withPhaseAndSource {e : Enc} (h : EncInv e) (phase : EncPhase) {src : Source}
    (hsrc : src.pos ≤ src.data.length) : EncInv { e with phase := phase, src := src } :=
  ⟨h.dict_wf, h.next_eq, h.keys_nodup, h.ext, h.width_eq, h.match_key, hsrc⟩

/-- Ending the stream with a flush of a good packer, as `ENC.END` and `ENC.ABORT` do (R125, R126). -/
theorem stateInv_flushed {s : State} (h : s.Inv) {p : Pk} (hp : PkInv p) :
    ((s.setPk (pkFlushed p)).setEnc { s.enc with phase := .done }).Inv :=
  (h.setPk (pkFlushed_spec p hp).1).setEnc (h.enc.withPhaseAndSource .done h.enc.pos_le)

theorem encEndRun_stateInv {s : State} (h : s.Inv) : (encEndRun s).Inv := by
  rw [encEndRun_eq]
  exact stateInv_flushed h (pkPutAll_spec s.pk _ h.pk).1

/-- `COMPRESS` leaves a flushed packer, and the encoder that has accepted its source to the end. -/
theorem stateInv_of_compress {s t : State} (hinv : s.Inv) (h : exec .compress s = .next t) : t.Inv := by
  obtain ⟨t', ht', hpk, -, henc, hup, hdec, -⟩ := execCompress_spec s
  cases ht'.symm.trans h
  have hpos : s.enc.src.pos + (sourceRest s.enc.src).length ≤ s.enc.src.data.length := by
    rw [pos_add_sourceRest_length]
    exact max_le hinv.enc.pos_le le_rfl
  refine ⟨hpk, hup ▸ hinv.up, ?_, hdec ▸ hinv.dec⟩
  rw [henc]
  exact (encAcceptAll_inv (encInv_restarted s.enc hinv.enc.pos_le) _).withPhaseAndSource .done hpos

/-! ## The decompressor's instructions -/

theorem stateInv_of_hostUp {s t : State} {u : Up} {r : OpResult} (hinv : s.Inv) (hu : UpInv u)
    (h : hostUp s u r = .next t) : t.Inv := by
  obtain ⟨-, rfl⟩ := hostUp_next.mp h
  exact (hinv.setUp hu).setResult r

theorem stateInv_of_execUpRead {s t : State} {width : BitVec 4} (hinv : s.Inv)
    (h : execUpRead width s = .next t) : t.Inv := by
  obtain ⟨hlegal, hgate⟩ := execUpRead_next.mp h
  obtain ⟨h1, h12⟩ := legalWidth_iff.mp hlegal
  exact stateInv_of_hostUp hinv (upRead_inv hinv.up h1 h12) hgate

theorem stateInv_of_receiveCodeWord {s t : State} {w : CodeWidth} {c : Code} (hinv : s.Inv)
    (h : receiveCodeWord w c s = .next t) : t.Inv := by
  obtain ⟨-, -, rfl⟩ := receiveCodeWord_next.mp h
  obtain ⟨hpk, hup, henc, -⟩ := decReceive_frame c s
  exact ⟨hpk ▸ hinv.pk, hup ▸ hinv.up, henc ▸ hinv.enc, decReceive_inv hinv.dec c⟩

theorem stateInv_of_execDecStep {s t : State} (hinv : s.Inv) (h : execDecStep s = .next t) : t.Inv := by
  obtain ⟨hrun, rfl⟩ := requireDecRun_next.mp h
  exact decSteps_stateInv 1 hinv fun j hj => by rwa [Nat.lt_one_iff.mp hj]

/-- A run of the decoder to the end of its stream takes each of its steps in phase `RUN`. -/
theorem EndsAt.stateInv {k : Nat} {s : State} (h : EndsAt k s) (hinv : s.Inv) : (decSteps k s).Inv :=
  decSteps_stateInv k hinv h.1

/-- The loop of `DECOMPRESS`, from a running decoder and with its bound. -/
theorem stateInv_of_decompressLoop {s t : State} (hinv : s.Inv) (hrun : s.dec.phase = .run)
    (h : decompressLoop (upBitsAvailable s.up + 1) s = .next t) : t.Inv := by
  obtain ⟨k, hloop, hend⟩ := decompressLoop_endsAt hinv.up hrun
  cases hloop.symm.trans h
  exact hend.stateInv hinv

/-! ## Every instruction -/

theorem stateInv_of_exec {i : Instr} {s t : State} (hinv : s.Inv) (h : exec i s = .next t) : t.Inv := by
  cases i with
  | pkStart => exact stateInv_of_hostPk hinv (pkInv_fresh s.pk) h
  | pkWrite code width => exact stateInv_of_execPkWrite hinv h
  | pkFlush => exact stateInv_of_hostPk hinv (pkFlushed_spec s.pk hinv.pk).1 h
  | encStart =>
    cases h
    exact startEnc_inv hinv
  | encByte b => exact stateInv_of_requireEncRun (encByteRun_stateInv hinv b) h
  | encEnd => exact stateInv_of_requireEncRun (encEndRun_stateInv hinv) h
  | encAbort => exact stateInv_of_requireEncRun (stateInv_flushed hinv hinv.pk) h
  | compress => exact stateInv_of_compress hinv h
  | upStart => exact stateInv_of_hostUp hinv (upInv_restarted s.up) h
  | upRead width => exact stateInv_of_execUpRead hinv h
  | decStart =>
    cases h
    exact startDec_inv hinv
  | decStep => exact stateInv_of_execDecStep hinv h
  | decompress => exact stateInv_of_decompressLoop (startDec_inv hinv) rfl h
  | w9Lit _ | w9Dict _ | w10Lit _ | w10Dict _ | w11Lit _ | w11Dict _ | w12Lit _ | w12Dict _ =>
    exact stateInv_of_receiveCodeWord hinv h
  | reservedD _ | reservedE _ | reservedF _ => cases h

/-! ## Every act of the host -/

theorem stateInv_of_portPulse {i : Instr} {s t : State} (hinv : s.Inv) (h : portPulse i s = .next t) : t.Inv := by
  rcases portPulse_next h with hexec | rfl
  · exact stateInv_of_exec hinv hexec
  · exact hinv

/-- A transfer on an output port does not count past the sink (R66). -/
theorem sinkTake_taken_le {k : Sink} (h : k.taken ≤ k.data.length) : (sinkTake k).taken ≤ (sinkTake k).data.length := by
  unfold sinkTake
  split
  · exact h
  · split
    · assumption
    · exact h

theorem pkInv_sinkTake {p : Pk} (h : PkInv p) : PkInv { p with out := sinkTake p.out } :=
  ⟨h.cnt_le, h.acc_lt, sinkTake_taken_le h.taken_le⟩

theorem decInv_sinkTake {d : Dec} (h : DecInv d) : DecInv { d with out := sinkTake d.out } :=
  ⟨h.dict_wf, h.next_eq, h.ext, h.undef_fresh, h.width_eq, h.prev_entry, h.status_eq, h.badcode_zero,
    sinkTake_taken_le h.taken_le⟩

/-- Another source whose position lies in its content. -/
theorem UpInv.withSource {u : Up} (h : UpInv u) {src : Source} (hsrc : src.pos ≤ src.data.length) (fed : Bool) :
    UpInv { u with src := src, fed := fed } := ⟨h.left_le, h.buf_low, h.eos_left, hsrc⟩

theorem selfStepped_stateInv {s : State} (h : s.Inv) : (selfStepped s).Inv := by
  obtain ⟨k, -, hsteps, hready⟩ := selfSteps_eq (upBitsAvailable s.up + 1) s
  rw [selfStepped, hsteps]
  exact decSteps_stateInv k h fun j hj => decStepReady_run (hready j hj)

/-- A byte that arrives leaves the position where it was, inside a longer content. -/
theorem arrive_stateInv {s : State} (h : s.Inv) (b : Byte) : (s.arrive b).Inv := by
  have hpos : s.up.src.pos ≤ (s.up.src.data ++ [b]).length :=
    h.up.pos_le.trans (List.prefix_append s.up.src.data [b]).length_le
  exact h.setUp ⟨h.up.left_le, h.up.buf_low, h.up.eos_left, hpos⟩

theorem stateInv_of_portDIn {b : Byte} {s t : State} (hinv : s.Inv) (h : portDIn b s = .next t) : t.Inv := by
  have hfirst := selfStepped_stateInv (hinv.setUp (portFed_inv hinv.up))
  by_cases hrun : s.dec.phase = .run
  · by_cases hrun' : (selfStepped (s.setUp (portFed s.up))).dec.phase = .run
    · cases (portDIn_of_runs b hrun hrun').symm.trans h
      exact selfStepped_stateInv (arrive_stateInv hfirst b)
    · cases (portDIn_of_ends b hrun hrun').symm.trans h
      exact hfirst
  · cases (portDIn_of_ended b hrun).symm.trans h
    exact hinv

theorem stateInv_of_portDInEnd {s t : State} (hinv : s.Inv) (h : portDInEnd s = .next t) : t.Inv := by
  by_cases hrun : s.dec.phase = .run
  · rw [portDInEnd_of_run hrun] at h
    exact stateInv_of_decompressLoop (hinv.setUp (portFed_inv hinv.up)) hrun h
  · cases (portDInEnd_of_ended hrun).symm.trans h
    exact hinv

theorem stateInv_of_portEvent {e : PortEvent} {s t : State} (hinv : s.Inv) (h : portEvent e s = .next t) : t.Inv := by
  cases e with
  | cStart => exact stateInv_of_portPulse (i := .encStart) hinv h
  | cIn b => exact stateInv_of_portPulse (i := .encByte b) hinv h
  | cInEnd => exact stateInv_of_portPulse (i := .encEnd) hinv h
  | cAbort => exact stateInv_of_portPulse (i := .encAbort) hinv h
  | cOut =>
    cases h
    exact hinv.setPk (pkInv_sinkTake hinv.pk)
  | dStart => exact stateInv_of_portPulse (i := .decStart) (hinv.setUp (hinv.up.withSource (Nat.zero_le _) true)) h
  | dIn b => exact stateInv_of_portDIn hinv h
  | dInEnd => exact stateInv_of_portDInEnd hinv h
  | dOut =>
    cases h
    exact hinv.setDec (decInv_sinkTake hinv.dec)

theorem stateInv_of_runEvent {e : HostEvent} {s t : State} (hinv : s.Inv) (h : runEvent e s = .next t) : t.Inv := by
  cases e with
  | command w =>
    obtain ⟨i, hi⟩ := runCommand_next h
    exact stateInv_of_exec hinv hi
  | reset =>
    cases h
    exact startDec_inv (startEnc_inv hinv)
  | attachRaw data =>
    cases h
    exact hinv.setEnc (hinv.enc.withPhaseAndSource s.enc.phase (Nat.zero_le _))
  | attachCompressed data =>
    cases h
    exact hinv.setUp (hinv.up.withSource (Nat.zero_le _) false)
  | port e => exact stateInv_of_portEvent hinv h

/-- Settles O12: the step is the oldest act of the host, or the identity, and every act keeps the invariants of the
units it writes. -/
theorem stepKeepsTheInvariant : Obligations.StepKeepsTheInvariant := by
  intro s t hinv h
  cases hev : s.events with
  | nil =>
    cases (step_of_events_nil hev).symm.trans h
    exact hinv
  | cons e es =>
    rw [step_of_events_cons hev] at h
    exact stateInv_of_runEvent (hinv.setEvents es) h

end Sys2Proof.Machine
end

section
/-! The bit channel end to end (40_bit_packer.md R104; 41_bit_unpacker.md, round trip of the bit channel). A packer run
leaves the bits of its code words and the pad; a restarted unpacker on those bytes can deliver just these bits, and each
read takes the next `width` of them. -/

namespace Sys2Proof.Machine

theorem execAll_cons {i : Instr} {s t : State} (h : exec i s = .next t) (is : List Instr) :
    execAll (i :: is) s = execAll is t := by
  simp only [execAll, h]

/-- The bits of a host's writes, one after the other. -/
def writesBits (ws : List (Code × BitVec 4)) : List Bool := ws.flatMap (fun cw => codeBits cw.1 cw.2.toNat)

theorem writesBits_cons (cw : Code × BitVec 4) (ws : List (Code × BitVec 4)) :
    writesBits (cw :: ws) = codeBits cw.1 cw.2.toNat ++ writesBits ws := rfl

theorem writesBits_append (as bs : List (Code × BitVec 4)) : writesBits (as ++ bs) = writesBits as ++ writesBits bs :=
  List.flatMap_append

theorem writesBits_length (ws : List (Code × BitVec 4)) :
    (writesBits ws).length = (ws.map (fun cw => cw.2.toNat)).sum := by
  simp [writesBits, List.length_flatMap]

/-! ## A packer run -/

/-- Writes of legal widths, one after the other, on a packer the host may use. -/
theorem execAll_pkWrites (ws : List (Code × BitVec 4)) (is : List Instr) {s : State} (hinv : PkInv s.pk)
    (hidle : s.encInProgress = false) (hresult : s.result = .none)
    (hlegal : ∀ cw ∈ ws, 1 ≤ cw.2.toNat ∧ cw.2.toNat ≤ 12) :
    ∃ p, execAll (ws.map (fun cw => .pkWrite cw.1 cw.2) ++ is) s = execAll is (s.setPk p) ∧ PkInv p ∧
      pkBits p = pkBits s.pk ++ writesBits ws := by
  induction ws generalizing s with
  | nil => exact ⟨s.pk, rfl, hinv, (List.append_nil _).symm⟩
  | cons cw ws ih =>
    have hhead := legalWidth_iff.mpr (hlegal cw (List.mem_cons_self ..))
    obtain ⟨hput, hbits, -⟩ := pkPutCode_spec s.pk cw.1 cw.2.toNat hinv
    have hexec : exec (.pkWrite cw.1 cw.2) s = .next (s.setPk (pkPutCode s.pk cw.1 cw.2.toNat)) := by
      have hkept : (s.setPk (pkPutCode s.pk cw.1 cw.2.toNat)).setResult .none =
          s.setPk (pkPutCode s.pk cw.1 cw.2.toNat) := hresult ▸ rfl
      exact ((execPkWrite_of_legal hhead cw.1 s).trans (hostPk_of_not_inProgress hidle _)).trans
        (congrArg Host.Outcome.next hkept)
    obtain ⟨p, hrun, hp, hpbits⟩ := ih (s := s.setPk (pkPutCode s.pk cw.1 cw.2.toNat)) hput hidle hresult
      fun cw' hmem => hlegal cw' (List.mem_cons_of_mem cw hmem)
    refine ⟨p, (execAll_cons hexec _).trans hrun, hp, ?_⟩
    rw [hpbits, setPk_pk, hbits, writesBits_cons, List.append_assoc]

/-- A whole packer run flushes a packer that has accepted the bits of its writes and nothing else. -/
theorem execAll_packerRun (ws : List (Code × BitVec 4)) {s : State} (hidle : s.encInProgress = false)
    (hlegal : ∀ cw ∈ ws, 1 ≤ cw.2.toNat ∧ cw.2.toNat ≤ 12) :
    ∃ p, execAll (.pkStart :: ws.map (fun cw => .pkWrite cw.1 cw.2) ++ [.pkFlush]) s =
        .next ((s.setPk (pkFlushed p)).setResult .none) ∧ PkInv p ∧ pkBits p = writesBits ws := by
  have hstart : exec .pkStart s = .next ((s.setPk (freshPk s.pk)).setResult .none) := hostPk_of_not_inProgress hidle _
  obtain ⟨p, hrun, hp, hbits⟩ := execAll_pkWrites ws [.pkFlush] (s := (s.setPk (freshPk s.pk)).setResult .none)
    (pkInv_fresh s.pk) hidle rfl hlegal
  have hflush : exec .pkFlush (((s.setPk (freshPk s.pk)).setResult .none).setPk p) =
      .next ((s.setPk (pkFlushed p)).setResult .none) := hostPk_of_not_inProgress hidle _
  exact ⟨p, (execAll_cons hstart _).trans (hrun.trans (execAll_cons hflush [])), hp, hbits⟩

/-- Settles O17: the flush pads the bits of the writes to whole bytes, and how many are pending follows from how many
there are. -/
theorem packerRunGivesTheConcatenatedCodes : Obligations.PackerRunGivesTheConcatenatedCodes := by
  intro s ws hidle hlegal
  obtain ⟨p, hrun, hp, hbits⟩ := execAll_packerRun ws hidle hlegal
  obtain ⟨-, -, -, hstream, -⟩ := pkFlushed_spec p hp
  have hlength := pkFlushed_length p hp
  rw [hp.cnt_eq, hbits, writesBits_length] at hstream
  rw [hbits, writesBits_length] at hlength
  exact ⟨_, hrun, hstream, hlength, rfl⟩

/-! ## An unpacker run -/

/-- A host's read takes the bits that stand first, as a number. -/
theorem exec_upRead_of_upBits {s : State} {width : BitVec 4} {bits rest : List Bool} (hinv : UpInv s.up)
    (heos : s.up.eos = false) (hidle : s.decInProgress = false) (hlegal : 1 ≤ width.toNat ∧ width.toNat ≤ 12)
    (hlength : bits.length = width.toNat) (hbits : upBits s.up = bits ++ rest) :
    ∃ c u, exec (.upRead width) s = .next ((s.setUp u).setResult (.code c)) ∧ c.toNat = bitsValue bits ∧ UpInv u ∧
      u.eos = false ∧ upBits u = rest := by
  obtain ⟨h1, h12⟩ := hlegal
  have henough : width.toNat ≤ (upBits s.up).length := by
    rw [hbits, List.length_append, hlength]
    exact Nat.le_add_right _ _
  obtain ⟨c, u, hread, hvalue, hdrop, hu, hu', -⟩ := upRead_some hinv heos h1 h12 henough
  rw [hbits, List.take_left' hlength] at hvalue
  rw [hbits, List.drop_left' hlength] at hdrop
  exact ⟨c, u, exec_upRead_of_upRead hidle h1 h12 hread, hvalue, hu, hu', hdrop⟩

/-- An unpacker the host may use, not at the end, that can deliver `bits`. -/
structure Delivers (s : State) (bits : List Bool) : Prop where
  inv : UpInv s.up
  eos : s.up.eos = false
  idle : s.decInProgress = false
  bits_eq : upBits s.up = bits

/-- Reads of the widths of some writes consume the bits of these writes. -/
theorem Delivers.execAll_upReads {s : State} {ws : List (Code × BitVec 4)} {rest : List Bool}
    (h : Delivers s (writesBits ws ++ rest)) (hlegal : ∀ cw ∈ ws, 1 ≤ cw.2.toNat ∧ cw.2.toNat ≤ 12)
    (is : List Instr) :
    ∃ q, execAll (ws.map (fun cw => .upRead cw.2) ++ is) s = execAll is q ∧ Delivers q rest := by
  induction ws generalizing s with
  | nil => exact ⟨s, rfl, h⟩
  | cons cw ws ih =>
    obtain ⟨hinv, heos, hidle, hbits⟩ := h
    rw [writesBits_cons, List.append_assoc] at hbits
    obtain ⟨c, u, hexec, -, hu, hu', hrest⟩ :=
      exec_upRead_of_upBits hinv heos hidle (hlegal cw (List.mem_cons_self ..)) (codeBits_length _ _) hbits
    obtain ⟨q, hrun, hq⟩ := ih (s := (s.setUp u).setResult (.code c)) ⟨hu, hu', hidle, hrest⟩
      fun cw' hmem => hlegal cw' (List.mem_cons_of_mem cw hmem)
    exact ⟨q, (execAll_cons hexec _).trans hrun, hq⟩

/-- After `UP.START` on an attached source the unpacker can deliver the bits of its bytes (R110). -/
theorem delivers_of_upStart {s : State} (hidle : s.decInProgress = false) (data : ByteSeq) :
    ∃ r, runEvents [.attachCompressed data] s = .next r ∧
      ∃ q, (∀ is, execAll (.upStart :: is) r = execAll is q) ∧ Delivers q (streamBits data) :=
  ⟨_, rfl, _, execAll_cons (hostUp_of_not_inProgress hidle _ _), upInv_restarted _, rfl, hidle, upBits_restarted _⟩

/-- A code that fits its width is what a read of its bits returns. -/
theorem Delivers.upRead_code {s : State} {c : Code} {v : BitVec 4} {rest : List Bool}
    (h : Delivers s (codeBits c v.toNat ++ rest)) (hlegal : 1 ≤ v.toNat ∧ v.toNat ≤ 12) (hfits : c.toNat < 2 ^ v.toNat) :
    ∃ q, execAll [.upRead v] s = .next q ∧ q.result = .code c := by
  obtain ⟨c', u, hexec, hvalue, -⟩ :=
    exec_upRead_of_upBits h.inv h.eos h.idle hlegal (codeBits_length _ _) h.bits_eq
  rw [bitsValue_codeBits_of_lt hfits] at hvalue
  obtain rfl := BitVec.eq_of_toNat_eq hvalue
  exact ⟨_, execAll_cons hexec [], rfl⟩

theorem codeBits_zero_code (w : Nat) : codeBits 0#12 w = List.replicate w false := by
  induction w with
  | zero => rfl
  | succ w ih => simp [codeBits, ih, List.replicate_succ]

/-- A read into the pad: `EOS` when it asks for more bits than the pad has, and otherwise code 0. -/
theorem Delivers.upRead_pad {s : State} {pad : Nat} {w : BitVec 4} (h : Delivers s (List.replicate pad false))
    (hlegal : 1 ≤ w.toNat ∧ w.toNat ≤ 12) :
    ∃ q, execAll [.upRead w] s = .next q ∧ q.result = if pad < w.toNat then .eos else .code 0#12 := by
  by_cases hfew : pad < w.toNat
  · have hshort : (upBits s.up).length < w.toNat := by rwa [h.bits_eq, List.length_replicate]
    obtain ⟨u, hread, -⟩ := upRead_none h.inv h.eos hshort
    rw [if_pos hfew]
    exact ⟨_, execAll_cons (exec_upRead_of_upRead h.idle hlegal.1 hlegal.2 hread) [], rfl⟩
  · rw [if_neg hfew]
    have hsplit : List.replicate pad false = codeBits 0#12 w.toNat ++ List.replicate (pad - w.toNat) false := by
      rw [codeBits_zero_code, List.replicate_append_replicate, Nat.add_sub_cancel' (Nat.not_lt.mp hfew)]
    exact (hsplit ▸ h).upRead_code hlegal (Nat.two_pow_pos _)

/-- Settles O21: the bytes of the packer run deliver the bits of the writes and the pad, and the reads before consume
those of the writes before. -/
theorem bitChannelRoundTrip : Obligations.BitChannelRoundTrip := by
  intro s t ws w hidle hfree hwrites h1 h12 hrun
  have hlegal : ∀ cw ∈ ws, 1 ≤ cw.2.toNat ∧ cw.2.toNat ≤ 12 := fun cw hmem => (hwrites cw hmem).imp_right And.left
  obtain ⟨t', ht', hstream, -, hframe⟩ := packerRunGivesTheConcatenatedCodes s ws hidle hlegal
  cases ht'.symm.trans hrun
  have hfree' : t.decInProgress = false := by
    rw [hframe]
    exact hfree
  obtain ⟨r, hattach, q, hstart, hq⟩ := delivers_of_upStart hfree' t.pk.out.data
  rw [hstream, ← writesBits] at hq
  refine ⟨fun as bs c v hws => ⟨r, hattach, ?_⟩, r, hattach, ?_⟩
  · obtain ⟨hv, hv', hfits⟩ := hwrites (c, v) (hws ▸ List.mem_append_right as (List.mem_cons_self ..))
    rw [hws, writesBits_append, writesBits_cons, List.append_assoc, List.append_assoc] at hq
    obtain ⟨q', hreads, hq'⟩ :=
      hq.execAll_upReads (fun cw hmem => hlegal cw (hws ▸ List.mem_append_left _ hmem)) [.upRead v]
    obtain ⟨x, hlast, hresult⟩ := hq'.upRead_code ⟨hv, hv'⟩ hfits
    exact ⟨x, (hstart _).trans (hreads.trans hlast), hresult⟩
  · obtain ⟨q', hreads, hq'⟩ := hq.execAll_upReads hlegal [.upRead w]
    obtain ⟨x, hlast, hresult⟩ := hq'.upRead_pad ⟨h1, h12⟩
    exact ⟨x, (hstart _).trans (hreads.trans hlast), hresult⟩

end Sys2Proof.Machine
end

section
/-! What the specification infers of a good coder: the codes the encoder writes fit their width (42_lzw_encoder.md R131),
its matches are the longest ones (R128), and a full decoder accepts every code (43_lzw_decoder.md, corruption detection
is partial). -/

namespace Sys2Proof.Machine

/-! ## The encoder -/

theorem encEmitted_width {e : Enc} (h : EncInv e) : (encEmitted e).2 = widthFor e.nextCode := h.width_eq

/-- Settles O31: the code is that of a present entry, so it is below the count, and the width is the one that belongs to
the count. -/
theorem encoderCodesFitTheirWidth : Obligations.EncoderCodesFitTheirWidth := by
  intro e hinv hm
  have hcode := encEmitted_lt_next hinv hm
  obtain ⟨hcount, hroom⟩ := le_two_pow_widthFor hinv.next_le.2
  rw [← encEmitted_width hinv] at hcount hroom
  refine ⟨hcode, hcount, by omega, fun hw => ?_⟩
  have hnarrow : (encEmitted e).2.toNat < 12 := by
    cases h : (encEmitted e).2 with
    | w12 => exact absurd h hw
    | _ => decide
  have := hroom hnarrow
  omega

/-- A byte makes the encoder write only when the candidate is no key (R123). -/
theorem encAccept_out_candidate {e e' : Enc} {b : Byte} {out : Code × CodeWidth}
    (h : encAccept e b = (e', some out)) : e.curMatch ≠ [] ∧ e.dict.isKey (e.curMatch ++ [b]) = false := by
  rcases encAccept_cases e b with ⟨-, heq⟩ | ⟨-, -, heq⟩ | ⟨hm, hnokey, -⟩
  · cases heq.symm.trans h
  · cases heq.symm.trans h
  · exact ⟨hm, hnokey⟩

/-- Settles O32: every beginning of a key is a key, so a longer key would make the candidate a key. -/
theorem encoderMatchIsGreedy : Obligations.EncoderMatchIsGreedy := by
  intro e e' b out hinv haccept
  obtain ⟨hm, hnokey⟩ := encAccept_out_candidate haccept
  refine ⟨hinv.match_isKey hm, ?_⟩
  rintro _ ⟨rest, rfl⟩
  rw [← Bool.not_eq_true] at hnokey ⊢
  exact fun hkey => hnokey (isKey_of_beginning hinv.dict_wf hinv.ext (List.concat_ne_nil _ _) rest hkey)

/-! ## The decoder -/

/-- Before the first code of a stream nothing has been learned. -/
theorem DecInv.prev_of_full {d : Dec} (h : DecInv d) (hfull : d.nextCode = 4096) : ∃ p, d.prev = some p := by
  cases hprev : d.prev with
  | some p => exact ⟨p, rfl⟩
  | none =>
    have hnext := h.next_eq
    rw [(h.undef_fresh hprev).1, hfull] at hnext
    cases hnext

/-- Settles O47: every code is below the count, so it resolves, and at capacity nothing is inserted. -/
theorem fullDecoderAcceptsEveryCode : Obligations.FullDecoderAcceptsEveryCode := by
  intro s w c hinv hfull hrun hwidth hfits
  obtain ⟨p, hprev⟩ := hinv.dec.prev_of_full hfull
  have hc : c.toNat ≤ s.dec.nextCode := hfull ▸ c.isLt.le
  obtain ⟨-, x, -, e', -, hresolve, -⟩ := decResolve_of_le hinv.dec hprev hc
  obtain ⟨-, hfrozen, -⟩ := decLearn_registers s.dec p x e'
  have hexec : exec (instrOfCode w c) s = .next ((s.setDec (decLearn s.dec p (x :: e'))).setResult .continue) :=
    (exec_instrOfCode hfits s).trans (receiveCodeWord_next.mpr ⟨hwidth, hrun, decReceive_later hprev hresolve⟩)
  exact ⟨_, hexec, rfl, (decLearn_frame s.dec p _).1.trans hrun, (hfrozen hfull).1⟩

end Sys2Proof.Machine
end

section
/-! The two pipelines commute (00_scope.md, interleaving of the two agents). An instruction of one pipeline reads that
pipeline's units and nothing else, and answers with new units and a result; so after an instruction of the other
pipeline, which leaves these units alone, it does the same. -/

namespace Sys2Proof.Machine

/-! ## The compressor reads its own units -/

/-- The compressor's units and the results are the same in both states. -/
structure SameCompression (s t : State) : Prop where
  pk : s.pk = t.pk
  enc : s.enc = t.enc
  result : s.result = t.result

section
variable {s s' : State}

theorem hostPk_congr {t : State} {p p' : Pk} (hp : p = p') (henc : s.enc = s'.enc) (h : hostPk s p = .next t) :
    ∃ t', hostPk s' p' = .next t' ∧ SameCompression t' t := by
  obtain ⟨hidle, rfl⟩ := hostPk_next.mp h
  have hidle' : s'.encInProgress = false := by rwa [State.encInProgress, ← henc]
  exact ⟨_, hostPk_next.mpr ⟨hidle', rfl⟩, hp.symm, henc.symm, rfl⟩

theorem requireEncRun_congr {t r r' : State} (henc : s.enc = s'.enc) (hpkr : r.pk = r'.pk) (hencr : r.enc = r'.enc)
    (h : requireEncRun s r = .next t) : ∃ t', requireEncRun s' r' = .next t' ∧ SameCompression t' t := by
  obtain ⟨hrun, rfl⟩ := requireEncRun_next.mp h
  exact ⟨_, requireEncRun_next.mpr ⟨henc ▸ hrun, rfl⟩, hpkr.symm, hencr.symm, rfl⟩

theorem compress_congr {t : State} (hpk : s.pk = s'.pk) (henc : s.enc = s'.enc) (h : exec .compress s = .next t) :
    ∃ t', exec .compress s' = .next t' ∧ SameCompression t' t := by
  obtain ⟨u, hu, -, hupk, huenc, -, -, -, hures⟩ := execCompress_spec s
  obtain ⟨u', hu', -, hupk', huenc', -, -, -, hures'⟩ := execCompress_spec s'
  cases hu.symm.trans h
  refine ⟨u', hu', ?_, ?_, hures'.trans hures.symm⟩
  · rw [hupk', hupk, hpk, henc]
  · rw [huenc', huenc, henc]

/-- An instruction of the compressor does the same in every state with the same packer and encoder. -/
theorem exec_congr_of_ofCompressor {i : Instr} {t : State} (hi : ofCompressor i = true) (hpk : s.pk = s'.pk)
    (henc : s.enc = s'.enc) (h : exec i s = .next t) : ∃ t', exec i s' = .next t' ∧ SameCompression t' t := by
  cases i with
  | pkStart => exact hostPk_congr (congrArg freshPk hpk) henc h
  | pkWrite code width =>
    obtain ⟨hlegal, hgate⟩ := execPkWrite_next.mp h
    obtain ⟨t', hgate', hsame⟩ := hostPk_congr (congrArg (fun p => pkPutCode p code width.toNat) hpk) henc hgate
    exact ⟨t', execPkWrite_next.mpr ⟨hlegal, hgate'⟩, hsame⟩
  | pkFlush => exact hostPk_congr (congrArg pkFlushed hpk) henc h
  | encStart =>
    cases h
    exact ⟨_, rfl, congrArg freshPk hpk.symm, congrArg restartedEnc henc.symm, rfl⟩
  | encByte b =>
    refine requireEncRun_congr henc ?_ ?_ h
    · simp only [encByteRun, setPk_pk, hpk, henc]
    · simp only [encByteRun, setPk_enc, setEnc_enc, henc]
  | encEnd =>
    refine requireEncRun_congr henc ?_ ?_ h
    · simp only [encEndRun_eq, setEnc_pk, setPk_pk, hpk, henc]
    · simp only [encEndRun_eq, setEnc_enc, henc]
  | encAbort =>
    exact requireEncRun_congr henc (congrArg pkFlushed hpk) (congrArg (fun e : Enc => { e with phase := .done }) henc) h
  | compress => exact compress_congr hpk henc h
  | _ => cases hi

/-! ## The decompressor reads its own units -/

/-- The decompressor's units and the results are the same in both states. -/
structure SameDecompression (s t : State) : Prop where
  up : s.up = t.up
  dec : s.dec = t.dec
  result : s.result = t.result

theorem hostUp_congr {t : State} {u u' : Up} {r r' : OpResult} (hu : u = u') (hr : r = r') (hdec : s.dec = s'.dec)
    (h : hostUp s u r = .next t) : ∃ t', hostUp s' u' r' = .next t' ∧ SameDecompression t' t := by
  obtain ⟨hidle, rfl⟩ := hostUp_next.mp h
  have hidle' : s'.decInProgress = false := by rwa [State.decInProgress, ← hdec]
  exact ⟨_, hostUp_next.mpr ⟨hidle', rfl⟩, hu.symm, hdec.symm, hr.symm⟩

theorem decReceive_congr (c : Code) (hup : s.up = s'.up) (hdec : s.dec = s'.dec) :
    SameDecompression (decReceive c s') (decReceive c s) := by
  obtain ⟨-, hup₁, -⟩ := decReceive_frame c s
  obtain ⟨-, hup₂, -⟩ := decReceive_frame c s'
  refine ⟨hup₂.trans (hup.symm.trans hup₁.symm), ?_, ?_⟩ <;> rw [decReceive_eq, decReceive_eq, hdec] <;>
    cases decTakes s'.dec c <;> simp [raiseDecodeError, hdec]

theorem decStepRun_sameDecompression (hup : s.up = s'.up) (hdec : s.dec = s'.dec) :
    SameDecompression (decStepRun s') (decStepRun s) := by
  rcases decStepRun_cases s with ⟨u, hread, heq⟩ | ⟨c, u, hread, heq⟩
  · rw [hup, hdec] at hread
    rw [heq]
    simp only [decStepRun, hread, setUp_dec, hdec]
    exact ⟨rfl, rfl, rfl⟩
  · rw [hup, hdec] at hread
    rw [heq]
    simp only [decStepRun, hread]
    exact decReceive_congr c rfl hdec

theorem decompressLoop_congr (n : Nat) {t : State} (hup : s.up = s'.up) (hdec : s.dec = s'.dec)
    (h : decompressLoop n s = .next t) : ∃ t', decompressLoop n s' = .next t' ∧ SameDecompression t' t := by
  induction n generalizing s s' with
  | zero => cases h
  | succ n ih =>
    have hstep := decStepRun_sameDecompression hup hdec
    simp only [decompressLoop, hstep.result] at h ⊢
    split at h
    · rename_i hcontinue
      rw [if_pos hcontinue]
      exact ih hstep.up.symm hstep.dec.symm h
    · rename_i hstop
      cases h
      rw [if_neg hstop]
      exact ⟨_, rfl, hstep⟩

theorem receiveCodeWord_congr {t : State} {w : CodeWidth} {c : Code} (hup : s.up = s'.up) (hdec : s.dec = s'.dec)
    (h : receiveCodeWord w c s = .next t) : ∃ t', receiveCodeWord w c s' = .next t' ∧ SameDecompression t' t := by
  obtain ⟨hwidth, hrun, rfl⟩ := receiveCodeWord_next.mp h
  exact ⟨_, receiveCodeWord_next.mpr ⟨hdec ▸ hwidth, hdec ▸ hrun, rfl⟩, decReceive_congr c hup hdec⟩

/-- An instruction of the decompressor does the same in every state with the same unpacker and decoder. -/
theorem exec_congr_of_ofDecompressor {j : Instr} {t : State} (hj : ofDecompressor j = true) (hup : s.up = s'.up)
    (hdec : s.dec = s'.dec) (h : exec j s = .next t) : ∃ t', exec j s' = .next t' ∧ SameDecompression t' t := by
  cases j with
  | upStart => exact hostUp_congr (congrArg restartedUp hup) rfl hdec h
  | upRead width =>
    obtain ⟨hlegal, hgate⟩ := execUpRead_next.mp h
    rw [hup] at hgate
    obtain ⟨t', hgate', hsame⟩ := hostUp_congr rfl rfl hdec hgate
    exact ⟨t', execUpRead_next.mpr ⟨hlegal, hgate'⟩, hsame⟩
  | decStart =>
    cases h
    exact ⟨_, rfl, congrArg restartedUp hup.symm, congrArg freshDec hdec.symm, rfl⟩
  | decStep =>
    obtain ⟨hrun, rfl⟩ := requireDecRun_next.mp h
    exact ⟨_, requireDecRun_next.mpr ⟨hdec ▸ hrun, rfl⟩, decStepRun_sameDecompression hup hdec⟩
  | decompress =>
    have hup' : (startDec s).up = (startDec s').up := congrArg restartedUp hup
    change decompressLoop (upBitsAvailable (startDec s).up + 1) (startDec s) = .next t at h
    rw [hup'] at h
    exact decompressLoop_congr _ hup' (congrArg freshDec hdec) h
  | w9Lit _ | w9Dict _ | w10Lit _ | w10Dict _ | w11Lit _ | w11Dict _ | w12Lit _ | w12Dict _ =>
    exact receiveCodeWord_congr hup hdec h
  | _ => cases hj

end

/-! ## Both orders -/

/-- Settles O54: each instruction finds its units as they were and leaves the other's as they are, so both orders end
with the same four units; the result is that of the last one. -/
theorem pipelinesCommute : Obligations.PipelinesCommute := by
  intro i j s t u hi hj ht hu
  have hframe := sameDecompressor_of_exec hi ht
  have hframe' := sameCompressor_of_exec hj hu
  obtain ⟨v, hv, hsame⟩ := exec_congr_of_ofDecompressor hj hframe.up.symm hframe.dec.symm hu
  obtain ⟨w, hw, hsame'⟩ := exec_congr_of_ofCompressor hi hframe'.pk.symm hframe'.enc.symm ht
  have hlast := sameCompressor_of_exec hj hv
  have hlast' := sameDecompressor_of_exec hi hw
  refine ⟨v, w, hv, hw, state_ext ?_ ?_ ?_ ?_ rfl ?_, hsame.result, hsame'.result⟩
  · exact hlast.pk.trans hsame'.pk.symm
  · exact hsame.up.trans hlast'.up.symm
  · exact hlast.enc.trans hsame'.enc.symm
  · exact hsame.dec.trans hlast'.dec.symm
  · exact hlast.events.trans (hframe.events.trans (hlast'.events.trans hframe'.events).symm)

end Sys2Proof.Machine
end

section
/-! The compact form of the two coders (10_state.md R35, R40, R41; 42_lzw_encoder.md R124). Links stand for a dictionary,
in which a code names the sequence of its walk; with distinct links a sequence has one code, so looking for a link is
looking for a key. Adding a link is adding the entry it stands for, hence both forms of a coder go on in step. -/

namespace Sys2Proof.Machine

/-! ## The dictionary that good links stand for -/

section
variable {l : Links} {n : Nat} (h : LinksInv l n)
include h

theorem LinksInv.points_earlier : l.Earlier := h.earlier

theorem LinksInv.length_le : 256 + l.length ≤ 4096 := h.next_eq ▸ h.next_le

theorem LinksInv.lt_length {c : Code} (hc : c.toNat < n) : c.toNat < 256 + l.length := h.next_eq ▸ hc

theorem LinksInv.toDict_seqOf? {c : Code} (hc : c.toNat < n) : l.toDict.seqOf? c = some (l.seqOf c) :=
  Machine.toDict_seqOf? h.length_le (h.lt_length hc)

/-- A code is present exactly when the dictionary holds it, and then it names the sequence of its walk (R40). -/
theorem LinksInv.toDict_seqOf?_iff {c : Code} {k : ByteSeq} :
    l.toDict.seqOf? c = some k ↔ c.toNat < n ∧ l.seqOf c = k := by
  refine ⟨fun hseq => ?_, fun ⟨hc, hseq⟩ => hseq ▸ h.toDict_seqOf? hc⟩
  have hlt := seqOf?_lt (toDict_wf h.length_le) hseq
  rw [toDict_length] at hlt
  have hc : c.toNat < n := h.next_eq ▸ hlt
  exact ⟨hc, Option.some.inj ((h.toDict_seqOf? hc).symm.trans hseq)⟩

/-- A key of the dictionary is the sequence of a present code. -/
theorem LinksInv.toDict_isKey_iff {k : ByteSeq} :
    l.toDict.isKey k = true ↔ ∃ c : Code, c.toNat < n ∧ l.seqOf c = k :=
  (isKey_iff (toDict_wf h.length_le)).trans (exists_congr fun _ => h.toDict_seqOf?_iff)

/-- The code of a link, and what it names. -/
theorem LinksInv.codeOfCount_link {i : Nat} {c : Code} {b : Byte} (hi : l[i]? = some (c, b)) :
    (codeOfCount (256 + i)).toNat < n ∧ l.seqOf (codeOfCount (256 + i)) = l.seqOf c ++ [b] := by
  have hlt : i < l.length := (List.getElem?_eq_some_iff.mp hi).1
  have hlength := h.length_le
  have hcode : (codeOfCount (256 + i)).toNat = 256 + i := codeOfCount_toNat (by omega)
  have hnext : n = 256 + l.length := h.next_eq
  refine ⟨by omega, Links.seqOf_link h.points_earlier (by omega) ?_⟩
  rwa [hcode, Nat.add_sub_cancel_left]

/-- One more link, to a present code, below capacity. -/
theorem LinksInv.snoc (hlt : n < 4096) {c : Code} (hc : c.toNat < n) (b : Byte) : LinksInv (l ++ [(c, b)]) (n + 1) := by
  have hnext : n = 256 + l.length := h.next_eq
  refine ⟨?_, hlt, Links.earlier_append h.points_earlier b (h.lt_length hc)⟩
  rw [List.length_append, List.length_singleton, ← Nat.add_assoc, hnext]

/-- One more link stands for one more entry. -/
theorem LinksInv.toDict_snoc (hlt : n < 4096) {c : Code} (hc : c.toNat < n) (b : Byte) :
    Links.toDict (l ++ [(c, b)]) = l.toDict.insert (codeOfCount n) (l.seqOf c ++ [b]) := by
  obtain rfl : n = 256 + l.length := h.next_eq
  exact toDict_append h.points_earlier b hc hlt

/-- The new link's code names the new entry. -/
theorem LinksInv.seqOf_snoc_new (hlt : n < 4096) {c c' : Code} (hc : c.toNat < n) (hc' : c'.toNat = n) (b : Byte) :
    Links.seqOf (l ++ [(c, b)]) c' = l.seqOf c ++ [b] := by
  have hnext : n = 256 + l.length := h.next_eq
  have hget : (l ++ [(c, b)])[c'.toNat - 256]? = some (c, b) := by
    rw [show c'.toNat - 256 = l.length by omega, List.getElem?_concat_length]
  rw [Links.seqOf_link (h.snoc hlt hc b).points_earlier (by omega) hget,
    Links.seqOf_append h.points_earlier _ (h.lt_length hc)]

/-- "At most one answer because keys are unique" (R35). -/
theorem LinksInv.seqOf_injective (hnodup : l.Nodup) {c c' : Code} (hc : c.toNat < n) (hc' : c'.toNat < n)
    (heq : l.seqOf c = l.seqOf c') : c = c' :=
  Links.seqOf_injective h.points_earlier hnodup n c c' hc (h.lt_length hc) (h.lt_length hc') heq

/-- The dictionary gives a present code back for its sequence. -/
theorem LinksInv.toDict_codeOf (hnodup : l.Nodup) {c : Code} (hc : c.toNat < n) : l.toDict.codeOf (l.seqOf c) = c := by
  have hseq := codeOf_seq (toDict_wf h.length_le) (h.toDict_isKey_iff.mpr ⟨c, hc, rfl⟩)
  obtain ⟨hlt, heq⟩ := h.toDict_seqOf?_iff.mp hseq
  exact h.seqOf_injective hnodup hlt hc heq

/-- The sequence of a present code with one byte appended is a key exactly when its link is there (R35). -/
theorem LinksInv.toDict_isKey_snoc_iff (hnodup : l.Nodup) {c : Code} (hc : c.toNat < n) (b : Byte) :
    l.toDict.isKey (l.seqOf c ++ [b]) = true ↔ (c, b) ∈ l := by
  rw [h.toDict_isKey_iff, List.mem_iff_getElem?]
  constructor
  · rintro ⟨c', hc', hseq⟩
    have hlearned : 256 ≤ c'.toNat := by
      by_contra hlit
      rw [l.seqOf_literal (Nat.not_le.mp hlit)] at hseq
      obtain ⟨hnil, -⟩ := List.append_inj' (s₁ := []) hseq rfl
      exact Links.seqOf_ne_nil h.points_earlier (h.lt_length hc) hnil.symm
    obtain ⟨⟨p, b'⟩, hlink⟩ := Links.link_at hlearned (h.lt_length hc')
    have hp : p.toNat < n := by
      have hp : p.toNat < 256 + (c'.toNat - 256) := h.earlier _ _ hlink
      omega
    rw [Links.seqOf_link h.points_earlier hlearned hlink] at hseq
    obtain ⟨hprefix, hbyte⟩ := List.append_inj' hseq rfl
    obtain rfl := h.seqOf_injective hnodup hp hc hprefix
    obtain rfl := List.singleton_inj.mp hbyte
    exact ⟨_, hlink⟩
  · rintro ⟨i, hi⟩
    exact ⟨_, h.codeOfCount_link hi⟩

theorem LinksInv.literal_lt {c : Code} (hc : c.toNat < 256) : c.toNat < n := by
  have hnext : n = 256 + l.length := h.next_eq
  omega

end

/-! ## The encoder -/

/-- The compact encoder after it has learned a link, below capacity (R123 (ii), (iii), R124). -/
def CompactEnc.learned (k : CompactEnc) (c : Code) (b : Byte) : CompactEnc :=
  if k.nextCode < Config.capacity then
    { k with
      links := k.links ++ [(c, b)]
      nextCode := k.nextCode + 1
      width := nextWidth k.width (k.nextCode + 1) Config.maxWidth }
  else k

/-- Every case of `ENC.BYTE` in compact form (R122, R124). -/
theorem compactAccept_cases (k : CompactEnc) (b : Byte) :
    (k.cur = none ∧ compactAccept k b = ({ k with cur := some (literalCode b) }, none)) ∨
      (∃ c i, k.cur = some c ∧ k.links[i]? = some (c, b) ∧
        compactAccept k b = ({ k with cur := some (codeOfCount (256 + i)) }, none)) ∨
      (∃ c, k.cur = some c ∧ (c, b) ∉ k.links ∧
        compactAccept k b = ({ k.learned c b with cur := some (literalCode b) }, some (c, k.width))) := by
  cases hcur : k.cur with
  | none => exact .inl ⟨rfl, by simp [compactAccept, hcur]⟩
  | some c =>
    refine .inr ?_
    cases hfind : k.links.findIdx? (fun l => l.1 == c && l.2 == b) with
    | some i =>
      obtain ⟨hi, hlink, -⟩ := List.findIdx?_eq_some_iff_getElem.mp hfind
      have hget : k.links[i] = (c, b) := by simpa [Prod.ext_iff] using hlink
      exact .inl ⟨c, i, rfl, hget ▸ List.getElem?_eq_getElem hi, by simp [compactAccept, hcur, hfind]⟩
    | none =>
      have habsent := List.findIdx?_eq_none_iff.mp hfind
      refine .inr ⟨c, rfl, fun hmem => ?_, ?_⟩
      · simpa using habsent _ hmem
      · simp only [compactAccept, hcur, hfind, CompactEnc.learned]

theorem CompactEnc.learned_lt {k : CompactEnc} (h : k.nextCode < 4096) (c : Code) (b : Byte) :
    k.learned c b =
      { k with
        links := k.links ++ [(c, b)]
        nextCode := k.nextCode + 1
        width := nextWidth k.width (k.nextCode + 1) Config.maxWidth } := if_pos h

theorem CompactEnc.learned_ge {k : CompactEnc} (h : 4096 ≤ k.nextCode) (c : Code) (b : Byte) : k.learned c b = k :=
  if_neg (Nat.not_lt.mpr h)

theorem CompactEnc.toEnc_match {k : CompactEnc} {c : Code} (h : k.cur = some c) (phase : EncPhase) (src : Source) :
    (k.toEnc phase src).curMatch = k.links.seqOf c := by
  simp only [CompactEnc.toEnc, h]

theorem Links.seqOf_literalCode (l : Links) (b : Byte) : l.seqOf (literalCode b) = [b] := by
  rw [l.seqOf_literal (literalCode_toNat b ▸ b.isLt), literalCode_setWidth]

/-- With the match a single byte, the compact encoder stands for the encoder with that match. -/
theorem CompactEnc.toEnc_seeded (k : CompactEnc) (b : Byte) (phase : EncPhase) (src : Source) :
    CompactEnc.toEnc { k with cur := some (literalCode b) } phase src = { k.toEnc phase src with curMatch := [b] } := by
  simp only [CompactEnc.toEnc, Links.seqOf_literalCode]

/-- Learning a link is learning the candidate (R123 (ii), (iii)). -/
theorem CompactEncInv.toEnc_learned {k : CompactEnc} (h : CompactEncInv k) {c : Code} (hc : c.toNat < k.nextCode) (b : Byte)
    (phase : EncPhase) (src : Source) :
    CompactEnc.toEnc { k.learned c b with cur := some (literalCode b) } phase src =
      { encLearn (k.toEnc phase src) (k.links.seqOf c ++ [b]) with curMatch := [b] } := by
  rw [CompactEnc.toEnc_seeded]
  by_cases hlt : k.nextCode < 4096
  · rw [k.learned_lt hlt, encLearn_lt (e := k.toEnc phase src) _ hlt]
    simp only [CompactEnc.toEnc, h.links.toDict_snoc hlt hc b]
  · have hge := Nat.not_lt.mp hlt
    rw [k.learned_ge hge, encLearn_ge (e := k.toEnc phase src) _ hge]

/-- Another match that names a present code. -/
theorem CompactEncInv.withCur {k : CompactEnc} (h : CompactEncInv k) {c : Code} (hc : c.toNat < k.nextCode) :
    CompactEncInv { k with cur := some c } :=
  ⟨h.links, h.nodup, h.width_eq, fun _ hcur => Option.some.inj hcur ▸ hc⟩

theorem CompactEncInv.learned {k : CompactEnc} (h : CompactEncInv k) {c : Code} (hcur : k.cur = some c) {b : Byte}
    (hnew : (c, b) ∉ k.links) : CompactEncInv (k.learned c b) := by
  have hc := h.cur_lt c hcur
  by_cases hlt : k.nextCode < 4096
  · rw [k.learned_lt hlt]
    have hnodup : (k.links ++ [(c, b)]).Nodup := List.concat_eq_append ▸ h.nodup.concat hnew
    refine ⟨h.links.snoc hlt hc b, hnodup, ?_, fun c' hc' => (h.cur_lt c' hc').trans (Nat.lt_succ_self _)⟩
    rw [h.width_eq]
    exact nextWidth_widthFor hlt.le
  · rw [k.learned_ge (Nat.not_lt.mp hlt)]
    exact h

/-- A match that names a present code is not empty. -/
theorem CompactEncInv.toEnc_match_ne {k : CompactEnc} (h : CompactEncInv k) {c : Code} (hcur : k.cur = some c)
    (phase : EncPhase) (src : Source) : (k.toEnc phase src).curMatch ≠ [] := by
  rw [k.toEnc_match hcur]
  exact Links.seqOf_ne_nil h.links.points_earlier (h.links.lt_length (h.cur_lt c hcur))

/-- "`cand` is a key" is "there is a link" (R123, R124). -/
theorem CompactEncInv.toEnc_isKey_iff {k : CompactEnc} (h : CompactEncInv k) {c : Code} (hcur : k.cur = some c) (b : Byte)
    (phase : EncPhase) (src : Source) :
    (k.toEnc phase src).dict.isKey ((k.toEnc phase src).curMatch ++ [b]) = true ↔ (c, b) ∈ k.links := by
  rw [k.toEnc_match hcur]
  exact h.links.toDict_isKey_snoc_iff h.nodup (h.cur_lt c hcur) b

/-- The code written for the match is the one the compact form holds. -/
theorem CompactEncInv.encEmitted_toEnc {k : CompactEnc} (h : CompactEncInv k) {c : Code} (hcur : k.cur = some c)
    (phase : EncPhase) (src : Source) : encEmitted (k.toEnc phase src) = (c, k.width) := by
  rw [encEmitted, k.toEnc_match hcur]
  exact congrArg (·, k.width) (h.links.toDict_codeOf h.nodup (h.cur_lt c hcur))

/-- Settles O55: with no match the byte seeds it; a link that is there is a key that is there, and its code names the
candidate; a link that is not there is learned with its entry, and the code written is that of the match. -/
theorem compactEncoderAgrees : Obligations.CompactEncoderAgrees := by
  intro k b phase src h
  have hbyte : (literalCode b).toNat < 256 := literalCode_toNat b ▸ b.isLt
  rcases compactAccept_cases k b with ⟨hcur, heq⟩ | ⟨c, i, hcur, hlink, heq⟩ | ⟨c, hcur, hnew, heq⟩ <;> rw [heq]
  · have hseed : (k.toEnc phase src).curMatch = [] := by simp only [CompactEnc.toEnc, hcur]
    refine ⟨?_, h.withCur (h.links.literal_lt hbyte)⟩
    rw [encAccept_seeds hseed, CompactEnc.toEnc_seeded]
  · have hkey := (h.toEnc_isKey_iff hcur b phase src).mpr (List.mem_of_getElem? hlink)
    obtain ⟨hcode, hseq⟩ := h.links.codeOfCount_link hlink
    refine ⟨?_, h.withCur hcode⟩
    rw [encAccept_extends (h.toEnc_match_ne hcur phase src) hkey, k.toEnc_match hcur, ← hseq]
    rfl
  · have hnokey := Bool.eq_false_iff.mpr (mt (h.toEnc_isKey_iff hcur b phase src).mp hnew)
    have hlearned := h.learned hcur hnew
    refine ⟨?_, hlearned.withCur (hlearned.links.literal_lt hbyte)⟩
    rw [encAccept_emits (h.toEnc_match_ne hcur phase src) hnokey, h.encEmitted_toEnc hcur, k.toEnc_match hcur,
      h.toEnc_learned (h.cur_lt c hcur)]

/-! ## The decoder -/

/-- The sequence that a later code names at a compact decoder (R143 step 3). -/
def CompactDec.resolved (k : CompactDec) (p : ByteSeq) (c : Code) : ByteSeq :=
  if c.toNat = k.nextCode then p ++ [firstByte p] else k.links.seqOf c

/-- The compact decoder after it has learned from a later code (R143 steps 5 to 7, R145). -/
def CompactDec.learned (k : CompactDec) (pc : Code) (x : Byte) (c : Code) : CompactDec :=
  if k.nextCode < Config.capacity then
    { links := k.links ++ [(pc, x)]
      nextCode := k.nextCode + 1
      width := nextWidth k.width (k.nextCode + 2) Config.maxWidth
      prevcode := some c }
  else { k with width := nextWidth k.width (k.nextCode + 1) Config.maxWidth, prevcode := some c }

theorem CompactDec.learned_lt {k : CompactDec} (h : k.nextCode < 4096) (pc : Code) (x : Byte) (c : Code) :
    k.learned pc x c =
      { links := k.links ++ [(pc, x)]
        nextCode := k.nextCode + 1
        width := nextWidth k.width (k.nextCode + 2) Config.maxWidth
        prevcode := some c } := if_pos h

theorem CompactDec.learned_ge {k : CompactDec} (h : 4096 ≤ k.nextCode) (pc : Code) (x : Byte) (c : Code) :
    k.learned pc x c = { k with width := nextWidth k.width (k.nextCode + 1) Config.maxWidth, prevcode := some c } :=
  if_neg (Nat.not_lt.mpr h)

/-- What the compact decoder does with a code, case by case (R142, R143). -/
theorem compactReceive_cases (k : CompactDec) (c : Code) :
    (k.prevcode = none ∧ c.toNat < 256 ∧
        compactReceive k c = some ({ k with prevcode := some c }, k.links.seqOf c)) ∨
      (k.prevcode = none ∧ 256 ≤ c.toNat ∧ compactReceive k c = none) ∨
      (∃ pc, k.prevcode = some pc ∧ c.toNat ≤ k.nextCode ∧
        compactReceive k c = some (k.learned pc (firstByte (k.resolved (k.links.seqOf pc) c)) c,
          k.resolved (k.links.seqOf pc) c)) ∨
      (∃ pc, k.prevcode = some pc ∧ k.nextCode < c.toNat ∧ compactReceive k c = none) := by
  cases hprev : k.prevcode with
  | none =>
    by_cases hlit : c.toNat < 256
    · exact .inl ⟨rfl, hlit, by simp [compactReceive, hprev, Config.firstCode, hlit]⟩
    · have hlearned := Nat.not_lt.mp hlit
      exact .inr (.inl ⟨rfl, hlearned, by simp [compactReceive, hprev, Config.firstCode, hlearned]⟩)
  | some pc =>
    by_cases hlarge : k.nextCode < c.toNat
    · exact .inr (.inr (.inr ⟨pc, rfl, hlarge, by simp [compactReceive, hprev, hlarge]⟩))
    · refine .inr (.inr (.inl ⟨pc, rfl, Nat.not_lt.mp hlarge, ?_⟩))
      simp only [compactReceive, hprev, if_neg hlarge, CompactDec.resolved, CompactDec.learned]
      by_cases hcap : k.nextCode < Config.capacity <;> simp only [hcap, if_true, if_false]

/-- The decoder that has emitted `e`, its other registers as they were. -/
def Dec.emitting (d : Dec) (e : ByteSeq) : Dec := { d with out := { d.out with data := d.out.data ++ e } }

/-- A later code resolves to the same sequence in both forms (R143 step 3). -/
theorem CompactDecInv.decResolve_toDec {k : CompactDec} (h : CompactDecInv k) (d : Dec) (p : ByteSeq) {c : Code}
    (hc : c.toNat ≤ k.nextCode) : decResolve (k.toDec d) p c = some (k.resolved p c) := by
  rcases Nat.lt_or_eq_of_le hc with hlt | heq
  · have hpresent : (k.toDec d).dict.seqOf c = k.links.seqOf c := seqOf_of_some (h.links.toDict_seqOf? hlt)
    rw [decResolve, if_pos (show c.toNat < (k.toDec d).nextCode from hlt), hpresent, CompactDec.resolved,
      if_neg hlt.ne]
  · rw [decResolve, if_neg (show ¬ c.toNat < (k.toDec d).nextCode from heq.not_lt),
      if_pos (show c.toNat = (k.toDec d).nextCode from heq), CompactDec.resolved, if_pos heq]

/-- After learning, the code received names the sequence emitted, also the one that has just become present (KWKWK). -/
theorem CompactDecInv.seqOf_learned {k : CompactDec} (h : CompactDecInv k) {pc : Code} (hprev : k.prevcode = some pc)
    {c : Code} (hc : c.toNat ≤ k.nextCode) :
    (k.learned pc (firstByte (k.resolved (k.links.seqOf pc) c)) c).links.seqOf c = k.resolved (k.links.seqOf pc) c := by
  have hpc := h.prev_lt pc hprev
  have hne := Links.seqOf_ne_nil h.links.points_earlier (h.links.lt_length hpc)
  by_cases hlt : k.nextCode < 4096
  · rw [k.learned_lt hlt]
    rcases Nat.lt_or_eq_of_le hc with hpresent | heq
    · rw [CompactDec.resolved, if_neg hpresent.ne]
      exact Links.seqOf_append h.links.points_earlier _ (h.links.lt_length hpresent)
    · rw [CompactDec.resolved, if_pos heq, firstByte_append hne]
      exact h.links.seqOf_snoc_new hlt hpc heq _
  · have hcode := c.isLt
    rw [k.learned_ge (Nat.not_lt.mp hlt), CompactDec.resolved, if_neg (by omega)]

/-- Learning from a later code in both forms (R143 steps 4 to 7). -/
theorem CompactDecInv.decLearn_toDec {k : CompactDec} (h : CompactDecInv k) (d : Dec) {pc : Code}
    (hprev : k.prevcode = some pc) {c : Code} (hc : c.toNat ≤ k.nextCode) :
    decLearn (k.toDec d) (k.links.seqOf pc) (k.resolved (k.links.seqOf pc) c) =
      (k.learned pc (firstByte (k.resolved (k.links.seqOf pc) c)) c).toDec
        (d.emitting (k.resolved (k.links.seqOf pc) c)) := by
  have hseq := h.seqOf_learned hprev hc
  by_cases hlt : k.nextCode < 4096
  · rw [k.learned_lt hlt] at hseq ⊢
    rw [decLearn_lt (d := k.toDec d) _ _ hlt]
    simp only [CompactDec.toDec, Dec.emitting, Option.map_some, hseq, h.links.toDict_snoc hlt (h.prev_lt pc hprev)]
  · rw [k.learned_ge (Nat.not_lt.mp hlt)] at hseq ⊢
    rw [decLearn_ge (d := k.toDec d) _ _ (Nat.not_lt.mp hlt)]
    simp only [CompactDec.toDec, Dec.emitting, Option.map_some, hseq]

theorem CompactDecInv.learned {k : CompactDec} (h : CompactDecInv k) {pc : Code} (hprev : k.prevcode = some pc) (x : Byte)
    {c : Code} (hc : c.toNat ≤ k.nextCode) : CompactDecInv (k.learned pc x c) := by
  by_cases hlt : k.nextCode < 4096
  · rw [k.learned_lt hlt]
    exact ⟨h.links.snoc hlt (h.prev_lt pc hprev) x, fun c' hc' => Option.some.inj hc' ▸ Nat.lt_succ_of_le hc⟩
  · rw [k.learned_ge (Nat.not_lt.mp hlt)]
    exact ⟨h.links, fun c' _ => c'.isLt.trans_le (Nat.not_lt.mp hlt)⟩

/-- A good compact decoder stays good. -/
theorem compactReceive_inv {k k' : CompactDec} (h : CompactDecInv k) {c : Code} {e : ByteSeq}
    (hreceive : compactReceive k c = some (k', e)) : CompactDecInv k' := by
  rcases compactReceive_cases k c with ⟨-, hlit, heq⟩ | ⟨-, -, heq⟩ | ⟨pc, hprev, hc, heq⟩ | ⟨pc, -, -, heq⟩ <;>
    cases heq.symm.trans hreceive
  · exact ⟨h.links, fun c' hc' => Option.some.inj hc' ▸ h.links.literal_lt hlit⟩
  · exact h.learned hprev _ hc

/-- What the registers of a decoder make of a code is what its compact form makes of it (R40). -/
theorem decTakes_toDec {k : CompactDec} (h : CompactDecInv k) (d : Dec) (c : Code) :
    decTakes (k.toDec d) c = (compactReceive k c).map fun r => r.1.toDec (d.emitting r.2) := by
  rcases compactReceive_cases k c with
    ⟨hprev, hlit, heq⟩ | ⟨hprev, hlearned, heq⟩ | ⟨pc, hprev, hc, heq⟩ | ⟨pc, hprev, hlarge, heq⟩ <;> rw [heq]
  · have hseq : k.links.toDict.seqOf c = k.links.seqOf c :=
      seqOf_of_some (h.links.toDict_seqOf? (h.links.literal_lt hlit))
    simp [decTakes, CompactDec.toDec, Dec.emitting, hprev, Config.firstCode, Nat.not_le.mpr hlit, sinkAppendAll_eq, hseq]
  · simp [decTakes, CompactDec.toDec, hprev, Config.firstCode, hlearned]
  · have hprev' : (k.toDec d).prev = some (k.links.seqOf pc) := congrArg (Option.map k.links.seqOf) hprev
    simp only [decTakes, hprev', h.decResolve_toDec d _ hc, Option.map_some, h.decLearn_toDec d hprev hc]
  · have hprev' : (k.toDec d).prev = some (k.links.seqOf pc) := congrArg (Option.map k.links.seqOf) hprev
    simp only [decTakes, hprev', decResolve_of_gt (d := k.toDec d) _ hlarge, Option.map_none]

/-- Settles O56: a decoder in compact form takes a code as its registers do, and raises the decode error where they take
none. -/
theorem compactDecoderAgrees : Obligations.CompactDecoderAgrees := by
  intro k s c h hs
  have htakes := decTakes_toDec h s.dec c
  rw [← hs] at htakes
  refine ⟨fun hnone => ?_, fun k' e hsome => ⟨compactReceive_inv h hsome, ?_⟩⟩
  · rw [decReceive_eq, htakes, hnone]
    rfl
  · rw [decReceive_eq, htakes, hsome]
    exact ⟨rfl, rfl⟩

end Sys2Proof.Machine
end
